-- ==== Sys2Proof/Word.lean ====
section
/-! DEFINITION. The types of a symbol, a word and a matrix (00_scope.md R7, R8). -/

namespace Sys2Proof

/-- A symbol of GF(q): the integer 0..q-1 that represents it (00_scope.md R7). -/
abbrev Symbol := Nat

/-- A finite sequence of symbols, index 0 first (00_scope.md R7). -/
abbrev Word := List Symbol

/-- A matrix over GF(q) as the list of its rows (00_scope.md R8). -/
abbrev Matrix := List Word

end Sys2Proof
end

