-- ==== Sys2Proof/Config.lean ====
section
/-! DEFINITION. What an implementation fixes: the configuration of 00_scope.md R5, field by field, with
the values it states, the two Golay halves (44_golay.md R187, R188), and the two collaborators whose
answers the spec leaves open, as constants without a body. -/

namespace Sys2Proof.Config

/-- The non-identity half of the order-24 Golay generator (44_golay.md R187), row j is `a_j`. -/
def a24 : Matrix :=
  [[1,1,0,1,1,1,0,0,0,1,0,1],
   [1,0,1,1,1,0,0,0,1,0,1,1],
   [0,1,1,1,0,0,0,1,0,1,1,1],
   [1,1,1,0,0,0,1,0,1,1,0,1],
   [1,1,0,0,0,1,0,1,1,0,1,1],
   [1,0,0,0,1,0,1,1,0,1,1,1],
   [0,0,0,1,0,1,1,0,1,1,1,1],
   [0,0,1,0,1,1,0,1,1,1,0,1],
   [0,1,0,1,1,0,1,1,1,0,0,1],
   [1,0,1,1,0,1,1,1,0,0,0,1],
   [0,1,1,0,1,1,1,0,0,0,1,1],
   [1,1,1,1,1,1,1,1,1,1,1,0]]

/-- The non-identity half of the order-12 Golay generator over GF(3) (44_golay.md R188). -/
def a12 : Matrix :=
  [[0,1,1,1,1,1],
   [1,0,1,2,2,1],
   [1,1,0,1,2,2],
   [1,2,1,0,1,2],
   [1,2,2,1,0,1],
   [1,1,2,2,1,0]]

/-- The random port (20_memory.md R64 (a), 00_scope.md R11): the bit it delivers at the i-th request.
A free value: no body, so nothing is known of any bit (log entry 4). -/
opaque randBit : Nat → Bool

/-- The hash port (46_fuzzy_extractor.md R233): the 32 bytes it answers to the bytes it is sent.
A free function: only that equal inputs give equal outputs is known (R232; log entry 5). -/
opaque hashPort : List (BitVec 8) → Vector (BitVec 8) (256 / 8)

/-- The configuration: one field for each row of 00_scope.md R5. -/
structure Parameters where
  /-- `XLEN`: width of every host-visible register and of the command word. -/
  xlen : Nat
  /-- `AW`: width of a byte offset into the register window. -/
  aw : Nat
  /-- `NW`: number of word registers. -/
  nw : Nat
  /-- `NMAX`: largest word length a word register holds. -/
  nmax : Nat
  /-- `SYMW`: width of one symbol cell. -/
  symw : Nat
  /-- `NSLOT`: number of code slots. -/
  nslot : Nat
  /-- `QMAX`: largest alphabet size. -/
  qmax : Nat
  /-- `DIGEST_BITS`: length of the hash digest in bits. -/
  digestBits : Nat
  /-- `A24`. -/
  a24 : Matrix
  /-- `A12`. -/
  a12 : Matrix
  /-- `Digest`, as the bytes of the hash port (46_fuzzy_extractor.md R233). -/
  digest : List (BitVec 8) → Vector (BitVec 8) (digestBits / 8)
  /-- `RandBit`, the bit of the i-th draw. -/
  randBit : Nat → Bool

/-- The block's configuration, with the values R5 states (log entry 8). Every other definition takes
them from here. -/
abbrev params : Parameters :=
  { xlen := 32
    aw := 14
    nw := 4
    nmax := 256
    symw := 8
    nslot := 4
    qmax := 251
    digestBits := 256
    a24 := a24
    a12 := a12
    digest := hashPort
    randBit := randBit }

/-- `XLEN` of the block. -/
abbrev xlen : Nat := params.xlen
/-- `AW` of the block. -/
abbrev aw : Nat := params.aw
/-- `NW` of the block. -/
abbrev nw : Nat := params.nw
/-- `NMAX` of the block. -/
abbrev nmax : Nat := params.nmax
/-- `SYMW` of the block. -/
abbrev symw : Nat := params.symw
/-- `NSLOT` of the block. -/
abbrev nslot : Nat := params.nslot
/-- `QMAX` of the block. -/
abbrev qmax : Nat := params.qmax
/-- `DIGEST_BITS` of the block. -/
abbrev digestBits : Nat := params.digestBits

end Sys2Proof.Config

namespace Sys2Proof

/-- A value of a host-visible register, or a command word: XLEN bits (00_scope.md R5). -/
abbrev RegVal := BitVec Config.xlen

/-- A byte offset into the register window: AW bits (00_scope.md R5). -/
abbrev Offset := BitVec Config.aw

/-- One symbol cell: SYMW bits (00_scope.md R5). -/
abbrev SymCell := BitVec Config.symw

end Sys2Proof
end

