-- ==== Sys2Proof/Syntax.lean ====
section
/-! DEFINITION. The eleven commands of 30_encoding.md R77, one constructor per row of
spec/opcode_table.json. -/

namespace Sys2Proof

/-- A word register W0..W3 (10_state.md R21). -/
abbrev WordIdx := Fin Config.nw

/-- A code slot C0..C3 (10_state.md R25). -/
abbrev SlotIdx := Fin Config.nslot

/-- Which half of the helper data FE.HDRD reads: `sel` = 0 is s, 1 is x (30_encoding.md R75). -/
inductive HelperHalf where
  | s
  | x
deriving DecidableEq, Repr

/-- A command (30_encoding.md R77). Numeric parameters are naturals, used at their own width and
never sign-extended (R76); `wellFormed` bounds them by the width of their field. Operands stand in
the order of the assembler syntax of R80. -/
inductive Instr where
  /-- `HAM.NEW c<cs>, <r>, <q>` (42_hamming.md R140). -/
  | hamNew (cs : SlotIdx) (r q : Nat)
  /-- `BCH.NEW c<cs>, <q>, <d>, <c>` (43_bch.md R155). -/
  | bchNew (cs : SlotIdx) (q d c : Nat)
  /-- `GOL.NEW c<cs>, <n>` (44_golay.md R185). -/
  | golNew (cs : SlotIdx) (n : Nat)
  /-- `RM.NEW c<cs>, <r>, <m>` (45_reed_muller.md R205). -/
  | rmNew (cs : SlotIdx) (r m : Nat)
  /-- `ENC w<wd>, w<ws>, c<cs>` (41_linear_code.md R126). -/
  | enc (wd ws : WordIdx) (cs : SlotIdx)
  /-- `DEC w<wd>, w<ws>, c<cs>` (41_linear_code.md R127). -/
  | dec (wd ws : WordIdx) (cs : SlotIdx)
  /-- `DECM w<wd>, w<ws>, c<cs>` (41_linear_code.md R128). -/
  | decm (wd ws : WordIdx) (cs : SlotIdx)
  /-- `FE.NEW c<cs>, <mb>, <pb>` with h = 0, `…, hd` with h = 1 (46_fuzzy_extractor.md R226). -/
  | feNew (cs : SlotIdx) (mb pb : Nat) (h : Bool)
  /-- `FE.GEN w<wd>, w<ws>` (46_fuzzy_extractor.md R229). -/
  | feGen (wd ws : WordIdx)
  /-- `FE.REP w<wd>, w<ws>` (46_fuzzy_extractor.md R230). -/
  | feRep (wd ws : WordIdx)
  /-- `FE.HDRD w<wd>, s` or `FE.HDRD w<wd>, x` (46_fuzzy_extractor.md R231). -/
  | feHdrd (wd : WordIdx) (sel : HelperHalf)
deriving DecidableEq, Repr

end Sys2Proof
end

