-- ==== Sys2Proof/WellFormed.lean ====
section
/-! DEFINITION. Which commands an encoding can hold: every parameter fits its field
(30_encoding.md R72, R75, R76). Register and slot numbers are bounded by their types. -/

namespace Sys2Proof

/-- `v` fits the 8-bit parameter fields p1, p2, p3 of format N (30_encoding.md R72). -/
def fitsParam (v : Nat) : Bool := decide (v < 256)

/-- `v` fits the 10-bit fields mb, pb of format F (30_encoding.md R75). -/
def fitsBitCount (v : Nat) : Bool := decide (v < 1024)

/-- Every parameter fits its field. The legal range beyond the width (a prime q, an order in
11, 12, 23, 24) is the command's own check and no matter of encoding (30_encoding.md R76). -/
def Instr.wellFormed : Instr → Bool
  | .hamNew _ r q => fitsParam r && fitsParam q
  | .bchNew _ q d c => fitsParam q && fitsParam d && fitsParam c
  | .golNew _ n => fitsParam n
  | .rmNew _ r m => fitsParam r && fitsParam m
  | .enc _ _ _ => true
  | .dec _ _ _ => true
  | .decm _ _ _ => true
  | .feNew _ mb pb _ => fitsBitCount mb && fitsBitCount pb
  | .feGen _ _ => true
  | .feRep _ _ => true
  | .feHdrd _ _ => true

end Sys2Proof
end

