-- ==== Sys2Proof/Decode.lean ====
section
/-! DEFINITION. The command decoder, total on 32-bit words and rejecting by name, and the encoder
written from the same formats (30_encoding.md R70 to R78). -/

namespace Sys2Proof

/-- `v[hi:lo]`: the field of bits hi down to lo of v as an unsigned integer (00_scope.md R6). -/
def field (v : RegVal) (hi lo : Nat) : Nat := v.toNat / 2 ^ lo % 2 ^ (hi + 1 - lo)

/-- A 2-bit word register number, used directly (30_encoding.md R76). -/
def wordField (v : RegVal) (lo : Nat) : WordIdx := Fin.ofNat Config.nw (field v (lo + 1) lo)

/-- A 2-bit slot number, used directly (30_encoding.md R76). -/
def slotField (v : RegVal) (lo : Nat) : SlotIdx := Fin.ofNat Config.nslot (field v (lo + 1) lo)

/-- Why a word is no command (30_encoding.md R78). Either way it is IllegalCommand(IC_ENCODING). -/
inductive DecodeError where
  /-- The opcode value is not one of the eleven listed. -/
  | reservedOpcode
  /-- A listed opcode with a must-be-0 bit set. -/
  | nonzeroReservedBit
deriving DecidableEq, Repr

/-- `i` if every must-be-0 field is 0 (30_encoding.md R78). -/
def requireZero (reserved : Nat) (i : Instr) : Except DecodeError Instr :=
  if reserved = 0 then .ok i else .error .nonzeroReservedBit

/-- The command a 32-bit word encodes: the opcode selects the format, the format gives the fields
and the must-be-0 bits (30_encoding.md R70 to R78). Decoding depends on the 32 bits alone. -/
def decode (v : RegVal) : Except DecodeError Instr :=
  match field v 31 26 with
  | 0x01 => requireZero (field v 7 0) (.hamNew (slotField v 24) (field v 23 16) (field v 15 8))
  | 0x02 => .ok (.bchNew (slotField v 24) (field v 23 16) (field v 15 8) (field v 7 0))
  | 0x03 => requireZero (field v 15 0) (.golNew (slotField v 24) (field v 23 16))
  | 0x04 => requireZero (field v 7 0) (.rmNew (slotField v 24) (field v 23 16) (field v 15 8))
  | 0x08 => requireZero (field v 19 0) (.enc (wordField v 22) (wordField v 20) (slotField v 24))
  | 0x09 => requireZero (field v 19 0) (.dec (wordField v 22) (wordField v 20) (slotField v 24))
  | 0x0A => requireZero (field v 19 0) (.decm (wordField v 22) (wordField v 20) (slotField v 24))
  | 0x10 => requireZero (field v 22 20)
      (.feNew (slotField v 24) (field v 19 10) (field v 9 0) (field v 23 23 == 1))
  | 0x11 => requireZero (field v 25 24 + field v 19 0) (.feGen (wordField v 22) (wordField v 20))
  | 0x12 => requireZero (field v 25 24 + field v 19 0) (.feRep (wordField v 22) (wordField v 20))
  | 0x13 => requireZero (field v 25 24 + field v 21 21 + field v 19 0)
      (.feHdrd (wordField v 22) (if field v 20 20 = 0 then .s else .x))
  | _ => .error .reservedOpcode

/-- Format N: opcode, cs, p1, p2, p3 (30_encoding.md R72). -/
def formatN (opcode : Nat) (cs : SlotIdx) (p1 p2 p3 : Nat) : RegVal :=
  BitVec.ofNat Config.xlen (opcode * 2 ^ 26 + cs.val * 2 ^ 24 + p1 * 2 ^ 16 + p2 * 2 ^ 8 + p3)

/-- Format W: opcode, cs, wd, ws (30_encoding.md R73). -/
def formatW (opcode : Nat) (cs : SlotIdx) (wd ws : WordIdx) : RegVal :=
  BitVec.ofNat Config.xlen (opcode * 2 ^ 26 + cs.val * 2 ^ 24 + wd.val * 2 ^ 22 + ws.val * 2 ^ 20)

/-- Format X: opcode, wd, ws (30_encoding.md R74). -/
def formatX (opcode : Nat) (wd ws : WordIdx) : RegVal :=
  BitVec.ofNat Config.xlen (opcode * 2 ^ 26 + wd.val * 2 ^ 22 + ws.val * 2 ^ 20)

/-- Format H: opcode, wd, sel (30_encoding.md R75). -/
def formatH (opcode : Nat) (wd : WordIdx) (sel : Nat) : RegVal :=
  BitVec.ofNat Config.xlen (opcode * 2 ^ 26 + wd.val * 2 ^ 22 + sel * 2 ^ 20)

/-- Format F: opcode, cs, h, mb, pb (30_encoding.md R75). -/
def formatF (opcode : Nat) (cs : SlotIdx) (h mb pb : Nat) : RegVal :=
  BitVec.ofNat Config.xlen (opcode * 2 ^ 26 + cs.val * 2 ^ 24 + h * 2 ^ 23 + mb * 2 ^ 10 + pb)

/-- The bit that selects the helper half (30_encoding.md R75). -/
def selBit : HelperHalf → Nat
  | .s => 0
  | .x => 1

/-- The word of a well-formed command (30_encoding.md R72 to R77, syntax of R80). -/
def encode : Instr → RegVal
  | .hamNew cs r q => formatN 0x01 cs r q 0
  | .bchNew cs q d c => formatN 0x02 cs q d c
  | .golNew cs n => formatN 0x03 cs n 0 0
  | .rmNew cs r m => formatN 0x04 cs r m 0
  | .enc wd ws cs => formatW 0x08 cs wd ws
  | .dec wd ws cs => formatW 0x09 cs wd ws
  | .decm wd ws cs => formatW 0x0A cs wd ws
  | .feNew cs mb pb h => formatF 0x10 cs h.toNat mb pb
  | .feGen wd ws => formatX 0x11 wd ws
  | .feRep wd ws => formatX 0x12 wd ws
  | .feHdrd wd sel => formatH 0x13 wd (selBit sel)

/-- The opcode of a command (30_encoding.md R77, column `opcode`). -/
def opcodeOf : Instr → Nat
  | .hamNew _ _ _ => 0x01
  | .bchNew _ _ _ _ => 0x02
  | .golNew _ _ => 0x03
  | .rmNew _ _ _ => 0x04
  | .enc _ _ _ => 0x08
  | .dec _ _ _ => 0x09
  | .decm _ _ _ => 0x0A
  | .feNew _ _ _ _ => 0x10
  | .feGen _ _ => 0x11
  | .feRep _ _ => 0x12
  | .feHdrd _ _ => 0x13

/-- The `match` and `mask` columns of the opcode table (30_encoding.md R77), row by row. The decoder
does not use it: that the two agree is a statement. -/
def opcodeTable : List (RegVal × RegVal) :=
  [(0x04000000, 0xFC0000FF), (0x08000000, 0xFC000000), (0x0C000000, 0xFC00FFFF),
   (0x10000000, 0xFC0000FF), (0x20000000, 0xFC0FFFFF), (0x24000000, 0xFC0FFFFF),
   (0x28000000, 0xFC0FFFFF), (0x40000000, 0xFC700000), (0x44000000, 0xFF0FFFFF),
   (0x48000000, 0xFF0FFFFF), (0x4C000000, 0xFF2FFFFF)]

/-- The command the decoder reads from a command word given as a number (bit 0 the least
significant); `none` where it refuses. A command is one 32-bit word, the data of a CMD write
(30_encoding.md R70, R79), so no byte order enters; bits at and above `nbits` are 0. -/
def decodeTableWord (nbits w : Nat) : Option Instr :=
  (decode (BitVec.ofNat Config.xlen (w % 2 ^ nbits))).toOption

end Sys2Proof
end

