-- ==== Sys2Proof/Machine/Field.lean ====
section
/-! DEFINITION. The datapath of 40_field_arithmetic.md: words and matrices over GF(q)
(00_scope.md R7, R8), the prime field (R90 to R96), the extension field (R97 to R103), polynomials
(R104 to R110) and linear systems (R111). Everything is exact, on naturals (R95). -/

namespace Sys2Proof.Machine

/-! ### The prime field (R90 to R96) -/

/-- The primes up to 251 (R91). -/
def primes : List Nat :=
  [2, 3, 5, 7, 11, 13, 17, 19, 23, 29, 31, 37, 41, 43, 47, 53, 59, 61, 67, 71, 73, 79, 83, 89, 97,
   101, 103, 107, 109, 113, 127, 131, 137, 139, 149, 151, 157, 163, 167, 173, 179, 181, 191, 193,
   197, 199, 211, 223, 227, 229, 233, 239, 241, 251]

/-- `IsPrime(q)` (R91), no q above QMAX being admitted (00_scope.md R5). -/
def isPrime (q : Nat) : Bool := decide (q ≤ Config.qmax) && primes.contains q

/-- a + b in GF(q) (R92). -/
def gfAdd (q a b : Nat) : Nat := (a + b) % q

/-- a - b in GF(q) (R92). -/
def gfSub (q a b : Nat) : Nat := (a + (q - b % q)) % q

/-- -a in GF(q) (R92). -/
def gfNeg (q a : Nat) : Nat := (q - a % q) % q

/-- a * b in GF(q) (R93). -/
def gfMul (q a b : Nat) : Nat := a * b % q

/-- inv(a) for a != 0: the unique y in 1..q-1 with (a * y) mod q = 1 (R94). No command divides in
GF(q) itself; for a = 0, which no rule evaluates, the answer is 0 (log entry 13). -/
def gfInv (q a : Nat) : Nat := ((List.range q).find? fun y => a * y % q == 1).getD 0

/-- b / a = b * inv(a) (R94). -/
def gfDiv (q b a : Nat) : Nat := gfMul q b (gfInv q a)

/-! ### Words and matrices over GF(q) (00_scope.md R7, R8) -/

/-- `zeros(n)` (00_scope.md R7). -/
def zeros (n : Nat) : Word := List.replicate n 0

/-- `unit(n, i)` (00_scope.md R7). -/
def unit (n i : Nat) : Word := (List.range n).map fun j => if j = i then 1 else 0

/-- `wt(w)`: the number of nonzero entries (00_scope.md R7). -/
def wt (w : Word) : Nat := w.countP fun x => x != 0

/-- u + v, symbol by symbol (00_scope.md R8). -/
def wAdd (q : Nat) (u v : Word) : Word := List.zipWith (gfAdd q) u v

/-- u - v, symbol by symbol (00_scope.md R8). -/
def wSub (q : Nat) (u v : Word) : Word := List.zipWith (gfSub q) u v

/-- b * u (00_scope.md R8). -/
def wScale (q b : Nat) (u : Word) : Word := u.map (gfMul q b)

/-- The sum over j of u[j] * v[j] in GF(q) (00_scope.md R8). -/
def dot (q : Nat) (u v : Word) : Nat := (List.zipWith (· * ·) u v).sum % q

/-- `w * M` for a matrix of n columns: the sum over i of w[i] times row i (00_scope.md R8). -/
def vecMat (q n : Nat) (w : Word) (M : Matrix) : Word :=
  (List.zipWith (wScale q) w M).foldr (wAdd q) (zeros n)

/-- `M * w^T`: symbol i is row i times w (00_scope.md R8). -/
def matVec (q : Nat) (M : Matrix) (w : Word) : Word := M.map fun row => dot q row w

/-- `M^T` for a matrix of n columns (00_scope.md R8). -/
def transpose (n : Nat) (M : Matrix) : Matrix :=
  (List.range n).map fun j => M.map fun row => row.getD j 0

/-- `I_k` (00_scope.md R8). -/
def identity (k : Nat) : Matrix := (List.range k).map (unit k)

/-- `[A | B]` (00_scope.md R8). -/
def hconcat (A B : Matrix) : Matrix := List.zipWith (· ++ ·) A B

/-- `-M` (00_scope.md R8). -/
def matNeg (q : Nat) (M : Matrix) : Matrix := M.map fun row => row.map (gfNeg q)

/-- All r-tuples over GF(q) in ascending lexicographic order, component 0 most significant
(R96, 42_hamming.md R141). -/
def tuples (q : Nat) : Nat → List Word
  | 0 => [[]]
  | r + 1 => (List.range q).flatMap fun u => (tuples q r).map fun rest => u :: rest

/-! ### The extension field F = GF(q)[alpha]/(f) (R97 to R103) -/

/-- An element u_0 + u_1 alpha + ... as its m-tuple (R97). -/
abbrev Elem := List Symbol

/-- The data of F: the alphabet, n = q^m - 1, the coefficients f_0..f_{m-1} of the monic f, and the
element a that the powers are taken of (R97, R101; 43_bch.md R156). -/
structure ExtField where
  q : Nat
  n : Nat
  f : List Symbol
  a : Elem
deriving DecidableEq, Repr

/-- The degree m of the extension (R97). -/
def ExtField.m (F : ExtField) : Nat := F.f.length

/-- `emb(c)` = (c, 0, ..., 0) (R97). -/
def ExtField.emb (F : ExtField) (c : Symbol) : Elem := c :: List.replicate (F.m - 1) 0

/-- Zero of F (R97). -/
def ExtField.zero (F : ExtField) : Elem := List.replicate F.m 0

/-- One of F (R97). -/
def ExtField.one (F : ExtField) : Elem := F.emb 1

/-- u + v in F, component by component (R98). -/
def ExtField.add (F : ExtField) (u v : Elem) : Elem := List.zipWith (gfAdd F.q) u v

/-- u - v in F (R98). -/
def ExtField.sub (F : ExtField) (u v : Elem) : Elem := List.zipWith (gfSub F.q) u v

/-- -u in F (R98). -/
def ExtField.neg (F : ExtField) (u : Elem) : Elem := u.map (gfNeg F.q)

/-- alpha * u, with alpha^m = -(f_{m-1} alpha^(m-1) + ... + f_0) (R99). -/
def ExtField.mulAlpha (F : ExtField) (u : Elem) : Elem :=
  List.zipWith (fun s fj => gfSub F.q s (gfMul F.q (u.getLastD 0) fj)) (0 :: u.dropLast) F.f

/-- u * v in F: the sum over i of u_i * alpha^i * v, each power of alpha reduced as it arises, which is
R99's product reduced modulo f (log entry 11). -/
def ExtField.mul (F : ExtField) (u v : Elem) : Elem :=
  u.foldr (fun c acc => F.add (wScale F.q c v) (F.mulAlpha acc)) F.zero

/-- u^e: u^0 = one, u^(e+1) = u^e * u (R100). -/
def ExtField.pow (F : ExtField) (u : Elem) : Nat → Elem
  | 0 => F.one
  | e + 1 => F.mul (F.pow u e) u

/-- `IsPrimitive(F, a)`: a^n = one and a^j != one for 1 <= j < n (R101). -/
def ExtField.isPrimitive (F : ExtField) : Bool :=
  F.pow F.a F.n == F.one && (List.range F.n).all fun j => j == 0 || F.pow F.a j != F.one

/-- `apow(i)` = a^(i mod n) for any integer i (R102). -/
def ExtField.apow (F : ExtField) (i : Int) : Elem := F.pow F.a (i % (F.n : Int)).toNat

/-- `dlog(u)` for nonzero u: the i in 0..n-1 with a^i = u (R102). -/
def ExtField.dlog (F : ExtField) (u : Elem) : Option Nat :=
  (List.range F.n).find? fun i => F.pow F.a i == u

/-- `inv(u)` for nonzero u: u^(n-1), the element v with u * v = u^n = one (R100; log entry 11). -/
def ExtField.inv (F : ExtField) (u : Elem) : Elem := F.pow u (F.n - 1)

/-- `w / u` = w * inv(u) (R100). -/
def ExtField.div (F : ExtField) (w u : Elem) : Elem := F.mul w (F.inv u)

/-- `InBase(u)`: u_1 = ... = u_{m-1} = 0 (R103). -/
def inBase (u : Elem) : Bool := u.tail.all fun c => c == 0

/-- `base(u)` = u_0 (R103). -/
def base (u : Elem) : Symbol := u.headD 0

/-- `z . u` for a natural z: u added to itself z times, which is emb(z mod q) * u (R107). -/
def ExtField.smul (F : ExtField) (z : Nat) (u : Elem) : Elem := wScale F.q (z % F.q) u

/-! ### Polynomials (R104 to R110): a list of coefficients, that of x^j at index j -/

/-- A polynomial over F (R104). -/
abbrev Poly := List Elem

/-- `PolyEval(p, u)`: the sum over j of p_j * u^j (R105), evaluated from the highest coefficient. -/
def ExtField.polyEval (F : ExtField) (p : Poly) (u : Elem) : Elem :=
  p.foldr (fun c acc => F.add c (F.mul u acc)) F.zero

/-- `WordPoly(w)`: the coefficient of x^j is w[L-1-j], embedded in F (R105, 00_scope.md R9). -/
def ExtField.wordPoly (F : ExtField) (w : Word) : Poly := w.reverse.map F.emb

/-- The coefficients without the zeros above the highest nonzero one: one list for all lists of one
polynomial over K, whose zero is `zero` (R104). -/
def polyTrim {K : Type} [DecidableEq K] (zero : K) : List K → List K
  | [] => []
  | c :: p =>
    match polyTrim zero p with
    | [] => if c = zero then [] else [c]
    | e :: r => c :: e :: r

/-- `deg(p)`: the largest j with p_j != 0, none for the zero polynomial (R104). -/
def polyDeg {K : Type} [DecidableEq K] (zero : K) (p : List K) : Option Nat :=
  match polyTrim zero p with
  | [] => none
  | _ :: r => some r.length

/-- Two polynomials are equal when all their coefficients are (R104). -/
def polyEq {K : Type} [DecidableEq K] (zero : K) (p r : List K) : Bool :=
  polyTrim zero p == polyTrim zero r

/-- Sum of two polynomials, coefficients beyond a list being zero (R104). -/
def ExtField.polyAdd (F : ExtField) : Poly → Poly → Poly
  | [], r => r
  | p, [] => p
  | c :: p, e :: r => F.add c e :: F.polyAdd p r

/-- `PolyMul(p, r)`: coefficient j is the sum over i of p_i * r_{j-i} (R106). -/
def ExtField.polyMul (F : ExtField) : Poly → Poly → Poly
  | [], _ => []
  | c :: p, r => F.polyAdd (r.map (F.mul c)) (F.zero :: F.polyMul p r)

/-- `Trunc(p, N)`: p mod x^N (R106). -/
def trunc (p : Poly) (N : Nat) : Poly := p.take N

/-- `Deriv(p)`: coefficient j is (j+1) . p_{j+1} (R107). -/
def ExtField.deriv (F : ExtField) (p : Poly) : Poly :=
  p.tail.mapIdx fun j c => F.smul (j + 1) c

/-- One step of long division on coefficients written highest degree first: subtract h times the
divisor's lower coefficients from the leading entries (R108). -/
def subLeading (q h : Nat) : Word → Word → Word
  | p, [] => p
  | [], _ :: _ => []
  | x :: p, y :: g => gfSub q x (gfMul q h y) :: subLeading q h p g

/-- Long division of `steps` leading coefficients by a monic divisor whose lower coefficients are
`g`, all highest degree first (R108). -/
def divSteps (q : Nat) (g : Word) : Nat → Word → Word
  | 0, p => p
  | _ + 1, [] => []
  | k + 1, h :: p => divSteps q g k (subLeading q h p g)

/-- `PolyRem(p, g)` over GF(q) for a monic g of degree D, both as polynomial words (highest degree
first, 00_scope.md R9): the remainder as a word of D coefficients, for a p of at least D
coefficients (R108). -/
def polyRem (q : Nat) (p g : Word) : Word := divSteps q g.tail (p.length - (g.length - 1)) p

/-- `Cyc(e)` = {e * q^i mod n : i >= 0}; since q^m mod n = 1 for n = q^m - 1 the first m members are
all of them (R109; log entry 11). -/
def cyclotomicCoset (q m n e : Nat) : List Nat := (List.range m).map fun i => e * q ^ i % n

/-- p * (x - v) (R109, R110). -/
def ExtField.mulLinear (F : ExtField) (p : Poly) (v : Elem) : Poly :=
  F.polyAdd (F.zero :: p) (p.map fun c => F.neg (F.mul v c))

/-- The product over v in `vs` of (x - v) (R109). -/
def ExtField.linearProduct (F : ExtField) (vs : List Elem) : Poly := vs.foldl F.mulLinear [F.one]

/-- The product over e in `es` of (x - apow(e)) (R110, 43_bch.md R158). -/
def ExtField.rootProduct (F : ExtField) (es : List Nat) : Poly :=
  F.linearProduct (es.map fun e => F.apow e)

/-- `Conj(u)` = {u, u^q, u^(q^2), ...}, each member once; u^(q^m) = u, so the first m powers are all of
them (R109; log entry 11). -/
def ExtField.conj (F : ExtField) (u : Elem) : List Elem :=
  ((List.range F.m).map fun i => F.pow u (F.q ^ i)).dedup

/-- A polynomial over F whose coefficients satisfy `InBase`, read as one over GF(q) (R109). -/
def basePoly (p : Poly) : List Symbol := p.map base

/-- `MinPoly(u)`: the product over v in Conj(u) of (x - v), read over GF(q), coefficient of x^j at
index j (R109). No command computes it. -/
def ExtField.minPoly (F : ExtField) (u : Elem) : List Symbol := basePoly (F.linearProduct (F.conj u))

/-! ### Linear systems over F (R111) -/

/-- The first row whose leading entry is nonzero, and the other rows in order. -/
def ExtField.takePivot (F : ExtField) : List (List Elem) → Option (List Elem × List (List Elem))
  | [] => none
  | row :: rows =>
    if row.headD F.zero != F.zero then some (row, rows)
    else (F.takePivot rows).map fun found => (found.1, row :: found.2)

/-- The sum over j of u_j * v_j in F. -/
def ExtField.dotF (F : ExtField) (u v : List Elem) : Elem :=
  (List.zipWith F.mul u v).foldr F.add F.zero

/-- Gaussian elimination with row exchanges on `v` rows of v + 1 entries, the last of each the right
side: the solution, or `none` when some column has no nonzero pivot (R111). -/
def ExtField.eliminate (F : ExtField) : Nat → List (List Elem) → Option (List Elem)
  | 0, _ => some []
  | v + 1, rows =>
    match F.takePivot rows with
    | none => none
    | some (pivot, others) =>
      let lead := F.inv (pivot.headD F.zero)
      let unitRow := pivot.tail.map (F.mul lead)
      let reduced := others.map fun row =>
        List.zipWith F.sub row.tail (unitRow.map (F.mul (row.headD F.zero)))
      match F.eliminate v reduced with
      | none => none
      | some ys => some (F.sub (unitRow.getLastD F.zero) (F.dotF unitRow.dropLast ys) :: ys)

/-- `Solve(M, b)` when `Nonsingular(M)`, `none` otherwise (R111). -/
def ExtField.solve (F : ExtField) (M : List (List Elem)) (b : List Elem) : Option (List Elem) :=
  F.eliminate M.length (List.zipWith (fun row e => row ++ [e]) M b)

end Sys2Proof.Machine
end

