-- ==== Sys2Proof/Machine/State.lean ====
section
/-! DEFINITION. The state of the block as plain data (10_state.md R20), the exceptions, the host
accesses, the two kinds of stop, and the state after reset (10_state.md R42). -/

namespace Sys2Proof.Machine

/-- The exceptions with their sub-codes (60_exceptions.md R250 to R256). Raised by commands as R257
says; taking one is a next state (R261), so none of them stops the machine. -/
inductive Trap where
  /-- InvalidInput: the cs field names an empty slot. -/
  | iiSlotEmpty
  /-- InvalidInput: the source word has the wrong length. -/
  | iiLength
  /-- InvalidInput: a cell of the source word is no symbol of the code's field. -/
  | iiSymbol
  /-- InvalidInput: no extractor has been constructed. -/
  | iiFeInvalid
  /-- InvalidInput: no helper data is set. -/
  | iiNoHelper
  /-- ConstructionError: the slot is built, or the extractor exists. -/
  | ceSlotBuilt
  /-- ConstructionError: q is not a prime in 2..251. -/
  | ceQ
  /-- ConstructionError: a parameter is outside its domain. -/
  | ceParam
  /-- ConstructionError: the code would not fit, or has no message symbol. -/
  | ceSize
  /-- ConstructionError: W0 is not a monic polynomial word of degree at least 1. -/
  | cePoly
  /-- ConstructionError: W1 is not a primitive element. -/
  | cePrim
  /-- ConstructionError: the extractor does not fit the slot. -/
  | ceFeBind
  /-- ConstructionError: the supplied helper data is malformed. -/
  | ceFeHelper
  /-- ConstructionError: helper data is already set. -/
  | ceOneshot
  /-- DecodeFailure: no Hamming column matches (unreachable, 42_hamming.md R146). -/
  | dfHamNomatch
  /-- DecodeFailure: every Hankel matrix is singular. -/
  | dfBchSingular
  /-- DecodeFailure: the locator has the wrong number of roots. -/
  | dfBchRoots
  /-- DecodeFailure: a Forney value is not in GF(q). -/
  | dfBchMagnitude
  /-- DecodeFailure: the corrected word still has a nonzero syndrome. -/
  | dfBchResidual
  /-- DecodeFailure: no Golay branch matches. -/
  | dfGolNomatch
  /-- DecodeFailure: a Reed–Muller vote is tied. -/
  | dfRmTie
  /-- NotImplemented: decode on a Golay slot of order 11 or 12. -/
  | niGolayTernary
  /-- IllegalCommand: the word matches no row of the opcode table. -/
  | icEncoding
deriving DecidableEq, Repr

/-- One word register: a length 0..NMAX and NMAX cells of SYMW bits (10_state.md R21). -/
structure WordReg where
  len : Fin (Config.nmax + 1)
  cells : Vector SymCell Config.nmax
deriving DecidableEq, Repr

/-- Which construction built a code, with the fields only that family has (10_state.md R25). -/
inductive CodeKind where
  /-- Hamming: `ham_r`. -/
  | ham (r : Nat)
  /-- BCH: `bch_m`, `bch_c`, `bch_f` = f_0..f_m, `bch_a` = a_0..a_{m-1}. -/
  | bch (m c : Nat) (f a : List Symbol)
  /-- Golay: the order is `n`. -/
  | gol
  /-- Reed–Muller: `rm_r`, `rm_m`. -/
  | rm (r m : Nat)
deriving DecidableEq, Repr

/-- The record of a built code slot (10_state.md R25). -/
structure Code where
  q : Nat
  n : Nat
  k : Nat
  d : Nat
  kind : CodeKind
deriving DecidableEq, Repr

/-- HelperData: s the masked codeword, x the random pad (10_state.md R28). -/
structure Helper where
  s : Word
  x : Word
deriving DecidableEq, Repr

/-- The fuzzy extractor context once constructed (10_state.md R28): `helper` is the one-shot latch
`hd_set` with `hd_s`, `hd_x`. -/
structure Extractor where
  slot : SlotIdx
  mbits : Nat
  pbits : Nat
  helper : Option Helper
deriving DecidableEq, Repr

/-- The width of a host access (20_memory.md R54): only 32 bits is admitted. -/
inductive AccessWidth where
  | bits8
  | bits16
  | bits32
  | bits64
  | burst
deriving DecidableEq, Repr

/-- What arrives at the block from outside, one at a time (20_memory.md R59): a host read or write of
the 2^14-byte window (R50), the platform's reset (70_reset_and_hazards.md R280), or a CMD write of
`data` during whose command the platform's reset arrives (R282). -/
inductive BusRequest where
  | read (off : Offset) (width : AccessWidth)
  | write (off : Offset) (width : AccessWidth) (data : RegVal)
  | reset
  | commandCutByReset (data : RegVal)
deriving DecidableEq, Repr

/-- What the bus answers to an admitted access (20_memory.md R55, R56; 60_exceptions.md R261). -/
inductive BusResponse where
  | readData (v : RegVal)
  | writeDone
deriving DecidableEq, Repr

/-- The reasons for an AccessError (20_memory.md R54 to R57). -/
inductive AccessError where
  /-- The access is not 32 bits wide (R54). -/
  | width
  /-- The offset is not a multiple of 4 (R54). -/
  | alignment
  /-- The offset is in no row of the address map (R51). -/
  | unmapped
  /-- A write to ID, STATUS, CINFO, FEINFO, PARAMS or CSs_INFOn (R56). -/
  | readOnly
  /-- A value out of range for a cell or a length (R56). -/
  | range
deriving DecidableEq, Repr

/-- The reasons a step stops with a fault: none. "No behaviour of the block is `stuck`"
(93_implementation_defined.md part 1); a command exception is a next state (60_exceptions.md R261).
No constructor, so nobody raises one: safe. -/
inductive Fault where
deriving DecidableEq, Repr

/-- The reasons a step gives no next state. -/
inductive Refusal where
  /-- Raised by `exec` alone, for a command without a meaning. Safe: the model claims nothing of it. -/
  | notModelled (mnemonic : String)
  /-- Raised by `step` for a host access that gets AccessError: "A model should treat a host access
  that would get AccessError as refused: it gives the access no step" (20_memory.md R57). Safe: the
  hardware changes no state and goes on, the model claims nothing of what follows (log entry 3). -/
  | accessError (e : AccessError)
deriving DecidableEq, Repr

/-- The whole state: that of 10_state.md R20, and three fields of the model's own. -/
structure State where
  /-- W0..W3 (10_state.md R21). -/
  words : Vector WordReg Config.nw
  /-- C0..C3: `none` is built = 0 (10_state.md R25, R26). -/
  slots : Vector (Option Code) Config.nslot
  /-- FE: `none` is valid = 0 (10_state.md R28, R29). -/
  fe : Option Extractor
  /-- STATUS.LAST (10_state.md R34). -/
  last : BitVec 3
  /-- CINFO[7:0] (10_state.md R35). -/
  cinfo : BitVec 8
  /-- ESTICKY[5:1]: bit e of the register is bit e-1 here (10_state.md R36). -/
  esticky : BitVec 5
  /-- The model's own: the requests not yet served, oldest first (log entry 1). -/
  port : List BusRequest
  /-- The model's own: the bus's answer to the access served last (log entry 2). -/
  response : Option BusResponse
  /-- The model's own: how many random bits have been drawn (log entry 4). -/
  draws : Nat
deriving DecidableEq, Repr

/-- A word register after reset: LEN 0, every cell 0 (10_state.md R42). -/
def WordReg.reset : WordReg := { len := 0, cells := Vector.replicate Config.nmax 0 }

/-- The state after reset (10_state.md R42, 70_reset_and_hazards.md R280), with nothing pending. -/
def State.reset : State :=
  { words := Vector.replicate Config.nw WordReg.reset
    slots := Vector.replicate Config.nslot none
    fe := none
    last := 0
    cinfo := 0
    esticky := 0
    port := []
    response := none
    draws := 0 }

end Sys2Proof.Machine
end

