-- ==== Sys2Proof/Machine/Flags.lean ====
section
/-! DEFINITION. The reporting registers: the code and sub-code of every exception
(60_exceptions.md R250 to R256), what a command writes to STATUS.LAST, CINFO and ESTICKY
(10_state.md R37, 60_exceptions.md R261), and the host's clearing of ESTICKY (10_state.md R36). -/

namespace Sys2Proof.Machine

/-- The exception code STATUS.LAST shows (60_exceptions.md R250). -/
def Trap.code : Trap → Nat
  | .iiSlotEmpty | .iiLength | .iiSymbol | .iiFeInvalid | .iiNoHelper => 1
  | .ceSlotBuilt | .ceQ | .ceParam | .ceSize | .cePoly | .cePrim | .ceFeBind | .ceFeHelper
  | .ceOneshot => 2
  | .dfHamNomatch | .dfBchSingular | .dfBchRoots | .dfBchMagnitude | .dfBchResidual
  | .dfGolNomatch | .dfRmTie => 3
  | .niGolayTernary => 4
  | .icEncoding => 5

/-- The sub-code CINFO shows (60_exceptions.md R252 to R256). -/
def Trap.sub : Trap → Nat
  | .iiSlotEmpty => 1
  | .iiLength => 2
  | .iiSymbol => 3
  | .iiFeInvalid => 4
  | .iiNoHelper => 5
  | .ceSlotBuilt => 1
  | .ceQ => 2
  | .ceParam => 3
  | .ceSize => 4
  | .cePoly => 5
  | .cePrim => 6
  | .ceFeBind => 7
  | .ceFeHelper => 8
  | .ceOneshot => 9
  | .dfHamNomatch => 1
  | .dfBchSingular => 2
  | .dfBchRoots => 3
  | .dfBchMagnitude => 4
  | .dfBchResidual => 5
  | .dfGolNomatch => 6
  | .dfRmTie => 7
  | .niGolayTernary => 1
  | .icEncoding => 1

/-- ESTICKY[e] <- 1 for the exception code e = 1..5 (10_state.md R37). -/
def setSticky (sticky : BitVec 5) (e : Nat) : BitVec 5 := sticky ||| BitVec.twoPow 5 (e - 1)

/-- A host write of v to ESTICKY: every bit e in 1..5 with v[e] = 1 is cleared, the others stay, and
written bits outside 1..5 are ignored (10_state.md R36). -/
def clearSticky (sticky : BitVec 5) (v : RegVal) : BitVec 5 := sticky &&& ~~~(v.extractLsb' 1 5)

/-- The reporting registers after a command that succeeds (10_state.md R37). -/
def State.succeed (s : State) : State := { s with last := 0, cinfo := 0 }

end Sys2Proof.Machine
end

