-- ==== Sys2Proof/Machine/Ops.lean ====
section
/-! DEFINITION. The named operations over the registers: reading and writing a word register
(10_state.md R10, R21, R22), code slots (R25, R26), the extractor context (R28, R29), taking an
exception (60_exceptions.md R261), ending a command, and the platform's reset
(70_reset_and_hazards.md R280). -/

namespace Sys2Proof.Machine

/-- The word a register holds: cells 0 to LEN-1 (10_state.md R21). -/
def WordReg.word (r : WordReg) : Word := (r.cells.toList.take r.len.val).map BitVec.toNat

/-- The register after a result word v is written: LEN = len(v), the cells below it hold v, the cells
at and above it are 0 (10_state.md R22). A result longer than 256 does not occur (log entry 12). -/
def WordReg.ofWord (v : Word) : WordReg :=
  { len := Fin.ofNat (Config.nmax + 1) (min v.length Config.nmax)
    cells := Vector.ofFn fun j => BitVec.ofNat Config.symw (v.getD j.val 0) }

/-- `W[i]` read (00_scope.md R10). -/
def State.word (s : State) (i : WordIdx) : Word := (s.words[i.val]).word

/-- `W[i] <- v` (10_state.md R22). -/
def State.setWord (s : State) (i : WordIdx) (v : Word) : State :=
  { s with words := s.words.set i.val (WordReg.ofWord v) }

/-- `CS[c]`: `none` while built = 0 (10_state.md R25). -/
def State.slot (s : State) (c : SlotIdx) : Option Code := s.slots[c.val]

/-- `CS[c].built <- 1` with the other fields filled (10_state.md R26). -/
def State.build (s : State) (c : SlotIdx) (code : Code) : State :=
  { s with slots := s.slots.set c.val (some code) }

/-- The extractor context is (re)written whole (10_state.md R29). -/
def State.setExtractor (s : State) (fe : Extractor) : State := { s with fe := some fe }

/-- `n` further random bits have been drawn (46_fuzzy_extractor.md R229). -/
def State.advanceDraws (s : State) (n : Nat) : State := { s with draws := s.draws + n }

/-- Taking an exception, which here is the whole trap: LAST <- e, CINFO <- sub, ESTICKY[e] <- 1, and
nothing else (60_exceptions.md R261). No pc, mode or handler exists (R263), and there is no return to
perform (R264). -/
def State.takeException (s : State) (t : Trap) : State :=
  { s with
    last := BitVec.ofNat 3 t.code
    cinfo := BitVec.ofNat 8 t.sub
    esticky := setSticky s.esticky t.code }

/-- How a command ends (10_state.md R37, 60_exceptions.md R262): with the state its body gives and the
flags of success, or with the state before it and the exception taken. -/
def finish (s : State) (body : Except Trap State) : Host.Outcome State Fault Refusal :=
  match body with
  | .ok t => .next t.succeed
  | .error e => .next (s.takeException e)

/-- The platform's reset: every piece of the block's state as after reset (70_reset_and_hazards.md
R280). The requests still to come and the place in the random bits are not the block's state. -/
def State.resetBlock (s : State) : State :=
  { State.reset with port := s.port, draws := s.draws }

/-- A reset that arrives while the command `_data` executes: the command is abandoned and nothing of it
survives (70_reset_and_hazards.md R282), so the state is that of the reset alone, whatever the command.
How many random bits an abandoned FE.GEN had drawn is not stated; none counts as drawn (log entry 6). -/
def State.abandonCommand (s : State) (_data : RegVal) : State := s.resetBlock

end Sys2Proof.Machine
end

