-- ==== Sys2Proof/Machine/Operands.lean ====
section
/-! DEFINITION. The operand forms of the commands and their validation: a code slot, a source word
(41_linear_code.md R129), the bound extractor (46_fuzzy_extractor.md R229, R230). -/

namespace Sys2Proof.Machine

/-- Some symbol of the word is no element of GF(q). -/
def hasNonSymbol (q : Nat) (w : Word) : Bool := w.any fun x => decide (q ≤ x)

/-- `CheckOperand(w, L, q)`: the length test comes first (41_linear_code.md R129). -/
def checkOperand (w : Word) (L q : Nat) : Except Trap Word :=
  if w.length ≠ L then .error .iiLength
  else if hasNonSymbol q w then .error .iiSymbol
  else .ok w

/-- The code of the slot a data command names, or II_SLOT_EMPTY (41_linear_code.md R126 to R128). -/
def slotOperand (s : State) (cs : SlotIdx) : Except Trap Code :=
  match s.slot cs with
  | none => .error .iiSlotEmpty
  | some c => .ok c

/-- The extractor context and the code it is bound to, or II_FE_INVALID (46_fuzzy_extractor.md R229 to
R231). The slot of a constructed extractor is never empty (10_state.md R28; log entry 13). -/
def extractorOperand (s : State) : Except Trap (Extractor × Code) :=
  match s.fe with
  | none => .error .iiFeInvalid
  | some fe =>
    match s.slot fe.slot with
    | none => .error .iiFeInvalid
    | some c => .ok (fe, c)

/-- The helper data, or II_NO_HELPER (46_fuzzy_extractor.md R230, R231). -/
def helperOperand (fe : Extractor) : Except Trap Helper :=
  match fe.helper with
  | none => .error .iiNoHelper
  | some h => .ok h

end Sys2Proof.Machine
end

