-- ==== Sys2Proof/Machine/Bch.lean ====
section
/-! DEFINITION. The BCH family (43_bch.md): construction, encoder, the Peterson–Gorenstein–Zierler
decoder with Chien search and Forney evaluation, and the meaning of BCH.NEW. -/

namespace Sys2Proof.Machine

/-- The field of a BCH code: f = `bch_f` is stored with its leading 1, a = `bch_a`
(43_bch.md R156, 10_state.md R25). -/
def bchField (q n : Nat) (f a : List Symbol) : ExtField :=
  { q := q, n := n, f := f.dropLast, a := a }

/-- `RootExponents(q, n, c, d)`: the union over j = 0..d-2 of Cyc((c + j) mod n), ascending; `m` is the
extension degree (43_bch.md R158). -/
def rootExponents (q m n c d : Nat) : List Nat :=
  (List.range n).filter fun e =>
    (List.range (d - 1)).any fun j => (cyclotomicCoset q m n ((c + j) % n)).contains e

/-- The generator polynomial g as a polynomial word over GF(q), highest degree first
(43_bch.md R158, 00_scope.md R9). -/
def bchGenPoly (F : ExtField) (c d : Nat) : Word :=
  (basePoly (F.rootProduct (rootExponents F.q F.m F.n c d))).reverse

/-- `BchEncode(code, w)`: shift by x^(n-k), subtract the remainder modulo g; the word is w followed by
the negated remainder (43_bch.md R161). -/
def bchEncode (code : Code) (F : ExtField) (c : Nat) (w : Word) : Word :=
  let shifted := w ++ zeros (code.n - code.k)
  w ++ (polyRem code.q shifted (bchGenPoly F c code.d)).map (gfNeg code.q)

/-- The syndromes S_j = PolyEval(WordPoly(p), apow(c + j)), j = 0..d-2 (43_bch.md R163). -/
def bchSyndromes (F : ExtField) (c d : Nat) (p : Word) : List Elem :=
  (List.range (d - 1)).map fun j => F.polyEval (F.wordPoly p) (F.apow ((c + j : Nat) : Int))

/-- Every syndrome is zero (43_bch.md R164). -/
def allZero (F : ExtField) (S : List Elem) : Bool := S.all fun e => e == F.zero

/-- M_v with M_v[i][j] = S_{i+j} (43_bch.md R165). -/
def hankel (F : ExtField) (S : List Elem) (v : Nat) : List (List Elem) :=
  (List.range v).map fun i => (List.range v).map fun j => S.getD (i + j) F.zero

/-- b with b[i] = -S_{i+v} (43_bch.md R166). -/
def hankelRhs (F : ExtField) (S : List Elem) (v : Nat) : List Elem :=
  (List.range v).map fun i => F.neg (S.getD (i + v) F.zero)

/-- The error-count back-off from v down to 1 and, at the first nonsingular M_v, the error locator
Lambda_0 = one, Lambda_{v-j} = y[j]; `none` when v reaches 0 (43_bch.md R165, R166). The locator has
v + 1 coefficients. -/
def errorLocator (F : ExtField) (S : List Elem) : Nat → Option Poly
  | 0 => none
  | v + 1 =>
    match F.solve (hankel F S (v + 1)) (hankelRhs F S (v + 1)) with
    | some y => some (F.one :: y.reverse)
    | none => errorLocator F S v

/-- The Chien search: all i in 0..n-1 with Lambda(apow(i)) = 0, ascending (43_bch.md R167). -/
def chienRoots (F : ExtField) (locator : Poly) : List Nat :=
  (List.range F.n).filter fun i => F.polyEval locator (F.apow i) == F.zero

/-- e = (n - i) mod n, the error's polynomial exponent (43_bch.md R168). -/
def errorExponent (n i : Nat) : Nat := (n - i) % n

/-- pos = n - 1 - e, the error's word index (43_bch.md R168). -/
def errorPosition (n i : Nat) : Nat := n - 1 - errorExponent n i

/-- Omega = Trunc(PolyMul(Ssum, Lambda), d - 1) (43_bch.md R170). -/
def evaluator (F : ExtField) (S : List Elem) (locator : Poly) (d : Nat) : Poly :=
  trunc (F.polyMul S locator) (d - 1)

/-- Forney's value Yf at the root i (43_bch.md R170). -/
def forneyValue (F : ExtField) (c i : Nat) (locator omega : Poly) : Elem :=
  F.neg (F.div
    (F.mul (F.apow ((errorExponent F.n i : Int) * (1 - (c : Int)))) (F.polyEval omega (F.apow i)))
    (F.polyEval (F.deriv locator) (F.apow i)))

/-- The error value Y at the root i: 1 for q = 2, else base(Yf) when it lies in GF(q)
(43_bch.md R170). -/
def errorValue (F : ExtField) (c i : Nat) (locator omega : Poly) : Except Trap Symbol :=
  if F.q = 2 then .ok 1
  else if inBase (forneyValue F c i locator omega) then
    .ok (base (forneyValue F c i locator omega))
  else .error .dfBchMagnitude

/-- out[pos] <- out[pos] - Y for each root in order (43_bch.md R170, R172). -/
def correctRoots (F : ExtField) (c : Nat) (locator omega : Poly) :
    List Nat → Word → Except Trap Word
  | [], out => .ok out
  | i :: roots, out =>
    match errorValue F c i locator omega with
    | .error t => .error t
    | .ok y =>
      correctRoots F c locator omega roots
        (out.modify (errorPosition F.n i) fun x => gfSub F.q x y)

/-- `BchDecode(code, p)` (43_bch.md R172). -/
def bchDecode (F : ExtField) (c d : Nat) (p : Word) : Except Trap Word :=
  let S := bchSyndromes F c d p
  if allZero F S then .ok p
  else
    match errorLocator F S ((d - 1) / 2) with
    | none => .error .dfBchSingular
    | some locator =>
      let roots := chienRoots F locator
      if roots.length ≠ locator.length - 1 then .error .dfBchRoots
      else
        match correctRoots F c locator (evaluator F S locator d) roots p with
        | .error t => .error t
        | .ok out =>
          if allZero F (bchSyndromes F c d out) then .ok out else .error .dfBchResidual

/-- W0 is no monic polynomial word of degree at least 1 over GF(q) (43_bch.md R155). -/
def badPolyWord (q : Nat) (fw : Word) : Bool :=
  decide (fw.length < 2) || hasNonSymbol q fw || fw.headD 0 != 1

/-- The body of BCH.NEW: f from W0 and a from W1, both highest degree first (43_bch.md R155). -/
def buildBch (cs : SlotIdx) (q d c : Nat) (s : State) : Except Trap State :=
  if (s.slot cs).isSome then .error .ceSlotBuilt
  else if ¬ isPrime q then .error .ceQ
  else if d < 1 then .error .ceParam
  else
    let fw := s.word 0
    let aw := s.word 1
    if badPolyWord q fw then .error .cePoly
    else
      let m := fw.length - 1
      let n := q ^ m - 1
      if n > Config.nmax then .error .ceSize
      else if aw.length ≠ m ∨ hasNonSymbol q aw then .error .cePrim
      else if ¬ (bchField q n fw.reverse aw.reverse).isPrimitive then .error .cePrim
      else
        let k := n - (rootExponents q m n c d).length
        if k < 1 then .error .ceSize
        else .ok (s.build cs
          { q := q, n := n, k := k, d := d, kind := .bch m c fw.reverse aw.reverse })

/-- BCH.NEW (43_bch.md R155). -/
def execBchNew (cs : SlotIdx) (q d c : Nat) (s : State) : Host.Outcome State Fault Refusal :=
  finish s (buildBch cs q d c s)

end Sys2Proof.Machine
end

