-- ==== Sys2Proof/Machine/Matrix.lean ====
section
/-! DEFINITION. The LinearCode contract: generator and parity-check matrices and the matrix encoder
(41_linear_code.md R121 to R123). -/

namespace Sys2Proof.Machine

/-- `genMat(H)` = [I_k | -P^T] for H = [P | I_{n-k}] (41_linear_code.md R121). -/
def genMat (q k : Nat) (H : Matrix) : Matrix := hconcat (identity k) (matNeg q (transpose k H))

/-- `checkMat(G)` = [-Q^T | I_{n-k}] for G = [I_k | Q] (41_linear_code.md R122). No command needs it. -/
def checkMat (q n k : Nat) (G : Matrix) : Matrix :=
  hconcat (matNeg q (transpose (n - k) (G.map (List.drop k)))) (identity (n - k))

/-- `linEncode(G, w)` = w * G for a matrix of n columns (41_linear_code.md R123). -/
def linEncode (q n : Nat) (G : Matrix) (w : Word) : Word := vecMat q n w G

end Sys2Proof.Machine
end

