-- ==== Sys2Proof/Machine/Golay.lean ====
section
/-! DEFINITION. The Golay family (44_golay.md): construction, encoder, coset decoder, and the meaning
of GOL.NEW. The codec takes the configuration as an argument, so that a claim can be stated for other
matrices A24 and A12 (92_eei_decisions.md D24); the commands use the block's. -/

namespace Sys2Proof.Machine

/-- (q, k, d) of the four instances (44_golay.md R186). -/
def golParams (n : Nat) : Option (Nat × Nat × Nat) :=
  if n = 24 then some (2, 12, 8)
  else if n = 23 then some (2, 12, 7)
  else if n = 12 then some (3, 6, 6)
  else if n = 11 then some (3, 6, 5)
  else none

/-- The non-identity half of the order-n generator (44_golay.md R189): A24, A24 without column 11, A12,
A12 without column 5. -/
def golHalf (P : Config.Parameters) (n : Nat) : Matrix :=
  if n = 24 then P.a24
  else if n = 23 then P.a24.map (List.take 11)
  else if n = 12 then P.a12
  else P.a12.map (List.take 5)

/-- G = [I_k | A] (44_golay.md R189). -/
def golGen (P : Config.Parameters) (n k : Nat) : Matrix := hconcat (identity k) (golHalf P n)

/-- `GolEncode(code, w)` = w * G (44_golay.md R190). -/
def golEncode (P : Config.Parameters) (c : Code) (w : Word) : Word :=
  linEncode c.q c.n (golGen P c.n c.k) w

/-- Row a_j of A24 (44_golay.md R187). -/
def a24Row (P : Config.Parameters) (j : Nat) : Word := P.a24.getD j []

/-- The least j in 0..11 with wt(S + a_j) <= 2 (44_golay.md R191). -/
def golRowScan (P : Config.Parameters) (S : Word) : Option Nat :=
  (List.range 12).find? fun j => decide (wt (wAdd 2 S (a24Row P j)) ≤ 2)

/-- The error pattern of the four branches for a syndrome S (44_golay.md R191). -/
def golErrorPattern (P : Config.Parameters) (S : Word) : Except Trap Word :=
  if wt S ≤ 3 then .ok (S ++ zeros 12)
  else
    match golRowScan P S with
    | some j => .ok (wAdd 2 S (a24Row P j) ++ unit 12 j)
    | none =>
      let SA := vecMat 2 12 S (transpose 12 P.a24)
      if wt SA ≤ 3 then .ok (zeros 12 ++ SA)
      else
        match golRowScan P SA with
        | some j => .ok (unit 12 j ++ wAdd 2 SA (a24Row P j))
        | none => .error .dfGolNomatch

/-- S = w * G^T (44_golay.md R191). -/
def golSyndrome (P : Config.Parameters) (w : Word) : Word := matVec 2 (golGen P 24 12) w

/-- `GolDecode24(w)` (44_golay.md R191). -/
def golDecode24 (P : Config.Parameters) (w : Word) : Except Trap Word :=
  match golErrorPattern P (golSyndrome P w) with
  | .error t => .error t
  | .ok e => .ok (wAdd 2 w e)

/-- The appended bit: the complement of the even-parity bit (44_golay.md R192, 90_conflicts.md C4). -/
def golParityBit (w : Word) : Symbol := (1 + w.sum) % 2

/-- `GolDecode23(w)`: extend, decode, drop the last symbol (44_golay.md R192). -/
def golDecode23 (P : Config.Parameters) (w : Word) : Except Trap Word :=
  match golDecode24 P (w ++ [golParityBit w]) with
  | .error t => .error t
  | .ok c => .ok (c.take 23)

/-- The decoder of the order: 24, 23, and none for 12 and 11 (41_linear_code.md R125, 44_golay.md
R193, 90_conflicts.md C5). -/
def golDecode (P : Config.Parameters) (c : Code) (w : Word) : Except Trap Word :=
  if c.n = 24 then golDecode24 P w
  else if c.n = 23 then golDecode23 P w
  else .error .niGolayTernary

/-- The body of GOL.NEW (44_golay.md R185). -/
def buildGolay (cs : SlotIdx) (n : Nat) (s : State) : Except Trap State :=
  if (s.slot cs).isSome then .error .ceSlotBuilt
  else
    match golParams n with
    | none => .error .ceParam
    | some (q, k, d) => .ok (s.build cs { q := q, n := n, k := k, d := d, kind := .gol })

/-- GOL.NEW (44_golay.md R185). -/
def execGolNew (cs : SlotIdx) (n : Nat) (s : State) : Host.Outcome State Fault Refusal :=
  finish s (buildGolay cs n s)

end Sys2Proof.Machine
end

