-- ==== Sys2Proof/Machine/Hamming.lean ====
section
/-! DEFINITION. The Hamming family (42_hamming.md): construction, encoder, syndrome decoder, and the
meaning of HAM.NEW. -/

namespace Sys2Proof.Machine

/-- The kept tuples: the nonzero tuples whose first nonzero component is 1, in enumeration order
(42_hamming.md R141, its closed form; log entry 10). -/
def hamKept (q r : Nat) : List Word :=
  (tuples q r).filter fun u => u.find? (fun x => x != 0) == some 1

/-- One pass of R141's own procedure: skip the zero tuple and every scalar multiple of an
already-kept one, append the others. No command runs it: that it keeps `hamKept` is a statement. -/
def keepByScan (q : Nat) : List Word → List Word → List Word
  | kept, [] => kept
  | kept, u :: us =>
    if wt u = 0 || kept.any fun v => (List.range' 1 (q - 1)).any fun b => u == wScale q b v then
      keepByScan q kept us
    else keepByScan q (kept ++ [u]) us

/-- The columns T_0, ..., T_{n-1} of H: the kept tuples in ascending order of weight, lexicographic
within a weight (the enumeration order), reversed (42_hamming.md R142; log entry 10). -/
def hamColumns (q r : Nat) : List Word :=
  ((List.range (r + 1)).flatMap fun w => (hamKept q r).filter fun u => wt u == w).reverse

/-- H, whose column j is T_j with component i in row i (42_hamming.md R142). -/
def hamCheck (q r : Nat) : Matrix := transpose r (hamColumns q r)

/-- n = (q^r - 1) div (q - 1), an exact integer (42_hamming.md R140). -/
def hamLength (q r : Nat) : Nat := (q ^ r - 1) / (q - 1)

/-- G = genMat(H) (42_hamming.md R144). -/
def hamGen (c : Code) (r : Nat) : Matrix := genMat c.q c.k (hamCheck c.q r)

/-- `HamEncode(code, w)` = w * G (42_hamming.md R145). -/
def hamEncode (c : Code) (r : Nat) (w : Word) : Word := linEncode c.q c.n (hamGen c r) w

/-- The sequential scan: the least column index, and with it the least b in 1..q-1, with
S = b * col(H, i); `i` is the index of the first column given (42_hamming.md R146). -/
def hamScan (q : Nat) (S : Word) : Nat → List Word → Option (Nat × Nat)
  | _, [] => none
  | i, col :: cols =>
    match (List.range' 1 (q - 1)).find? fun b => wScale q b col == S with
    | some b => some (i, b)
    | none => hamScan q S (i + 1) cols

/-- S = H * w^T (42_hamming.md R146). -/
def hamSyndrome (c : Code) (r : Nat) (w : Word) : Word := matVec c.q (hamCheck c.q r) w

/-- `HamDecode(code, w)` (42_hamming.md R146). -/
def hamDecode (c : Code) (r : Nat) (w : Word) : Except Trap Word :=
  if hamSyndrome c r w = zeros r then .ok w
  else
    match hamScan c.q (hamSyndrome c r w) 0 (hamColumns c.q r) with
    | some (i, b) => .ok (wSub c.q w (wScale c.q b (unit c.n i)))
    | none => .error .dfHamNomatch

/-- The body of HAM.NEW (42_hamming.md R140). -/
def buildHamming (cs : SlotIdx) (r q : Nat) (s : State) : Except Trap State :=
  if (s.slot cs).isSome then .error .ceSlotBuilt
  else if ¬ isPrime q then .error .ceQ
  else if r < 2 then .error .ceParam
  else if hamLength q r > Config.nmax then .error .ceSize
  else .ok (s.build cs
    { q := q, n := hamLength q r, k := hamLength q r - r, d := 3, kind := .ham r })

/-- HAM.NEW (42_hamming.md R140). -/
def execHamNew (cs : SlotIdx) (r q : Nat) (s : State) : Host.Outcome State Fault Refusal :=
  finish s (buildHamming cs r q s)

end Sys2Proof.Machine
end

