-- ==== Sys2Proof/Machine/ReedMuller.lean ====
section
/-! DEFINITION. The Reed–Muller family (45_reed_muller.md): construction, encoder, majority-logic
decoder, and the meaning of RM.NEW. The code is binary. -/

namespace Sys2Proof.Machine

/-- Bit i of a column index, bit 0 the least significant (45_reed_muller.md R206). -/
def colBit (col i : Nat) : Nat := col / 2 ^ i % 2

/-- The indicator v_i of length 2^m: 1 where bit i of the column index is 0 (45_reed_muller.md R206). -/
def rmIndicator (m i : Nat) : Word :=
  (List.range (2 ^ m)).map fun col => if colBit col i = 0 then 1 else 0

/-- The g-element subsets of a rising list as rising lists, in lexicographic order
(45_reed_muller.md R207). -/
def subsets : List Nat → Nat → List (List Nat)
  | _, 0 => [[]]
  | [], _ + 1 => []
  | x :: xs, g + 1 => (subsets xs g).map (fun T => x :: T) ++ subsets xs (g + 1)

/-- The variable sets of the rows of degree g, in list order (45_reed_muller.md R207). -/
def rmDegreeSets (m g : Nat) : List (List Nat) := subsets (List.range m) g

/-- `rowset`: the variable sets of all rows, by ascending degree (45_reed_muller.md R207). -/
def rmRowSets (r m : Nat) : List (List Nat) := (List.range (r + 1)).flatMap (rmDegreeSets m)

/-- `bound(g)` = C(m,0) + ... + C(m,g-1) (45_reed_muller.md R208). -/
def rmBound (m g : Nat) : Nat := ((List.range g).map (Nat.choose m)).sum

/-- `row_T`: 1 exactly when every bit i in T of the column is 0 (45_reed_muller.md R207). -/
def rmRow (m : Nat) (T : List Nat) : Word :=
  (List.range (2 ^ m)).map fun col => if T.all fun i => colBit col i == 0 then 1 else 0

/-- The generator matrix (45_reed_muller.md R209). -/
def rmGen (r m : Nat) : Matrix := (rmRowSets r m).map (rmRow m)

/-- `RmEncode(code, w)` = w * G (45_reed_muller.md R209). -/
def rmEncode (r m : Nat) (w : Word) : Word := linEncode 2 (2 ^ m) (rmGen r m) w

/-- U = {0..m-1} minus T (45_reed_muller.md R210). -/
def rmComplement (m : Nat) (T : List Nat) : List Nat := (List.range m).filter fun i => !T.contains i

/-- `V(T, b)`: 1 exactly when bit i of the column equals b(i) for every i in U; `b` lists the bits in
the order of U (45_reed_muller.md R210). -/
def votingRow (m : Nat) (U : List Nat) (b : List Nat) : Word :=
  (List.range (2 ^ m)).map fun col =>
    if (U.zip b).all fun ib => colBit col ib.1 == ib.2 then 1 else 0

/-- The values dot(y, V(T, b)) over all assignments b (45_reed_muller.md R211). -/
def rmVotes (m : Nat) (y : Word) (T : List Nat) : List Nat :=
  (tuples 2 (rmComplement m T).length).map fun b => dot 2 y (votingRow m (rmComplement m T) b)

/-- The decided bit of a row, or DF_RM_TIE (45_reed_muller.md R211). -/
def rmDecide (m : Nat) (y : Word) (T : List Nat) : Except Trap Symbol :=
  let votes := rmVotes m y T
  let ones := votes.countP fun v => v == 1
  let zeroes := votes.countP fun v => v == 0
  if ones > zeroes then .ok 1
  else if ones < zeroes then .ok 0
  else .error .dfRmTie

/-- The decided bits of a list of rows, all from the same working word (45_reed_muller.md R212). -/
def rmDecideAll (m : Nat) (y : Word) : List (List Nat) → Except Trap Word
  | [] => .ok []
  | T :: Ts =>
    match rmDecide m y T with
    | .error t => .error t
    | .ok b =>
      match rmDecideAll m y Ts with
      | .error t => .error t
      | .ok bs => .ok (b :: bs)

/-- The sum of the generator rows of degree g whose bit is 1 (45_reed_muller.md R212). -/
def rmContribution (m g : Nat) (bits : Word) : Word :=
  vecMat 2 (2 ^ m) bits ((rmDegreeSets m g).map (rmRow m))

/-- The message bits of the degrees below g from the working word y, in row order: decide the highest
degree, subtract its contribution, descend (45_reed_muller.md R212). -/
def rmVote (m : Nat) : Nat → Word → Except Trap Word
  | 0, _ => .ok []
  | g + 1, y =>
    match rmDecideAll m y (rmDegreeSets m g) with
    | .error t => .error t
    | .ok bits =>
      match rmVote m g (wAdd 2 y (rmContribution m g bits)) with
      | .error t => .error t
      | .ok lower => .ok (lower ++ bits)

/-- `RmDecode(code, w)`: the codeword msg * G and the message (45_reed_muller.md R212, R213). -/
def rmDecode (r m : Nat) (w : Word) : Except Trap (Word × Word) :=
  match rmVote m (r + 1) w with
  | .error t => .error t
  | .ok msg => .ok (rmEncode r m msg, msg)

/-- The body of RM.NEW (45_reed_muller.md R205). -/
def buildReedMuller (cs : SlotIdx) (r m : Nat) (s : State) : Except Trap State :=
  if (s.slot cs).isSome then .error .ceSlotBuilt
  else if r > m then .error .ceParam
  else if m > 8 then .error .ceSize
  else .ok (s.build cs
    { q := 2, n := 2 ^ m, k := rmBound m (r + 1), d := 2 ^ (m - r), kind := .rm r m })

/-- RM.NEW (45_reed_muller.md R205). -/
def execRmNew (cs : SlotIdx) (r m : Nat) (s : State) : Host.Outcome State Fault Refusal :=
  finish s (buildReedMuller cs r m s)

end Sys2Proof.Machine
end

