-- ==== Sys2Proof/Machine/Linear.lean ====
section
/-! DEFINITION. Encode and Decode of a built slot (41_linear_code.md R124, R125) and the meanings of
ENC, DEC and DECM (R126 to R128). -/

namespace Sys2Proof.Machine

/-- `Encode(s, w)` for the code of the slot (41_linear_code.md R124). It never raises. -/
def encodeWord (c : Code) (w : Word) : Word :=
  match c.kind with
  | .ham r => hamEncode c r w
  | .bch _ off f a => bchEncode c (bchField c.q c.n f a) off w
  | .gol => golEncode Config.params c w
  | .rm r m => rmEncode r m w

/-- The message of a codeword of a systematic code: its first k symbols (41_linear_code.md R125). -/
def withMessage (k : Nat) (decoded : Except Trap Word) : Except Trap (Word × Word) :=
  match decoded with
  | .error t => .error t
  | .ok c => .ok (c, c.take k)

/-- `Decode(s, w)`: the corrected codeword and the message (41_linear_code.md R125, 90_conflicts.md
C1). -/
def decodeWord (c : Code) (w : Word) : Except Trap (Word × Word) :=
  match c.kind with
  | .ham r => withMessage c.k (hamDecode c r w)
  | .bch _ off f a => withMessage c.k (bchDecode (bchField c.q c.n f a) off c.d w)
  | .gol => withMessage c.k (golDecode Config.params c w)
  | .rm r m => rmDecode r m w

/-- The body of ENC (41_linear_code.md R126). -/
def encodeCommand (wd ws : WordIdx) (cs : SlotIdx) (s : State) : Except Trap State :=
  match slotOperand s cs with
  | .error t => .error t
  | .ok c =>
    match checkOperand (s.word ws) c.k c.q with
    | .error t => .error t
    | .ok w => .ok (s.setWord wd (encodeWord c w))

/-- What DEC and DECM share: the checks and the one Decode (41_linear_code.md R127, R128). -/
def decodeOperand (ws : WordIdx) (cs : SlotIdx) (s : State) : Except Trap (Word × Word) :=
  match slotOperand s cs with
  | .error t => .error t
  | .ok c =>
    match checkOperand (s.word ws) c.n c.q with
    | .error t => .error t
    | .ok w => decodeWord c w

/-- ENC (41_linear_code.md R126). -/
def execEnc (wd ws : WordIdx) (cs : SlotIdx) (s : State) : Host.Outcome State Fault Refusal :=
  finish s (encodeCommand wd ws cs s)

/-- DEC: the codeword is delivered (41_linear_code.md R127). -/
def execDec (wd ws : WordIdx) (cs : SlotIdx) (s : State) : Host.Outcome State Fault Refusal :=
  finish s ((decodeOperand ws cs s).map fun result => s.setWord wd result.1)

/-- DECM: the message is delivered (41_linear_code.md R128). -/
def execDecm (wd ws : WordIdx) (cs : SlotIdx) (s : State) : Host.Outcome State Fault Refusal :=
  finish s ((decodeOperand ws cs s).map fun result => s.setWord wd result.2)

end Sys2Proof.Machine
end

