-- ==== Sys2Proof/Machine/Extractor.lean ====
section
/-! DEFINITION. The fuzzy extractor (46_fuzzy_extractor.md): the strong extractor over the hash port,
the random draws, and the meanings of FE.NEW, FE.GEN, FE.REP and FE.HDRD. -/

namespace Sys2Proof.Machine

/-- What the block sends to the hash port: one byte per symbol, ascending (46_fuzzy_extractor.md
R233). -/
def hashBytes (v : Word) : List (BitVec 8) := v.map (BitVec.ofNat 8)

/-- Bit i of a digest of 32 bytes: byte 0 first, the most significant bit of each byte first
(46_fuzzy_extractor.md R233). -/
def digestBit (dg : Vector (BitVec 8) (Config.digestBits / 8)) (i : Nat) : Symbol :=
  (dg.toList.getD (i / 8) 0).toNat / 2 ^ (7 - i % 8) % 2

/-- The digest expanded bit by bit into a word of DIGEST_BITS symbols (46_fuzzy_extractor.md R232). -/
def expandDigest (dg : Vector (BitVec 8) (Config.digestBits / 8)) : Word :=
  (List.range Config.digestBits).map (digestBit dg)

/-- `StrongExtract(v)` (46_fuzzy_extractor.md R232, R233). -/
def strongExtract (v : Word) : Word := expandDigest (Config.params.digest (hashBytes v))

/-- `n` calls of RandBit() from the `start`-th draw on, in order (00_scope.md R11,
46_fuzzy_extractor.md R229). -/
def drawBits (start n : Nat) : Word :=
  (List.range n).map fun i => (Config.params.randBit (start + i)).toNat

/-- The helper data of a reading w, a pad x and a random message u: s = Encode(u) + w
(46_fuzzy_extractor.md R229, sums in GF(2) by R227). -/
def enrolHelper (c : Code) (w x u : Word) : Helper := { s := wAdd 2 (encodeWord c u) w, x := x }

/-- What Rep hashes for a noisy reading v: rd = v + s, decode, re-encode, w2 = s + r, x + w2
(46_fuzzy_extractor.md R230). -/
def reproduceInput (c : Code) (h : Helper) (v : Word) : Except Trap Word :=
  match decodeWord c (wAdd 2 v h.s) with
  | .error t => .error t
  | .ok (_, msg) => .ok (wAdd 2 h.x (wAdd 2 h.s (encodeWord c msg)))

/-- The binding conditions of FE.NEW fail: not binary, or the bit counts do not fit
(46_fuzzy_extractor.md R226, R228). -/
def badBinding (c : Code) (mb pb : Nat) : Bool :=
  c.q != 2 || mb != c.k || mb + pb != c.n

/-- A supplied helper word is no binary word of length n (46_fuzzy_extractor.md R226). -/
def badHelperWord (n : Nat) (w : Word) : Bool := w.length != n || hasNonSymbol 2 w

/-- The body of FE.NEW (46_fuzzy_extractor.md R226). -/
def bindExtractor (cs : SlotIdx) (mb pb : Nat) (h : Bool) (s : State) : Except Trap State :=
  if s.fe.isSome then .error .ceSlotBuilt
  else
    match s.slot cs with
    | none => .error .ceFeBind
    | some c =>
      if badBinding c mb pb then .error .ceFeBind
      else if h then
        if badHelperWord c.n (s.word 0) || badHelperWord c.n (s.word 1) then .error .ceFeHelper
        else .ok (s.setExtractor
          { slot := cs, mbits := mb, pbits := pb, helper := some { s := s.word 0, x := s.word 1 } })
      else .ok (s.setExtractor { slot := cs, mbits := mb, pbits := pb, helper := none })

/-- The body of FE.GEN once every check has passed: x and u are drawn, the latch is set and the key is
written in one step (46_fuzzy_extractor.md R229, 20_memory.md R61). -/
def enrol (wd : WordIdx) (fe : Extractor) (c : Code) (w : Word) (s : State) : State :=
  let x := drawBits s.draws c.n
  let u := drawBits (s.draws + c.n) c.k
  ((s.advanceDraws (c.n + c.k)).setExtractor { fe with helper := some (enrolHelper c w x u) }).setWord
    wd (strongExtract (wAdd 2 w x))

/-- The body of FE.GEN (46_fuzzy_extractor.md R229). -/
def generateHelper (wd ws : WordIdx) (s : State) : Except Trap State :=
  match extractorOperand s with
  | .error t => .error t
  | .ok (fe, c) =>
    if fe.helper.isSome then .error .ceOneshot
    else
      match checkOperand (s.word ws) c.n 2 with
      | .error t => .error t
      | .ok w => .ok (enrol wd fe c w s)

/-- The body of FE.REP (46_fuzzy_extractor.md R230). -/
def reproduce (wd ws : WordIdx) (s : State) : Except Trap State :=
  match extractorOperand s with
  | .error t => .error t
  | .ok (fe, c) =>
    match helperOperand fe with
    | .error t => .error t
    | .ok h =>
      match checkOperand (s.word ws) c.n 2 with
      | .error t => .error t
      | .ok v =>
        match reproduceInput c h v with
        | .error t => .error t
        | .ok key => .ok (s.setWord wd (strongExtract key))

/-- The half of the helper data that `sel` names (46_fuzzy_extractor.md R231). -/
def helperHalf (h : Helper) : HelperHalf → Word
  | .s => h.s
  | .x => h.x

/-- The body of FE.HDRD (46_fuzzy_extractor.md R231). -/
def readHelper (wd : WordIdx) (sel : HelperHalf) (s : State) : Except Trap State :=
  match s.fe with
  | none => .error .iiFeInvalid
  | some fe =>
    match helperOperand fe with
    | .error t => .error t
    | .ok h => .ok (s.setWord wd (helperHalf h sel))

/-- FE.NEW (46_fuzzy_extractor.md R226). -/
def execFeNew (cs : SlotIdx) (mb pb : Nat) (h : Bool) (s : State) :
    Host.Outcome State Fault Refusal := finish s (bindExtractor cs mb pb h s)

/-- FE.GEN (46_fuzzy_extractor.md R229). -/
def execFeGen (wd ws : WordIdx) (s : State) : Host.Outcome State Fault Refusal :=
  finish s (generateHelper wd ws s)

/-- FE.REP (46_fuzzy_extractor.md R230). -/
def execFeRep (wd ws : WordIdx) (s : State) : Host.Outcome State Fault Refusal :=
  finish s (reproduce wd ws s)

/-- FE.HDRD (46_fuzzy_extractor.md R231). -/
def execFeHdrd (wd : WordIdx) (sel : HelperHalf) (s : State) : Host.Outcome State Fault Refusal :=
  finish s (readHelper wd sel s)

end Sys2Proof.Machine
end

