-- ==== Sys2Proof/Machine/Dispatch.lean ====
section
/-! DEFINITION. One command on a state: one arm per constructor of Instr (30_encoding.md R77). -/

namespace Sys2Proof.Machine

def exec (i : Instr) (s : State) : Host.Outcome State Fault Refusal :=
  match i with
  | .hamNew cs r q => Sys2Proof.Machine.execHamNew cs r q s
  | .bchNew cs q d c => Sys2Proof.Machine.execBchNew cs q d c s
  | .golNew cs n => Sys2Proof.Machine.execGolNew cs n s
  | .rmNew cs r m => Sys2Proof.Machine.execRmNew cs r m s
  | .enc wd ws cs => Sys2Proof.Machine.execEnc wd ws cs s
  | .dec wd ws cs => Sys2Proof.Machine.execDec wd ws cs s
  | .decm wd ws cs => Sys2Proof.Machine.execDecm wd ws cs s
  | .feNew cs mb pb h => Sys2Proof.Machine.execFeNew cs mb pb h s
  | .feGen wd ws => Sys2Proof.Machine.execFeGen wd ws s
  | .feRep wd ws => Sys2Proof.Machine.execFeRep wd ws s
  | .feHdrd wd sel => Sys2Proof.Machine.execFeHdrd wd sel s

end Sys2Proof.Machine
end

