-- ==== Sys2Proof/Machine/Window.lean ====
section
/-! DEFINITION. The register window (20_memory.md): the address map (R51), which accesses are admitted
(R54), what each register reads as (10_state.md R31 to R40) and what a write to it does (20_memory.md
R56). -/

namespace Sys2Proof.Machine

/-- The registers of the address map (20_memory.md R51). -/
inductive WindowReg where
  | id
  | cmd
  | status
  | cinfo
  | esticky
  | feinfo
  | params
  | info (slot : SlotIdx) (which : Fin 3)
  | cell (reg : WordIdx) (index : Fin Config.nmax)
  | len (reg : WordIdx)
deriving DecidableEq, Repr

/-- The register at an offset inside the word register windows, base 0x1000, one window of 0x800 per
register: cells from +0, LEN at +0x400 (10_state.md R40). -/
def wordWindowReg (a : Nat) : Option WindowReg :=
  let reg := Fin.ofNat Config.nw ((a - 0x1000) / 0x800)
  let inside := (a - 0x1000) % 0x800
  if inside < 4 * Config.nmax then some (.cell reg (Fin.ofNat Config.nmax (inside / 4)))
  else if inside = 0x400 then some (.len reg)
  else none

/-- The register at an offset inside the CSs_INFO block, base 0x40, 0x10 per slot; + 0xC is unmapped
(10_state.md R39). -/
def infoBlockReg (a : Nat) : Option WindowReg :=
  let slot := Fin.ofNat Config.nslot ((a - 0x40) / 0x10)
  if a % 0x10 / 4 < 3 then some (.info slot (Fin.ofNat 3 (a % 0x10 / 4))) else none

/-- The address map (20_memory.md R51): the register at a multiple of 4, `none` where unmapped. -/
def registerAt (off : Offset) : Option WindowReg :=
  match off.toNat with
  | 0x0000 => some .id
  | 0x0004 => some .cmd
  | 0x0008 => some .status
  | 0x000C => some .cinfo
  | 0x0010 => some .esticky
  | 0x0014 => some .feinfo
  | 0x0018 => some .params
  | a =>
    if 0x40 ≤ a ∧ a < 0x40 + 0x10 * Config.nslot then infoBlockReg a
    else if 0x1000 ≤ a ∧ a < 0x1000 + 0x800 * Config.nw then wordWindowReg a
    else none

/-- The register an access reaches, or why it is not admitted (20_memory.md R54, R55, R56). -/
def accessTarget (off : Offset) (width : AccessWidth) : Except AccessError WindowReg :=
  if width ≠ .bits32 then .error .width
  else if off.toNat % 4 ≠ 0 then .error .alignment
  else
    match registerAt off with
    | none => .error .unmapped
    | some r => .ok r

/-- A field of `width` bits placed at bit `lo` of a register, the rest 0 (10_state.md R30). -/
def placeField (width lo v : Nat) : Nat := v % 2 ^ width * 2 ^ lo

/-- The BUILT bits of STATUS, bit s of the number being `CS[s].built` (10_state.md R34). -/
def builtBits (s : State) : Nat :=
  (s.slot 0).isSome.toNat + (s.slot 1).isSome.toNat * 2 + (s.slot 2).isSome.toNat * 4
    + (s.slot 3).isSome.toNat * 8

/-- PARAMS: NMAX, NW, NSLOT and QMAX of the configuration, 0xFB440100 (10_state.md R32). -/
def paramsReg : RegVal :=
  BitVec.ofNat Config.xlen (placeField 16 0 Config.nmax + placeField 4 16 Config.nw
    + placeField 4 20 Config.nslot + placeField 8 24 Config.qmax)

/-- `FE.hd_set` (10_state.md R28). -/
def State.helperSet (s : State) : Bool :=
  match s.fe with
  | none => false
  | some fe => fe.helper.isSome

/-- STATUS (10_state.md R34). -/
def statusReg (s : State) : RegVal :=
  BitVec.ofNat Config.xlen (placeField 3 0 s.last.toNat + placeField 4 4 (builtBits s)
    + placeField 1 8 s.fe.isSome.toNat + placeField 1 9 s.helperSet.toNat)

/-- CINFO (10_state.md R35). -/
def cinfoReg (s : State) : RegVal := s.cinfo.setWidth Config.xlen

/-- ESTICKY (10_state.md R36). -/
def estickyReg (s : State) : RegVal := s.esticky.setWidth Config.xlen <<< 1

/-- FEINFO: all fields 0 while FE.valid = 0 (10_state.md R38). -/
def feinfoReg (s : State) : RegVal :=
  match s.fe with
  | none => 0
  | some fe =>
    BitVec.ofNat Config.xlen (1 + placeField 1 1 fe.helper.isSome.toNat + placeField 2 2 fe.slot.val
      + placeField 10 4 fe.mbits + placeField 10 14 fe.pbits)

/-- The family number of INFO0 (10_state.md R39). -/
def familyNumber : CodeKind → Nat
  | .ham _ => 1
  | .bch _ _ _ _ => 2
  | .gol => 3
  | .rm _ _ => 4

/-- The two bytes of INFO2: (bits 7:0, bits 15:8) (10_state.md R39). -/
def familyBytes : CodeKind → Nat × Nat
  | .ham r => (r, 0)
  | .bch m c _ _ => (m, c)
  | .gol => (0, 0)
  | .rm r m => (r, m)

/-- CSs_INFO0, CSs_INFO1, CSs_INFO2 of a built slot (10_state.md R39). -/
def codeInfo (c : Code) (which : Fin 3) : RegVal :=
  match which with
  | 0 => BitVec.ofNat Config.xlen (1 + placeField 3 1 (familyNumber c.kind) + placeField 8 8 c.q)
  | 1 => BitVec.ofNat Config.xlen (placeField 9 0 c.n + placeField 9 9 c.k + placeField 9 18 c.d)
  | 2 =>
    BitVec.ofNat Config.xlen
      (placeField 8 0 (familyBytes c.kind).1 + placeField 8 8 (familyBytes c.kind).2)

/-- CSs_INFOn: 0 while the slot is empty (10_state.md R39). -/
def infoReg (s : State) (slot : SlotIdx) (which : Fin 3) : RegVal :=
  match s.slot slot with
  | none => 0
  | some c => codeInfo c which

/-- The current value of a register (20_memory.md R55, 10_state.md R31 to R40). -/
def readReg (r : WindowReg) (s : State) : RegVal :=
  match r with
  | .id => 0x45434301
  | .cmd => 0
  | .status => statusReg s
  | .cinfo => cinfoReg s
  | .esticky => estickyReg s
  | .feinfo => feinfoReg s
  | .params => paramsReg
  | .info slot which => infoReg s slot which
  | .cell reg index => ((s.words[reg.val]).cells[index.val]).setWidth Config.xlen
  | .len reg => BitVec.ofNat Config.xlen (s.words[reg.val]).len.val

/-- `Wi_CELLj` <- v for v <= 255; LEN is not altered (10_state.md R40). -/
def State.writeCell (s : State) (reg : WordIdx) (index : Fin Config.nmax) (v : RegVal) : State :=
  let w := s.words[reg.val]
  { s with words :=
      s.words.set reg.val { w with cells := w.cells.set index.val (v.setWidth Config.symw) } }

/-- `Wi_LEN` <- v for v <= 256; no cell is altered (10_state.md R40). -/
def State.writeLen (s : State) (reg : WordIdx) (v : RegVal) : State :=
  let w := s.words[reg.val]
  { s with words := s.words.set reg.val { w with len := Fin.ofNat (Config.nmax + 1) v.toNat } }

/-- ESTICKY is written (10_state.md R36). -/
def State.writeSticky (s : State) (v : RegVal) : State :=
  { s with esticky := clearSticky s.esticky v }

/-- A host write to a register other than CMD (20_memory.md R56). CMD is the step's own case: there it
is never given. -/
def writeReg (r : WindowReg) (v : RegVal) (s : State) : Except AccessError State :=
  match r with
  | .esticky => .ok (s.writeSticky v)
  | .cell reg index => if v.toNat < 2 ^ Config.symw then .ok (s.writeCell reg index v) else .error .range
  | .len reg => if v.toNat ≤ Config.nmax then .ok (s.writeLen reg v) else .error .range
  | .cmd => .ok s
  | .id => .error .readOnly
  | .status => .error .readOnly
  | .cinfo => .error .readOnly
  | .feinfo => .error .readOnly
  | .params => .error .readOnly
  | .info _ _ => .error .readOnly

/-- The access at the head of the port is taken and answered (log entries 1, 2). -/
def State.answer (s : State) (rest : List BusRequest) (a : BusResponse) : State :=
  { s with port := rest, response := some a }

end Sys2Proof.Machine
end

