-- ==== Sys2Proof/Machine/Step.lean ====
section
/-! DEFINITION. One step of the block: it serves the oldest access at its port to completion
(20_memory.md R59). -/

namespace Sys2Proof.Machine

/-- A word written to CMD is executed: the decoded command, or IllegalCommand(IC_ENCODING)
(10_state.md R33, 30_encoding.md R70, R78). -/
def runCommand (v : RegVal) (s : State) : Host.Outcome State Fault Refusal :=
  match decode v with
  | .ok i => exec i s
  | .error _ => .next (s.takeException .icEncoding)

/-- A host read: the value is answered and nothing else changes (20_memory.md R55). -/
def serveRead (off : Offset) (width : AccessWidth) (rest : List BusRequest) (s : State) :
    Host.Outcome State Fault Refusal :=
  match accessTarget off width with
  | .error e => .refused (.accessError e)
  | .ok r => .next (s.answer rest (.readData (readReg r s)))

/-- A host write (20_memory.md R56): CMD runs a command, any other register is written. -/
def serveWrite (off : Offset) (width : AccessWidth) (v : RegVal) (rest : List BusRequest)
    (s : State) : Host.Outcome State Fault Refusal :=
  match accessTarget off width with
  | .error e => .refused (.accessError e)
  | .ok .cmd => runCommand v (s.answer rest .writeDone)
  | .ok r =>
    match writeReg r v s with
    | .error e => .refused (.accessError e)
    | .ok t => .next (t.answer rest .writeDone)

/-- One step: the oldest request is served; with nothing at the port nothing changes
(20_memory.md R59, 60_exceptions.md R268; log entries 1, 6, 7). -/
def step (s : State) : Host.Outcome State Fault Refusal :=
  match s.port with
  | [] => .next s
  | .read off width :: rest => serveRead off width rest s
  | .write off width v :: rest => serveWrite off width v rest s
  | .reset :: rest => .next { s.resetBlock with port := rest }
  | .commandCutByReset data :: rest => .next { s.abandonCommand data with port := rest }

/-- s with a host write of the command word w to CMD as the next access: the block fetches nothing, a
command is the data of that write (10_state.md R24, R33; log entry 1). -/
def State.withFetchWord (s : State) (nbits w : Nat) : State :=
  { s with port := .write 0x0004 .bits32 (BitVec.ofNat Config.xlen (w % 2 ^ nbits)) :: s.port }

end Sys2Proof.Machine
end

