-- ==== Sys2Proof/Safety.lean ====
section
/-! DEFINITION. The terms statements use: the invariant of the block (what the spec says a built slot,
a constructed extractor and the reporting registers are), the complete exception relation
(60_exceptions.md R257), and the two ends of a command written with the spec's own numbers. -/

namespace Sys2Proof.Machine

/-- `w` is a word of length n over GF(q) (00_scope.md R7). -/
abbrev WordOver (q n : Nat) (w : Word) : Prop := w.length = n ∧ ∀ x ∈ w, x < q

/-- In how many positions two words differ. -/
def distance (u v : Word) : Nat := (u.zip v).countP fun p => p.1 != p.2

/-- The correction radius t = (d - 1) div 2 (41_linear_code.md R120). -/
def Code.radius (c : Code) : Nat := (c.d - 1) / 2

/-- The state after a command that raises exception code `code` with sub-code `sub`: LAST, CINFO and
the sticky bit, nothing else (60_exceptions.md R261), in the spec's numbers. -/
def State.raised (s : State) (code sub : Nat) : State :=
  { s with
    last := BitVec.ofNat 3 code
    cinfo := BitVec.ofNat 8 sub
    esticky := s.esticky ||| BitVec.twoPow 5 (code - 1) }

/-- The reporting registers of a success: LAST 0 and CINFO 0 (10_state.md R37). -/
def State.reportsSuccess (s : State) : State := { s with last := 0, cinfo := 0 }

/-- The family's fields are those its constructor fills (10_state.md R25; 42_hamming.md R140,
43_bch.md R155, 44_golay.md R186, 45_reed_muller.md R205). -/
def Code.kindOk (c : Code) : Bool :=
  match c.kind with
  | .ham r => isPrime c.q && decide (2 ≤ r ∧ c.n = hamLength c.q r ∧ c.k = c.n - r ∧ c.d = 3)
  | .bch m off f a =>
    isPrime c.q && !hasNonSymbol c.q f && !hasNonSymbol c.q a
      && decide (1 ≤ m ∧ f.length = m + 1 ∧ f.getLast? = some 1 ∧ a.length = m ∧ off < 256)
      && decide (c.n = c.q ^ m - 1 ∧ c.k = c.n - (rootExponents c.q m c.n off c.d).length)
      && (bchField c.q c.n f a).isPrimitive
  | .gol => golParams c.n == some (c.q, c.k, c.d)
  | .rm r m =>
    decide (c.q = 2 ∧ r ≤ m ∧ m ≤ 8 ∧ c.n = 2 ^ m ∧ c.k = rmBound m (r + 1) ∧ c.d = 2 ^ (m - r))

/-- What holds of every built slot: "1 <= k <= n and d >= 1" within NMAX, and the family's fields
(10_state.md R25). -/
def Code.ok (c : Code) : Bool :=
  decide (1 ≤ c.k ∧ c.k ≤ c.n ∧ c.n ≤ 256 ∧ 1 ≤ c.d ∧ c.d ≤ 256) && c.kindOk

/-- Helper data is a pair of binary words of length n (10_state.md R28). -/
def Helper.ok (n : Nat) (h : Helper) : Bool := decide (WordOver 2 n h.s ∧ WordOver 2 n h.x)

/-- What holds of a constructed extractor: its slot is built and binary, mbits = k and
mbits + pbits = n (10_state.md R28). -/
def Extractor.ok (s : State) (fe : Extractor) : Bool :=
  match s.slot fe.slot with
  | none => false
  | some c =>
    decide (c.q = 2 ∧ fe.mbits = c.k ∧ fe.mbits + fe.pbits = c.n)
      && fe.helper.all (Helper.ok c.n)

/-- Every exception (60_exceptions.md R252 to R256). -/
def allTraps : List Trap :=
  [.iiSlotEmpty, .iiLength, .iiSymbol, .iiFeInvalid, .iiNoHelper,
   .ceSlotBuilt, .ceQ, .ceParam, .ceSize, .cePoly, .cePrim, .ceFeBind, .ceFeHelper, .ceOneshot,
   .dfHamNomatch, .dfBchSingular, .dfBchRoots, .dfBchMagnitude, .dfBchResidual, .dfGolNomatch,
   .dfRmTie, .niGolayTernary, .icEncoding]

/-- LAST and CINFO show a success or one of the exceptions: codes 6 and 7 never occur
(60_exceptions.md R250). -/
def reportOk (s : State) : Bool :=
  (s.last == 0 && s.cinfo == 0)
    || allTraps.any fun t =>
      s.last == BitVec.ofNat 3 t.code && s.cinfo == BitVec.ofNat 8 t.sub

/-- The invariant of the block (10_state.md R25, R28; 60_exceptions.md R250). -/
def State.inv (s : State) : Bool :=
  (s.slots.toList.all fun slot => slot.all Code.ok) && s.fe.all (Extractor.ok s) && reportOk s

/-- The decode failures of a family (60_exceptions.md R254). -/
def familyRaises : CodeKind → Trap → Bool
  | .ham _, t => t == .dfHamNomatch
  | .bch _ _ _ _, t =>
    [Trap.dfBchSingular, .dfBchRoots, .dfBchMagnitude, .dfBchResidual].contains t
  | .gol, t => t == .dfGolNomatch
  | .rm _ _, t => t == .dfRmTie

/-- What DEC and DECM can raise beyond the operand checks: the slot's family's sub-codes, and
GOLAY_TERNARY for the orders 11 and 12 (60_exceptions.md R257, 44_golay.md R193). -/
def decodeRaises (c : Code) (t : Trap) : Bool :=
  familyRaises c.kind t
    || (c.kind == .gol && (c.n == 11 || c.n == 12) && t == .niGolayTernary)

/-- The complete relation of 60_exceptions.md R257: command i, in state s, can raise t. -/
def mayRaise (s : State) : Instr → Trap → Bool
  | .hamNew _ _ _, t => [Trap.ceSlotBuilt, .ceQ, .ceParam, .ceSize].contains t
  | .bchNew _ _ _ _, t => [Trap.ceSlotBuilt, .ceQ, .ceParam, .cePoly, .ceSize, .cePrim].contains t
  | .golNew _ _, t => [Trap.ceSlotBuilt, .ceParam].contains t
  | .rmNew _ _ _, t => [Trap.ceSlotBuilt, .ceParam, .ceSize].contains t
  | .enc _ _ _, t => [Trap.iiSlotEmpty, .iiLength, .iiSymbol].contains t
  | .dec _ _ cs, t | .decm _ _ cs, t =>
    [Trap.iiSlotEmpty, .iiLength, .iiSymbol].contains t || (s.slot cs).any fun c => decodeRaises c t
  | .feNew _ _ _ _, t => [Trap.ceSlotBuilt, .ceFeBind, .ceFeHelper].contains t
  | .feGen _ _, t => [Trap.iiFeInvalid, .iiLength, .iiSymbol, .ceOneshot].contains t
  | .feRep _ _, t =>
    [Trap.iiFeInvalid, .iiNoHelper, .iiLength, .iiSymbol].contains t
      || s.fe.any fun fe => (s.slot fe.slot).any fun c => familyRaises c.kind t
  | .feHdrd _ _, t => [Trap.iiFeInvalid, .iiNoHelper].contains t

/-- The next thing served is the platform's reset, alone or cutting a command short
(70_reset_and_hazards.md R280, R282). -/
def State.resetNext (s : State) : Bool :=
  match s.port with
  | .reset :: _ => true
  | .commandCutByReset _ :: _ => true
  | _ => false

/-- Base of the window of word register i (10_state.md R40). -/
def wordBase (i : WordIdx) : Nat := 0x1000 + 0x800 * i.val

/-- The offset holds a cell of a word register (20_memory.md R51). -/
def IsCellOffset (a : Nat) : Prop := ∃ (i : WordIdx) (j : Fin 256), a = wordBase i + 4 * j.val

/-- The offset holds a LEN register (20_memory.md R51). -/
def IsLenOffset (a : Nat) : Prop := ∃ i : WordIdx, a = wordBase i + 0x400

/-- The offset holds a read-only register: ID, STATUS, CINFO, FEINFO, PARAMS or CSs_INFOn
(20_memory.md R51, R56). -/
def IsReadOnlyOffset (a : Nat) : Prop :=
  a = 0x0000 ∨ a = 0x0008 ∨ a = 0x000C ∨ a = 0x0014 ∨ a = 0x0018
    ∨ ∃ (c : SlotIdx) (k : Fin 3), a = 0x0040 + 0x10 * c.val + 4 * k.val

/-- The offset is mapped (20_memory.md R51); 0x0004 is CMD and 0x0010 ESTICKY. -/
def IsMappedOffset (a : Nat) : Prop :=
  IsReadOnlyOffset a ∨ a = 0x0004 ∨ a = 0x0010 ∨ IsCellOffset a ∨ IsLenOffset a

/-- A host read of `off` answers v and changes nothing else (20_memory.md R55; that the
access stands at `port` and its answer in `response` is the model's form, log entries 1, 2). -/
def State.readsAs (s : State) (off : Offset) (v : RegVal) : Prop :=
  ∀ rest, step { s with port := .read off .bits32 :: rest }
    = .next { s with port := rest, response := some (.readData v) }

/-- A host read of `off` gets AccessError (20_memory.md R57; log entries 1, 3). -/
def State.readRefused (s : State) (off : Offset) : Prop :=
  ∀ rest, ∃ e, step { s with port := .read off .bits32 :: rest } = .refused (.accessError e)

/-- A host write of v to `off` completes and leaves t (20_memory.md R56; log entries 1, 2). -/
def State.writeGives (s : State) (off : Offset) (v : RegVal) (t : State) : Prop :=
  ∀ rest, step { s with port := .write off .bits32 v :: rest }
    = .next { t with port := rest, response := some .writeDone }

/-- A host write of v to `off` gets AccessError (20_memory.md R57; log entries 1, 3). -/
def State.writeRefused (s : State) (off : Offset) (v : RegVal) : Prop :=
  ∀ rest, ∃ e, step { s with port := .write off .bits32 v :: rest } = .refused (.accessError e)

/-- Lexicographic order of tuples (40_field_arithmetic.md R96). -/
def TupleLt (u v : Word) : Prop := List.Lex (· < ·) u v

/-- a has multiplicative order exactly n in F (40_field_arithmetic.md R101). -/
def ExtField.HasOrder (F : ExtField) (a : Elem) (n : Nat) : Prop :=
  F.pow a n = F.one ∧ ∀ j, 1 ≤ j → j < n → F.pow a j ≠ F.one

/-- Coefficient j of the product of two coefficient lists, before any reduction
(40_field_arithmetic.md R99). -/
def productCoeff (p r : List Nat) (j : Nat) : Nat :=
  ∑ i ∈ Finset.range (j + 1), p.getD i 0 * r.getD (j - i) 0

/-- Over GF(q) the product of the polynomials u and v is a multiple of g plus w, coefficient by
coefficient: for w of lower degree than g, w is the product reduced modulo g (40_field_arithmetic.md
R99, R108). All four are coefficient lists, that of x^j at index j. -/
def IsProductModulo (q : Nat) (g u v w : List Nat) : Prop :=
  ∃ s : List Nat, ∀ j, productCoeff u v j % q = (productCoeff s g j + w.getD j 0) % q

/-- E is RootExponents(q, n, c, d): the union, over j = 0..d-2, of the cosets
{((c + j) * q^i) mod n : i >= 0} (43_bch.md R158). -/
def IsRootExponents (q n c d : Nat) (E : Finset Nat) : Prop :=
  ∀ e, e ∈ E ↔ ∃ j i, j + 1 < d ∧ e = (c + j) * q ^ i % n

end Sys2Proof.Machine
end

