-- ==== Sys2Proof/Certificates/Slice0/Obligations.lean ====
section
/-! DEFINITION. The statements for the provers: what the numbered rules of spec/ say the block does. -/

open Sys2Proof Sys2Proof.Machine

/-! ### Reset, the register window and the port -/

/-- 10_state.md R42, every row of its table. -/
def Obligations.ResetLeavesStatedValues : Prop :=
  (∀ (i : WordIdx), (State.reset.words[i.val]).len.val = 0
      ∧ ∀ j : Fin Config.nmax, (State.reset.words[i.val]).cells[j.val] = 0)
    ∧ (∀ (c : SlotIdx), State.reset.slot c = none ∧ ∀ k, readReg (.info c k) State.reset = 0)
    ∧ State.reset.fe = none ∧ readReg .feinfo State.reset = 0
    ∧ State.reset.last = 0 ∧ readReg .cinfo State.reset = 0 ∧ readReg .esticky State.reset = 0
    ∧ readReg .id State.reset = 0x45434301 ∧ readReg .params State.reset = 0xFB440100

/-- 70_reset_and_hazards.md R280 to R282: reset gives the state after reset whatever the state before,
also when it arrives while a command executes: nothing of the command survives. That the requests
behind it and the place in the random bits stay is the model's choice (log entries 4, 6). -/
def Obligations.PlatformResetRestoresResetState : Prop :=
  ∀ (s : State) (rest : List BusRequest),
    (s.port = .reset :: rest ∨ ∃ v, s.port = .commandCutByReset v :: rest) →
    step s = .next { State.reset with port := rest, draws := s.draws }

/-- 10_state.md R31, R32; and R33's read: CMD reads as 0. -/
def Obligations.IdAndParamsAreConstant : Prop :=
  ∀ s : State, s.readsAs 0x0000 0x45434301 ∧ s.readsAs 0x0018 0xFB440100 ∧ s.readsAs 0x0004 0
    ∧ ∀ v, s.writeRefused 0x0000 v ∧ s.writeRefused 0x0018 v

/-- 10_state.md R34: the fields of STATUS, and that it is read-only. -/
def Obligations.StatusShowsItsFields : Prop :=
  ∀ s : State, (∀ v, s.writeRefused 0x0008 v) ∧ ∃ v, s.readsAs 0x0008 v
    ∧ field v 2 0 = s.last.toNat
    ∧ v.getLsbD 3 = false
    ∧ (∀ c : SlotIdx, v.getLsbD (4 + c.val) = (s.slot c).isSome)
    ∧ v.getLsbD 8 = s.fe.isSome
    ∧ v.getLsbD 9 = (s.fe.bind Extractor.helper).isSome
    ∧ ∀ b, 10 ≤ b → v.getLsbD b = false

/-- 10_state.md R35, R36: CINFO is a read-only byte; ESTICKY shows bits 1..5, and a host write clears
exactly the bits e in 1..5 that are 1 in the value. -/
def Obligations.CinfoAndEstickyRegisters : Prop :=
  ∀ s : State,
    s.readsAs 0x000C (s.cinfo.setWidth Config.xlen) ∧ (∀ v, s.writeRefused 0x000C v)
    ∧ (∃ v, s.readsAs 0x0010 v
        ∧ ∀ b, v.getLsbD b = (decide (1 ≤ b ∧ b ≤ 5) && s.esticky.getLsbD (b - 1)))
    ∧ ∀ w : RegVal, ∃ e : BitVec 5,
        (∀ b, b < 5 → e.getLsbD b = (s.esticky.getLsbD b && !w.getLsbD (b + 1)))
          ∧ s.writeGives 0x0010 w { s with esticky := e }

/-- 10_state.md R38. -/
def Obligations.FeinfoShowsTheExtractor : Prop :=
  ∀ s : State, s.inv = true → (∀ v, s.writeRefused 0x0014 v)
    ∧ (s.fe = none → s.readsAs 0x0014 0)
    ∧ ∀ fe, s.fe = some fe → ∃ v, s.readsAs 0x0014 v
        ∧ v.getLsbD 0 = true ∧ v.getLsbD 1 = fe.helper.isSome
        ∧ field v 3 2 = fe.slot.val ∧ field v 13 4 = fe.mbits ∧ field v 23 14 = fe.pbits
        ∧ field v 31 24 = 0

/-- 10_state.md R39. -/
def Obligations.InfoRegistersShowTheSlot : Prop :=
  ∀ (s : State) (c : SlotIdx), s.inv = true →
    let at_ := fun k => BitVec.ofNat Config.aw (0x0040 + 0x10 * c.val + k)
    (s.slot c = none → s.readsAs (at_ 0) 0 ∧ s.readsAs (at_ 4) 0 ∧ s.readsAs (at_ 8) 0)
    ∧ s.readRefused (at_ 0xC)
    ∧ (∀ v, s.writeRefused (at_ 0) v ∧ s.writeRefused (at_ 4) v ∧ s.writeRefused (at_ 8) v
        ∧ s.writeRefused (at_ 0xC) v)
    ∧ ∀ code, s.slot c = some code → ∃ v0 v1 v2,
        s.readsAs (at_ 0) v0 ∧ s.readsAs (at_ 4) v1 ∧ s.readsAs (at_ 8) v2
        ∧ field v0 0 0 = 1 ∧ field v0 7 4 = 0 ∧ field v0 15 8 = code.q ∧ field v0 31 16 = 0
        ∧ field v1 8 0 = code.n ∧ field v1 17 9 = code.k ∧ field v1 26 18 = code.d
        ∧ field v1 31 27 = 0 ∧ field v2 31 16 = 0
        ∧ (∀ r, code.kind = .ham r →
            field v0 3 1 = 1 ∧ field v2 7 0 = r ∧ field v2 15 8 = 0)
        ∧ (∀ m off f a, code.kind = .bch m off f a →
            field v0 3 1 = 2 ∧ field v2 7 0 = m ∧ field v2 15 8 = off)
        ∧ (code.kind = .gol → field v0 3 1 = 3 ∧ field v2 7 0 = 0 ∧ field v2 15 8 = 0)
        ∧ (∀ r m, code.kind = .rm r m →
            field v0 3 1 = 4 ∧ field v2 7 0 = r ∧ field v2 15 8 = m)

/-- 10_state.md R40. -/
def Obligations.WordWindowReadsAndWrites : Prop :=
  ∀ (s : State) (i : WordIdx),
    let w := s.words[i.val]
    let at_ := fun k => BitVec.ofNat Config.aw (wordBase i + k)
    (∀ j : Fin Config.nmax,
      s.readsAs (at_ (4 * j.val)) ((w.cells[j.val]).setWidth Config.xlen)
      ∧ ∀ v : RegVal,
          (v.toNat ≤ 255 → s.writeGives (at_ (4 * j.val)) v
            { s with words :=
                s.words.set i.val { w with cells := w.cells.set j.val (v.setWidth Config.symw) } })
          ∧ (255 < v.toNat → s.writeRefused (at_ (4 * j.val)) v))
    ∧ s.readsAs (at_ 0x400) (BitVec.ofNat Config.xlen w.len.val)
    ∧ (∀ v : RegVal,
        (v.toNat ≤ 256 → ∃ l : Fin (Config.nmax + 1), l.val = v.toNat ∧ s.writeGives (at_ 0x400) v
          { s with words := s.words.set i.val { w with len := l } })
        ∧ (256 < v.toNat → s.writeRefused (at_ 0x400) v))
    ∧ ∀ k, 0x404 ≤ k → k ≤ 0x7FC → s.readRefused (at_ k) ∧ ∀ v, s.writeRefused (at_ k) v

/-- 20_memory.md R54 to R56: AccessError exactly on an access that is not 32 bits wide, misaligned,
unmapped, a write to a read-only register, or a value out of range for a cell or a length; a write to
CMD never gets it. That such an access is a refusal of the step is log entry 3. -/
def Obligations.AccessErrorExactlyOnInadmissibleAccess : Prop :=
  ∀ (s : State) (off : Offset) (width : AccessWidth) (rest : List BusRequest),
    (s.port = .read off width :: rest →
      ((∃ e, step s = .refused (.accessError e)) ↔
        ¬ (width = .bits32 ∧ off.toNat % 4 = 0 ∧ IsMappedOffset off.toNat)))
    ∧ ∀ v : RegVal, s.port = .write off width v :: rest →
      ((∃ e, step s = .refused (.accessError e)) ↔
        ¬ (width = .bits32 ∧ off.toNat % 4 = 0 ∧ IsMappedOffset off.toNat
            ∧ ¬ IsReadOnlyOffset off.toNat
            ∧ (IsCellOffset off.toNat → v.toNat ≤ 255) ∧ (IsLenOffset off.toNat → v.toNat ≤ 256)))

/-- 20_memory.md R55: an admitted read changes nothing of the block, and reading again answers the
same value. -/
def Obligations.AdmittedReadChangesNothing : Prop :=
  ∀ (s t : State) (off : Offset) (width : AccessWidth) (rest : List BusRequest),
    s.port = .read off width :: rest → step s = .next t →
    ∃ v, t = { s with port := rest, response := some (.readData v) }
      ∧ ∀ rest', step { t with port := .read off width :: rest' } = .next { t with port := rest' }

/-- 10_state.md R24, R33; 30_encoding.md R70: a CMD write runs the command its word decodes to, which
is well-formed. What the model's step adds: the access leaves the port and the bus answers that the
write is done (log entries 1, 2). -/
def Obligations.StepRunsTheDecodedCommand : Prop :=
  ∀ (s : State) (v : RegVal) (rest : List BusRequest) (i : Instr),
    s.port = .write 0x0004 .bits32 v :: rest → decode v = .ok i →
    i.wellFormed = true
      ∧ step s = exec i { s with port := rest, response := some .writeDone }

/-- 60_exceptions.md R256, 30_encoding.md R78: a CMD write of a word that matches no row of the opcode
table raises IllegalCommand(IC_ENCODING), 5/1, and changes nothing else of the block. -/
def Obligations.IllegalWordRaisesIllegalCommand : Prop :=
  ∀ (s : State) (v : RegVal) (rest : List BusRequest),
    s.port = .write 0x0004 .bits32 v :: rest →
    (∀ row ∈ opcodeTable, v &&& row.2 ≠ row.1) →
    step s = .next ({ s with port := rest, response := some .writeDone }.raised 5 1)

/-! ### Encoding -/

/-- 30_encoding.md R70 to R77: decoding the word of a well-formed command gives the command back. -/
def Obligations.DecodeInvertsEncode : Prop :=
  ∀ i : Instr, i.wellFormed = true → decode (encode i) = .ok i

/-- 30_encoding.md R70 to R78: a word the decoder accepts is the word of a well-formed command. -/
def Obligations.EncodeInvertsDecode : Prop :=
  ∀ (v : RegVal) (i : Instr), decode v = .ok i → i.wellFormed = true ∧ encode i = v

/-- 30_encoding.md R70, R77: the decoder accepts exactly the words that match a row of the opcode
table, and no word matches two rows. -/
def Obligations.DecoderAgreesWithOpcodeTable : Prop :=
  (∀ v : RegVal, (∃ i, decode v = .ok i) ↔ ∃ row ∈ opcodeTable, v &&& row.2 = row.1)
    ∧ opcodeTable.Pairwise fun a b => ∀ v : RegVal, ¬ (v &&& a.2 = a.1 ∧ v &&& b.2 = b.1)

/-- The worked words of 30_encoding.md R80 and 95_test_vectors.md 2.2. -/
def Obligations.SpecExampleWordsDecode : Prop :=
  decode 0x04030200 = .ok (.hamNew 0 3 2) ∧ decode 0x09020701 = .ok (.bchNew 1 2 7 1)
    ∧ decode 0x0E180000 = .ok (.golNew 2 24) ∧ decode 0x13010300 = .ok (.rmNew 3 1 3)
    ∧ decode 0x20400000 = .ok (.enc 1 0 0) ∧ decode 0x24900000 = .ok (.dec 2 1 0)
    ∧ decode 0x2BD00000 = .ok (.decm 3 1 3) ∧ decode 0x40001003 = .ok (.feNew 0 4 3 false)
    ∧ decode 0x44400000 = .ok (.feGen 1 0) ∧ decode 0x48C00000 = .ok (.feRep 3 0)
    ∧ decode 0x4CD00000 = .ok (.feHdrd 3 .x)

/-! ### Outcomes, exceptions and what no command may do -/

/-- 60_exceptions.md R261: every command ends in a next state; one that raises writes LAST, CINFO and
its sticky bit and changes nothing else, and its CMD write completes normally on the bus. -/
def Obligations.EveryCommandSucceedsOrTrapsPrecisely : Prop :=
  (∀ (i : Instr) (s : State),
    (∃ t, exec i s = .next t ∧ t.last = 0 ∧ t.cinfo = 0 ∧ t.esticky = s.esticky)
      ∨ ∃ code sub, 1 ≤ code ∧ code ≤ 5 ∧ 1 ≤ sub ∧ exec i s = .next (s.raised code sub))
    ∧ ∀ (s : State) (v : RegVal) (rest : List BusRequest),
        s.port = .write 0x0004 .bits32 v :: rest →
        ∃ t, step s = .next t ∧ t.port = rest ∧ t.response = some .writeDone

/-- 10_state.md R37: what a command writes to LAST, CINFO and ESTICKY, and that no command reads
them. -/
def Obligations.ReportsAreWrittenAndNeverRead : Prop :=
  ∀ (i : Instr) (s : State) (l : BitVec 3) (c : BitVec 8) (e : BitVec 5),
    ∃ t t', exec i s = .next t
      ∧ exec i { s with last := l, cinfo := c, esticky := e } = .next t'
      ∧ { t' with esticky := t.esticky } = t
      ∧ (t.last = 0 → t.cinfo = 0 ∧ t.esticky = s.esticky ∧ t'.esticky = e)
      ∧ (t.last ≠ 0 →
          t.esticky = s.esticky ||| BitVec.twoPow 5 (t.last.toNat - 1)
          ∧ t'.esticky = e ||| BitVec.twoPow 5 (t.last.toNat - 1))

/-- 60_exceptions.md R257: in a state that meets the invariant a command raises nothing the relation
does not list for it. -/
def Obligations.CommandsRaiseOnlyWhatTheRelationLists : Prop :=
  ∀ (i : Instr) (s t : State), s.inv = true → exec i s = .next t → t.last ≠ 0 →
    ∃ e : Trap, mayRaise s i e = true ∧ t = s.raised e.code e.sub

/-- 10_state.md R22: what `W[i] <- v` writes, and that a command that raises writes no word
register. -/
def Obligations.ResultWriteFillsTheRegister : Prop :=
  (∀ (s : State) (i : WordIdx) (v : Word), v.length ≤ 256 → (∀ x ∈ v, x ≤ 255) →
    ((s.setWord i v).words[i.val]).len.val = v.length
    ∧ (∀ j : Fin Config.nmax, (((s.setWord i v).words[i.val]).cells[j.val]).toNat
        = if j.val < v.length then v.getD j.val 0 else 0)
    ∧ (s.setWord i v).word i = v
    ∧ (∀ k : WordIdx, k ≠ i → (s.setWord i v).words[k.val] = s.words[k.val])
    ∧ { s.setWord i v with words := s.words } = s)
  ∧ ∀ (i : Instr) (s t : State), exec i s = .next t → t.last ≠ 0 → t.words = s.words

/-- 70_reset_and_hazards.md R288, 10_state.md R21: "No command looks at a cell at or above LEN": two
states whose registers hold the same words give the same outcome and the same words. -/
def Obligations.CommandsIgnoreCellsAboveLen : Prop :=
  ∀ (i : Instr) (s s' : State),
    (∀ k : WordIdx, s.word k = s'.word k) → { s' with words := s.words } = s →
    ∃ t t', exec i s = .next t ∧ exec i s' = .next t'
      ∧ { t' with words := t.words } = t ∧ ∀ k : WordIdx, t.word k = t'.word k

/-- 10_state.md R26, R27: no step but the platform's reset clears or alters a built slot. -/
def Obligations.BuiltSlotsNeverChange : Prop :=
  ∀ (s t : State) (c : SlotIdx) (code : Code), step s = .next t → s.resetNext = false →
    s.slot c = some code → t.slot c = some code

/-- 10_state.md R29: but by reset, a constructed extractor keeps its binding, and once helper data is
set the extractor never changes. -/
def Obligations.HelperLatchIsOneShot : Prop :=
  ∀ (s t : State) (fe : Extractor), step s = .next t → s.resetNext = false →
    s.fe = some fe →
    ∃ fe', t.fe = some fe' ∧ fe'.slot = fe.slot ∧ fe'.mbits = fe.mbits ∧ fe'.pbits = fe.pbits
      ∧ (fe.helper ≠ none → fe' = fe)

/-- The invariant (10_state.md R25, R28; 60_exceptions.md R250) holds after reset. -/
def Obligations.InvariantHoldsAtReset : Prop := State.reset.inv = true

/-- Every step keeps the invariant: built slots hold a code their constructor admits, the extractor
fits its slot, LAST and CINFO show an outcome (10_state.md R25, R28; 60_exceptions.md R250). -/
def Obligations.StepKeepsTheInvariant : Prop :=
  ∀ s t : State, s.inv = true → step s = .next t → t.inv = true

/-! ### Frames -/

/-- HAM.NEW, BCH.NEW, GOL.NEW and RM.NEW change at most slot cs and the reporting registers: no word
register, no other slot, no extractor field, no draw (10_state.md R23, R26). -/
def Obligations.CodeConstructorsFrame : Prop :=
  ∀ (s t : State) (cs : SlotIdx) (p1 p2 p3 : Nat) (i : Instr),
    i = .hamNew cs p1 p2 ∨ i = .bchNew cs p1 p2 p3 ∨ i = .golNew cs p1 ∨ i = .rmNew cs p1 p2 →
    exec i s = .next t →
    t.words = s.words ∧ (∀ c, c ≠ cs → t.slot c = s.slot c) ∧ t.fe = s.fe
      ∧ t.port = s.port ∧ t.response = s.response ∧ t.draws = s.draws

/-- ENC, DEC, DECM, FE.REP and FE.HDRD change at most word register wd and the reporting registers: no
other word register, no slot, no extractor field, no draw (10_state.md R23; 46_fuzzy_extractor.md
R230, R231). -/
def Obligations.WordCommandsFrame : Prop :=
  ∀ (s t : State) (wd ws : WordIdx) (cs : SlotIdx) (sel : HelperHalf) (i : Instr),
    i = .enc wd ws cs ∨ i = .dec wd ws cs ∨ i = .decm wd ws cs ∨ i = .feRep wd ws
      ∨ i = .feHdrd wd sel →
    exec i s = .next t →
    (∀ k : WordIdx, k ≠ wd → t.words[k.val] = s.words[k.val]) ∧ t.slots = s.slots ∧ t.fe = s.fe
      ∧ t.port = s.port ∧ t.response = s.response ∧ t.draws = s.draws

/-- FE.NEW changes at most the extractor context and the reporting registers; FE.GEN changes at most
word register wd, the helper data and the reporting registers, and draws n + k bits when it succeeds
and none when it raises (46_fuzzy_extractor.md R226, R229). The counter of draws is the model's (log
entry 4). -/
def Obligations.ExtractorCommandsFrame : Prop :=
  (∀ (s t : State) (cs : SlotIdx) (mb pb : Nat) (h : Bool), exec (.feNew cs mb pb h) s = .next t →
    t.words = s.words ∧ t.slots = s.slots ∧ t.port = s.port ∧ t.response = s.response
      ∧ t.draws = s.draws)
  ∧ ∀ (s t : State) (wd ws : WordIdx), exec (.feGen wd ws) s = .next t →
    (∀ k : WordIdx, k ≠ wd → t.words[k.val] = s.words[k.val]) ∧ t.slots = s.slots
      ∧ t.port = s.port ∧ t.response = s.response
      ∧ (t.last ≠ 0 → t.fe = s.fe ∧ t.draws = s.draws)
      ∧ (t.last = 0 → ∃ fe c h, s.fe = some fe ∧ s.slot fe.slot = some c
          ∧ t.fe = some { fe with helper := some h } ∧ t.draws = s.draws + (c.n + c.k))

/-! ### Constructing codes -/

/-- 42_hamming.md R140: HAM.NEW on an empty slot with q prime up to 251, r at least 2 and
n = 1 + q + ... + q^(r-1) at most 256 completes and fills the slot. -/
def Obligations.HamNewBuildsTheCode : Prop :=
  ∀ (s : State) (cs : SlotIdx) (r q : Nat), s.slot cs = none → q.Prime → q ≤ 251 → 2 ≤ r →
    (∑ i ∈ Finset.range r, q ^ i) ≤ 256 →
    exec (.hamNew cs r q) s = .next { s with
      slots := s.slots.set cs.val (some
        { q := q, n := ∑ i ∈ Finset.range r, q ^ i, k := (∑ i ∈ Finset.range r, q ^ i) - r, d := 3,
          kind := .ham r })
      last := 0
      cinfo := 0 }

/-- 44_golay.md R185, R186: GOL.NEW on an empty slot completes for the four orders. -/
def Obligations.GolNewBuildsTheCode : Prop :=
  ∀ (s : State) (cs : SlotIdx) (n q k d : Nat), s.slot cs = none →
    (n, q, k, d) ∈ [(24, 2, 12, 8), (23, 2, 12, 7), (12, 3, 6, 6), (11, 3, 6, 5)] →
    exec (.golNew cs n) s = .next { s with
      slots := s.slots.set cs.val (some { q := q, n := n, k := k, d := d, kind := .gol })
      last := 0
      cinfo := 0 }

/-- 45_reed_muller.md R205: RM.NEW on an empty slot completes for r <= m <= 8. -/
def Obligations.RmNewBuildsTheCode : Prop :=
  ∀ (s : State) (cs : SlotIdx) (r m : Nat), s.slot cs = none → r ≤ m → m ≤ 8 →
    exec (.rmNew cs r m) s = .next { s with
      slots := s.slots.set cs.val (some
        { q := 2, n := 2 ^ m, k := ∑ i ∈ Finset.range (r + 1), m.choose i, d := 2 ^ (m - r),
          kind := .rm r m })
      last := 0
      cinfo := 0 }

/-- 43_bch.md R155, R158: BCH.NEW completes when W0 is a monic polynomial word of degree m >= 1, n =
q^m - 1 at most 256, W1 an element of order n, and k = n - |E| at least 1. -/
def Obligations.BchNewBuildsTheCode : Prop :=
  ∀ (s : State) (cs : SlotIdx) (q d c m n : Nat) (E : Finset Nat), s.slot cs = none →
    q.Prime → q ≤ 251 → 1 ≤ d →
    (s.word 0).length = m + 1 → 1 ≤ m → (∀ x ∈ s.word 0, x < q) → (s.word 0).head? = some 1 →
    n = q ^ m - 1 → n ≤ 256 →
    WordOver q m (s.word 1) →
    ExtField.HasOrder { q := q, n := n, f := (s.word 0).reverse.dropLast, a := (s.word 1).reverse }
      (s.word 1).reverse n →
    IsRootExponents q n c d E → E.card < n →
    exec (.bchNew cs q d c) s = .next { s with
      slots := s.slots.set cs.val (some
        { q := q, n := n, k := n - E.card, d := d,
          kind := .bch m c (s.word 0).reverse (s.word 1).reverse })
      last := 0
      cinfo := 0 }

/-- The exceptions of HAM.NEW, GOL.NEW and RM.NEW in their order (42_hamming.md R140, 44_golay.md
R185, 45_reed_muller.md R205, 60_exceptions.md R253, R260). -/
def Obligations.CodeConstructorsRaiseInOrder : Prop :=
  ∀ (s : State) (cs : SlotIdx),
    (s.slot cs ≠ none → ∀ p1 p2 p3, exec (.hamNew cs p1 p2) s = .next (s.raised 2 1)
      ∧ exec (.golNew cs p1) s = .next (s.raised 2 1)
      ∧ exec (.rmNew cs p1 p2) s = .next (s.raised 2 1)
      ∧ exec (.bchNew cs p1 p2 p3) s = .next (s.raised 2 1))
    ∧ (s.slot cs = none →
      (∀ r q, ¬ (q.Prime ∧ q ≤ 251) → exec (.hamNew cs r q) s = .next (s.raised 2 2))
      ∧ (∀ r q, q.Prime → q ≤ 251 → r < 2 → exec (.hamNew cs r q) s = .next (s.raised 2 3))
      ∧ (∀ r q, q.Prime → q ≤ 251 → 2 ≤ r → 256 < ∑ i ∈ Finset.range r, q ^ i →
          exec (.hamNew cs r q) s = .next (s.raised 2 4))
      ∧ (∀ n, n ∉ [11, 12, 23, 24] → exec (.golNew cs n) s = .next (s.raised 2 3))
      ∧ (∀ r m, m < r → exec (.rmNew cs r m) s = .next (s.raised 2 3))
      ∧ ∀ r m, r ≤ m → 8 < m → exec (.rmNew cs r m) s = .next (s.raised 2 4))

/-- The exceptions of BCH.NEW on an empty slot in their order (43_bch.md R155, 60_exceptions.md R253,
R260): Q, PARAM, POLY, SIZE (n), PRIM, SIZE (k). -/
def Obligations.BchNewRaisesInOrder : Prop :=
  ∀ (s : State) (cs : SlotIdx) (q d c : Nat), s.slot cs = none →
    (¬ (q.Prime ∧ q ≤ 251) → exec (.bchNew cs q d c) s = .next (s.raised 2 2))
    ∧ (q.Prime → q ≤ 251 →
      (d = 0 → exec (.bchNew cs q d c) s = .next (s.raised 2 3))
      ∧ (1 ≤ d →
        (((s.word 0).length < 2 ∨ (∃ x ∈ s.word 0, q ≤ x) ∨ (s.word 0).head? ≠ some 1) →
          exec (.bchNew cs q d c) s = .next (s.raised 2 5))
        ∧ ∀ m n, (s.word 0).length = m + 1 → 1 ≤ m → (∀ x ∈ s.word 0, x < q) →
          (s.word 0).head? = some 1 → n = q ^ m - 1 →
          (256 < n → exec (.bchNew cs q d c) s = .next (s.raised 2 4))
          ∧ (n ≤ 256 →
            (¬ WordOver q m (s.word 1) → exec (.bchNew cs q d c) s = .next (s.raised 2 6))
            ∧ (WordOver q m (s.word 1) →
              let F : ExtField := { q := q, n := n, f := (s.word 0).reverse.dropLast,
                                    a := (s.word 1).reverse }
              (¬ F.HasOrder (s.word 1).reverse n →
                exec (.bchNew cs q d c) s = .next (s.raised 2 6))
              ∧ (F.HasOrder (s.word 1).reverse n → ∀ E : Finset Nat, IsRootExponents q n c d E →
                  E.card = n → exec (.bchNew cs q d c) s = .next (s.raised 2 4))))))

/-! ### ENC, DEC and DECM -/

/-- 41_linear_code.md R126: ENC of a message word of the slot's code completes, writes Encode of it to
W[wd] and nothing else but the flags, and the result is a word of length n over GF(q). For a BCH code
(43_bch.md R158, R161) it begins with the message, all its syndromes are zero, and the generator
polynomial has degree n - k and is monic with coefficients in GF(q). For a Reed–Muller code
(45_reed_muller.md R209) message bit j multiplies row j. -/
def Obligations.EncWritesTheCodeword : Prop :=
  ∀ (s : State) (wd ws : WordIdx) (cs : SlotIdx) (c : Code), s.slot cs = some c → c.ok = true →
    WordOver c.q c.k (s.word ws) →
    exec (.enc wd ws cs) s
      = .next (s.setWord wd (encodeWord c (s.word ws))).reportsSuccess
    ∧ WordOver c.q c.n (encodeWord c (s.word ws))
    ∧ (∀ m off f a, c.kind = .bch m off f a →
        let F := bchField c.q c.n f a
        (encodeWord c (s.word ws)).take c.k = s.word ws
        ∧ (∀ j, j + 1 < c.d →
            F.polyEval (F.wordPoly (encodeWord c (s.word ws))) (F.apow ((off + j : Nat) : Int)) = F.zero)
        ∧ polyDeg 0 (bchGenPoly F off c.d).reverse = some (c.n - c.k)
        ∧ (bchGenPoly F off c.d).head? = some 1
        ∧ (F.rootProduct (rootExponents F.q F.m F.n off c.d)).all inBase = true)
    ∧ ∀ r m col, c.kind = .rm r m → col < 2 ^ m →
        (encodeWord c (s.word ws)).getD col 0
          = (∑ j ∈ Finset.range c.k, (s.word ws).getD j 0
              * (rmRow m ((rmRowSets r m).getD j [])).getD col 0) % 2

/-- The operand exceptions of ENC, DEC and DECM in their order (41_linear_code.md R126 to R129,
60_exceptions.md R252, R260). -/
def Obligations.DataCommandsRaiseInOrder : Prop :=
  ∀ (s : State) (wd ws : WordIdx) (cs : SlotIdx),
    (s.slot cs = none → exec (.enc wd ws cs) s = .next (s.raised 1 1)
      ∧ exec (.dec wd ws cs) s = .next (s.raised 1 1)
      ∧ exec (.decm wd ws cs) s = .next (s.raised 1 1))
    ∧ ∀ c, s.slot cs = some c →
      ((s.word ws).length ≠ c.k → exec (.enc wd ws cs) s = .next (s.raised 1 2))
      ∧ ((s.word ws).length = c.k → (∃ x ∈ s.word ws, c.q ≤ x) →
          exec (.enc wd ws cs) s = .next (s.raised 1 3))
      ∧ ((s.word ws).length ≠ c.n → exec (.dec wd ws cs) s = .next (s.raised 1 2)
          ∧ exec (.decm wd ws cs) s = .next (s.raised 1 2))
      ∧ ((s.word ws).length = c.n → (∃ x ∈ s.word ws, c.q ≤ x) →
          exec (.dec wd ws cs) s = .next (s.raised 1 3)
          ∧ exec (.decm wd ws cs) s = .next (s.raised 1 3))

/-- 41_linear_code.md R125, R128: DEC and DECM on the same slot and source either both raise the same
exception or both succeed; then the message is the first k symbols of the codeword for the systematic
families, and for a code of any family that its constructor admits it encodes to what DEC writes. -/
def Obligations.DecAndDecmShareOneDecode : Prop :=
  ∀ (s : State) (wd ws : WordIdx) (cs : SlotIdx),
    (∃ code sub, 1 ≤ code ∧ code ≤ 4 ∧ exec (.dec wd ws cs) s = .next (s.raised code sub)
      ∧ exec (.decm wd ws cs) s = .next (s.raised code sub))
    ∨ ∃ c x msg, s.slot cs = some c
      ∧ exec (.dec wd ws cs) s = .next (s.setWord wd x).reportsSuccess
      ∧ exec (.decm wd ws cs) s = .next (s.setWord wd msg).reportsSuccess
      ∧ ((∀ r m, c.kind ≠ .rm r m) → msg = x.take c.k)
      ∧ (∀ r m, c.kind = .rm r m → x = encodeWord c msg)
      ∧ (c.ok = true → WordOver c.q c.n x ∧ WordOver c.q c.k msg ∧ x = encodeWord c msg)

/-- 41_linear_code.md R124: Encode "is linear over GF(q) in w for every family". -/
def Obligations.EncodeIsLinear : Prop :=
  ∀ (c : Code) (u v : Word) (b : Nat), c.ok = true → WordOver c.q c.k u → WordOver c.q c.k v →
    encodeWord c (wAdd c.q u v) = wAdd c.q (encodeWord c u) (encodeWord c v)
    ∧ encodeWord c (wScale c.q b u) = wScale c.q b (encodeWord c u)

/-! ### Hamming -/

/-- 42_hamming.md R141: the scan keeps exactly the nonzero tuples whose first nonzero component is 1,
(q^r - 1)/(q - 1) of them, from an enumeration of all r-tuples in lexicographic order. -/
def Obligations.HamKeptTuplesAreNormalised : Prop :=
  ∀ q r : Nat, q.Prime →
    (tuples q r).Pairwise TupleLt ∧ (∀ u, u ∈ tuples q r ↔ WordOver q r u)
    ∧ keepByScan q [] (tuples q r) = hamKept q r
    ∧ (∀ u, u ∈ hamKept q r ↔ WordOver q r u ∧ u.find? (fun x => x != 0) = some 1)
    ∧ (hamKept q r).length = (q ^ r - 1) / (q - 1)

/-- 42_hamming.md R142, R143: the columns of H are the kept tuples in descending order of
(weight, tuple), the last r are the identity, and every nonzero tuple is a nonzero multiple of exactly
one column. -/
def Obligations.HamColumnsAreSortedAndCoverEveryDirection : Prop :=
  ∀ q r : Nat, q.Prime →
    let T := hamColumns q r
    T.reverse.Perm (keepByScan q [] (tuples q r))
    ∧ (T.reverse.Pairwise fun u v => wt u < wt v ∨ (wt u = wt v ∧ TupleLt u v))
    ∧ (hamCheck q r).length = r
    ∧ (∀ i j, i < r → j < T.length → ((hamCheck q r).getD i []).getD j 0 = (T.getD j []).getD i 0)
    ∧ T.drop (T.length - r) = (List.range r).map (unit r)
    ∧ ∀ u, WordOver q r u → u ≠ zeros r →
        ∃! jb : Nat × Nat, jb.1 < T.length ∧ 1 ≤ jb.2 ∧ jb.2 < q ∧ u = wScale q jb.2 (T.getD jb.1 [])

/-- 41_linear_code.md R121, R123; 42_hamming.md R145: the Hamming encoder is systematic and every
codeword it writes has zero syndrome. -/
def Obligations.HamEncodeIsASystematicCodeword : Prop :=
  ∀ (c : Code) (r : Nat) (w : Word), c.ok = true → c.kind = .ham r → WordOver c.q c.k w →
    (encodeWord c w).take c.k = w ∧ hamSyndrome c r (encodeWord c w) = zeros r

/-- 42_hamming.md R146, R147 (a), (b), (d): on a built Hamming slot DEC and DECM complete for EVERY
word of length n over GF(q) (DF_HAM_NOMATCH is unreachable); the result has zero syndrome, differs
from the source in at most one symbol, and is the source itself when that is a codeword. -/
def Obligations.HamDecodeCommandsAlwaysComplete : Prop :=
  ∀ (s : State) (wd ws : WordIdx) (cs : SlotIdx) (c : Code) (r : Nat),
    s.slot cs = some c → c.ok = true → c.kind = .ham r → WordOver c.q c.n (s.word ws) →
    ∃ x, exec (.dec wd ws cs) s = .next (s.setWord wd x).reportsSuccess
      ∧ exec (.decm wd ws cs) s = .next (s.setWord wd (x.take c.k)).reportsSuccess
      ∧ WordOver c.q c.n x ∧ hamSyndrome c r x = zeros r ∧ distance (s.word ws) x ≤ 1
      ∧ (hamSyndrome c r (s.word ws) = zeros r → x = s.word ws)

/-- 42_hamming.md R147 (c): a codeword with one symbol changed by any nonzero magnitude decodes to the
codeword, and DECM gives its first k symbols. -/
def Obligations.HamDecodeCorrectsEverySingleError : Prop :=
  ∀ (s : State) (wd ws : WordIdx) (cs : SlotIdx) (c : Code) (r i b : Nat) (x : Word),
    s.slot cs = some c → c.ok = true → c.kind = .ham r →
    WordOver c.q c.n x → hamSyndrome c r x = zeros r → i < c.n → 1 ≤ b → b < c.q →
    s.word ws = x.set i ((x.getD i 0 + b) % c.q) →
    exec (.dec wd ws cs) s = .next (s.setWord wd x).reportsSuccess
    ∧ exec (.decm wd ws cs) s = .next (s.setWord wd (x.take c.k)).reportsSuccess

/-! ### Golay -/

/-- 44_golay.md R187 to R190: the codeword is the message followed by the message times the half of the
order (A24 or A12, its last column dropped for orders 23 and 11), and A24 is symmetric with
A24 * A24^T = I. -/
def Obligations.GolayEncodeIsMessageTimesHalf : Prop :=
  (∀ (c : Code) (w : Word), c.ok = true → c.kind = .gol → WordOver c.q c.k w →
    (encodeWord c w).length = c.n ∧ (encodeWord c w).take c.k = w
    ∧ ∀ j, j < c.n - c.k → (encodeWord c w).getD (c.k + j) 0
        = (∑ i ∈ Finset.range c.k,
            w.getD i 0 * (((if c.q = 2 then Config.a24 else Config.a12).getD i []).getD j 0)) % c.q)
  ∧ transpose 12 Config.a24 = Config.a24
  ∧ (Config.a24.map fun row => matVec 2 Config.a24 row) = identity 12

/-- 44_golay.md R194 (a) to (c), (e), (f): on a built binary Golay slot a codeword with at most three
errors decodes to the codeword, and DECM gives its message. On an order-24 slot DEC and DECM either
raise DF_GOL_NOMATCH or give a codeword that differs from the source in at most three symbols and its
message, and they raise DF_GOL_NOMATCH on every codeword with exactly four errors. -/
def Obligations.GolayCommandsCorrectThreeErrors : Prop :=
  ∀ (s : State) (wd ws : WordIdx) (cs : SlotIdx) (c : Code),
    s.slot cs = some c → c.ok = true → c.kind = .gol → c.q = 2 →
    (∀ m e : Word, WordOver 2 12 m → WordOver 2 c.n e → wt e ≤ 3 →
      s.word ws = wAdd 2 (encodeWord c m) e →
      exec (.dec wd ws cs) s = .next (s.setWord wd (encodeWord c m)).reportsSuccess
      ∧ exec (.decm wd ws cs) s = .next (s.setWord wd m).reportsSuccess)
    ∧ (c.n = 24 → WordOver 2 24 (s.word ws) →
      (exec (.dec wd ws cs) s = .next (s.raised 3 6) ∧ exec (.decm wd ws cs) s = .next (s.raised 3 6))
      ∨ ∃ m, WordOver 2 12 m ∧ distance (s.word ws) (encodeWord c m) ≤ 3
        ∧ exec (.dec wd ws cs) s = .next (s.setWord wd (encodeWord c m)).reportsSuccess
        ∧ exec (.decm wd ws cs) s = .next (s.setWord wd m).reportsSuccess)
    ∧ ∀ m e : Word, c.n = 24 → WordOver 2 12 m → WordOver 2 24 e → wt e = 4 →
      s.word ws = wAdd 2 (encodeWord c m) e →
      exec (.dec wd ws cs) s = .next (s.raised 3 6) ∧ exec (.decm wd ws cs) s = .next (s.raised 3 6)

/-- 44_golay.md R194 (f): on an order-23 slot DEC and DECM complete for EVERY binary word of length 23,
with a codeword at distance at most 3. -/
def Obligations.Golay23DecodeNeverRaises : Prop :=
  ∀ (s : State) (wd ws : WordIdx) (cs : SlotIdx) (c : Code),
    s.slot cs = some c → c.ok = true → c.kind = .gol → c.n = 23 → WordOver 2 23 (s.word ws) →
    ∃ m, WordOver 2 12 m ∧ distance (s.word ws) (encodeWord c m) ≤ 3
      ∧ exec (.dec wd ws cs) s = .next (s.setWord wd (encodeWord c m)).reportsSuccess
      ∧ exec (.decm wd ws cs) s = .next (s.setWord wd m).reportsSuccess

/-- 44_golay.md R193: decode on a Golay slot of order 11 or 12 raises NotImplemented(NI_GOLAY_TERNARY)
once the word passes, whatever the word; a word of the wrong length or with a symbol of 3 or more
still reports InvalidInput. -/
def Obligations.GolayTernaryDecodeIsNotImplemented : Prop :=
  ∀ (s : State) (wd ws : WordIdx) (cs : SlotIdx) (c : Code),
    s.slot cs = some c → c.ok = true → c.kind = .gol → (c.n = 11 ∨ c.n = 12) →
    (WordOver 3 c.n (s.word ws) → exec (.dec wd ws cs) s = .next (s.raised 4 1)
      ∧ exec (.decm wd ws cs) s = .next (s.raised 4 1))
    ∧ ((s.word ws).length ≠ c.n → exec (.dec wd ws cs) s = .next (s.raised 1 2)
      ∧ exec (.decm wd ws cs) s = .next (s.raised 1 2))
    ∧ ((s.word ws).length = c.n → (∃ x ∈ s.word ws, 3 ≤ x) →
      exec (.dec wd ws cs) s = .next (s.raised 1 3)
      ∧ exec (.decm wd ws cs) s = .next (s.raised 1 3))

/-! ### Reed–Muller -/

/-- 45_reed_muller.md R208: the rows of degree g are exactly the list positions bound(g) to
bound(g+1) - 1, with bound(0) = 0 and bound(r+1) = k rows in all. -/
def Obligations.RmBoundaryTableMarksDegrees : Prop :=
  ∀ r m : Nat, r ≤ m →
    rmBound m 0 = 0 ∧ (rmRowSets r m).length = rmBound m (r + 1)
    ∧ (∀ g, rmBound m g = ∑ i ∈ Finset.range g, m.choose i)
    ∧ ∀ g j, g ≤ r → j < (rmRowSets r m).length →
        ((rmBound m g ≤ j ∧ j < rmBound m (g + 1)) ↔ ((rmRowSets r m).getD j []).length = g)

/-- 45_reed_muller.md R206, R207: the indicators, the rows as their pointwise products, and the order
of the variable sets of one degree. -/
def Obligations.RmRowsAreProductsOfIndicators : Prop :=
  ∀ m : Nat,
    (∀ i col, i < m → col < 2 ^ m →
      (rmIndicator m i).getD col 0 = if col.testBit i then 0 else 1)
    ∧ (∀ T : List Nat, (∀ i ∈ T, i < m) →
        rmRow m T = T.foldr (fun i acc => List.zipWith (· * ·) (rmIndicator m i) acc)
          (List.replicate (2 ^ m) 1))
    ∧ ∀ g, (rmDegreeSets m g).Pairwise TupleLt
        ∧ ∀ T : List Nat, T ∈ rmDegreeSets m g ↔
            T.Pairwise (· < ·) ∧ (∀ i ∈ T, i < m) ∧ T.length = g

/-- 45_reed_muller.md R214 (b), (c): on a built Reed–Muller slot a codeword with at most t errors
decodes to the codeword, and DECM gives its message. -/
def Obligations.RmCommandsCorrectWithinRadius : Prop :=
  ∀ (s : State) (wd ws : WordIdx) (cs : SlotIdx) (c : Code) (r m : Nat) (msg e : Word),
    s.slot cs = some c → c.ok = true → c.kind = .rm r m →
    WordOver 2 c.k msg → WordOver 2 c.n e → wt e ≤ c.radius →
    s.word ws = wAdd 2 (encodeWord c msg) e →
    exec (.dec wd ws cs) s = .next (s.setWord wd (encodeWord c msg)).reportsSuccess
    ∧ exec (.decm wd ws cs) s = .next (s.setWord wd msg).reportsSuccess

/-! ### BCH -/

/-- 43_bch.md R158, 40_field_arithmetic.md R109: the model's bounded list of root exponents holds
exactly the union of the cyclotomic cosets, each exponent once. R99: a product in the extension field is
the product of the two polynomials in alpha reduced modulo f. R105: evaluating a word at u is the sum of
its symbols times the powers of u, the last symbol the constant. (Log entry 11: the model computes each
by another route.) -/
def Obligations.FieldProductsAndRootExponentsFollowTheirRules : Prop :=
  ∀ q m : Nat, q.Prime → 1 ≤ m →
    (∀ c d, (rootExponents q m (q ^ m - 1) c d).Nodup
      ∧ ∀ e, e ∈ rootExponents q m (q ^ m - 1) c d ↔
          ∃ j i, j + 1 < d ∧ e = (c + j) * q ^ i % (q ^ m - 1))
    ∧ ∀ F : ExtField, F.q = q → WordOver q m F.f →
        (∀ u v, WordOver q m u → WordOver q m v →
          WordOver q m (F.mul u v) ∧ IsProductModulo q (F.f ++ [1]) u v (F.mul u v))
        ∧ ∀ (w : Word) (u : Elem), (∀ x ∈ w, x < q) → WordOver q m u →
            F.polyEval (F.wordPoly w) u
              = (List.range w.length).foldr (fun j acc =>
                  F.add (F.mul (F.emb (w.getD (w.length - 1 - j) 0)) (F.pow u j)) acc) F.zero

/-- 43_bch.md R169, R171: on a built BCH slot every word DEC writes has all its syndromes zero, has the
source's length and differs from it in at most t symbols, and DECM writes its first k symbols. -/
def Obligations.BchDecReturnsOnlyNearbyCodewords : Prop :=
  ∀ (s t : State) (wd ws : WordIdx) (cs : SlotIdx) (c : Code) (m off : Nat) (f a : List Symbol),
    s.slot cs = some c → c.ok = true → c.kind = .bch m off f a →
    exec (.dec wd ws cs) s = .next t → t.last = 0 →
    ∃ x, WordOver c.q c.n x ∧ t = (s.setWord wd x).reportsSuccess
      ∧ exec (.decm wd ws cs) s = .next (s.setWord wd (x.take c.k)).reportsSuccess
      ∧ distance (s.word ws) x ≤ c.radius
      ∧ ∀ j, j + 1 < c.d → (bchField c.q c.n f a).polyEval ((bchField c.q c.n f a).wordPoly x)
          ((bchField c.q c.n f a).apow ((off + j : Nat) : Int)) = (bchField c.q c.n f a).zero

/-- 43_bch.md R163, R164, R173 (a), (b); 41_linear_code.md R131: on a built BCH slot DEC and DECM complete
on every word whose syndromes are all zero, and DEC returns it unchanged; a codeword plus an error of
weight at most t decodes to the codeword, and DECM gives its message. -/
def Obligations.BchCommandsCorrectWithinRadius : Prop :=
  ∀ (s : State) (wd ws : WordIdx) (cs : SlotIdx) (c : Code) (m off : Nat) (f a : List Symbol),
    s.slot cs = some c → c.ok = true → c.kind = .bch m off f a →
    (WordOver c.q c.n (s.word ws) →
    (∀ j, j + 1 < c.d →
      (bchField c.q c.n f a).polyEval ((bchField c.q c.n f a).wordPoly (s.word ws))
        ((bchField c.q c.n f a).apow ((off + j : Nat) : Int)) = (bchField c.q c.n f a).zero) →
    exec (.dec wd ws cs) s = .next (s.setWord wd (s.word ws)).reportsSuccess
    ∧ exec (.decm wd ws cs) s = .next (s.setWord wd ((s.word ws).take c.k)).reportsSuccess)
    ∧ ∀ msg e : Word, WordOver c.q c.k msg → WordOver c.q c.n e → wt e ≤ c.radius →
      s.word ws = wAdd c.q (encodeWord c msg) e →
      exec (.dec wd ws cs) s = .next (s.setWord wd (encodeWord c msg)).reportsSuccess
      ∧ exec (.decm wd ws cs) s = .next (s.setWord wd msg).reportsSuccess

/-! ### The fuzzy extractor -/

/-- 46_fuzzy_extractor.md R226: FE.NEW completes when there is no extractor and the counts fit the
binary code of the slot; with h = 1 it takes W0 and W1 as helper data. -/
def Obligations.FeNewBindsTheSlot : Prop :=
  ∀ (s : State) (cs : SlotIdx) (mb pb : Nat) (c : Code), s.fe = none → s.slot cs = some c →
    c.q = 2 → mb = c.k → mb + pb = c.n →
    exec (.feNew cs mb pb false) s = .next { s with
      fe := some { slot := cs, mbits := mb, pbits := pb, helper := none }, last := 0, cinfo := 0 }
    ∧ (WordOver 2 c.n (s.word 0) → WordOver 2 c.n (s.word 1) →
      exec (.feNew cs mb pb true) s = .next { s with
        fe := some { slot := cs, mbits := mb, pbits := pb,
                     helper := some { s := s.word 0, x := s.word 1 } }
        last := 0
        cinfo := 0 })

/-- 46_fuzzy_extractor.md R229: FE.GEN completes on a constructed extractor without helper data and a
binary word of length n; x and u are the next n + k random bits in order (which bits they are is free;
that they are an opaque sequence read at a counter is the model's choice, log entry 4). -/
def Obligations.FeGenEnrols : Prop :=
  ∀ (s : State) (wd ws : WordIdx) (fe : Extractor) (c : Code),
    s.fe = some fe → fe.helper = none → s.slot fe.slot = some c → WordOver 2 c.n (s.word ws) →
    let bit := fun i => (Config.randBit (s.draws + i)).toNat
    let x := (List.range c.n).map bit
    let u := (List.range c.k).map fun j => bit (c.n + j)
    exec (.feGen wd ws) s = .next { s with
      words := s.words.set wd.val (WordReg.ofWord (strongExtract (wAdd 2 (s.word ws) x)))
      fe := some { fe with helper := some { s := wAdd 2 (encodeWord c u) (s.word ws), x := x } }
      last := 0
      cinfo := 0
      draws := s.draws + (c.n + c.k) }

/-- 46_fuzzy_extractor.md R230, R234 (a), (b), for a binary code of any family (41_linear_code.md R131):
with helper data s = Encode(u) + w and pad x, FE.REP of any reading v that differs from w in at most t
bits completes and writes the very key StrongExtract(w + x) that FE.GEN wrote. -/
def Obligations.FeRepReproducesTheEnrolledKey : Prop :=
  ∀ (s : State) (wd ws : WordIdx) (fe : Extractor) (c : Code) (w x u : Word),
    s.fe = some fe → s.slot fe.slot = some c → c.ok = true → c.q = 2 →
    WordOver 2 c.n w → WordOver 2 c.n x → WordOver 2 c.k u →
    fe.helper = some { s := wAdd 2 (encodeWord c u) w, x := x } →
    WordOver 2 c.n (s.word ws) → distance (s.word ws) w ≤ c.radius →
    exec (.feRep wd ws) s = .next (s.setWord wd (strongExtract (wAdd 2 w x))).reportsSuccess

/-- 46_fuzzy_extractor.md R230: FE.REP of a binary word v of length n completes whenever rd = v + s
decodes, for a code of any family; the key is StrongExtract(x + (s + Encode(msg))). -/
def Obligations.FeRepCompletesWhenTheReadingDecodes : Prop :=
  ∀ (s : State) (wd ws : WordIdx) (fe : Extractor) (c : Code) (h : Helper) (cw msg : Word),
    s.fe = some fe → s.slot fe.slot = some c → fe.helper = some h →
    WordOver 2 c.n (s.word ws) → decodeWord c (wAdd 2 (s.word ws) h.s) = .ok (cw, msg) →
    exec (.feRep wd ws) s = .next (s.setWord wd
      (strongExtract (wAdd 2 h.x (wAdd 2 h.s (encodeWord c msg))))).reportsSuccess

/-- 46_fuzzy_extractor.md R231: FE.HDRD completes when helper data is set and copies the half that sel
names; without an extractor or helper data it raises FE_INVALID or NO_HELPER. -/
def Obligations.FeHdrdCopiesHelperData : Prop :=
  ∀ (s : State) (wd : WordIdx) (sel : HelperHalf),
    (s.fe = none → exec (.feHdrd wd sel) s = .next (s.raised 1 4))
    ∧ ∀ fe, s.fe = some fe →
      (fe.helper = none → exec (.feHdrd wd sel) s = .next (s.raised 1 5))
      ∧ ∀ h, fe.helper = some h →
        exec (.feHdrd wd .s) s = .next (s.setWord wd h.s).reportsSuccess
        ∧ exec (.feHdrd wd .x) s = .next (s.setWord wd h.x).reportsSuccess

/-- The exceptions of FE.NEW, FE.GEN and FE.REP in their order (46_fuzzy_extractor.md R226, R229,
R230; 60_exceptions.md R252, R253, R260). -/
def Obligations.FeCommandsRaiseInOrder : Prop :=
  ∀ (s : State),
    (∀ cs mb pb h,
      (s.fe ≠ none → exec (.feNew cs mb pb h) s = .next (s.raised 2 1))
      ∧ (s.fe = none →
        (s.slot cs = none → exec (.feNew cs mb pb h) s = .next (s.raised 2 7))
        ∧ ∀ c, s.slot cs = some c →
          ((c.q ≠ 2 ∨ mb ≠ c.k ∨ mb + pb ≠ c.n) →
            exec (.feNew cs mb pb h) s = .next (s.raised 2 7))
          ∧ (c.q = 2 → mb = c.k → mb + pb = c.n → h = true →
            ¬ (WordOver 2 c.n (s.word 0) ∧ WordOver 2 c.n (s.word 1)) →
            exec (.feNew cs mb pb h) s = .next (s.raised 2 8))))
    ∧ ∀ wd ws : WordIdx,
      (s.fe = none → exec (.feGen wd ws) s = .next (s.raised 1 4)
        ∧ exec (.feRep wd ws) s = .next (s.raised 1 4))
      ∧ ∀ fe c, s.fe = some fe → s.slot fe.slot = some c →
        (fe.helper ≠ none → exec (.feGen wd ws) s = .next (s.raised 2 9))
        ∧ (fe.helper = none → exec (.feRep wd ws) s = .next (s.raised 1 5)
          ∧ ((s.word ws).length ≠ c.n → exec (.feGen wd ws) s = .next (s.raised 1 2))
          ∧ ((s.word ws).length = c.n → (∃ x ∈ s.word ws, 2 ≤ x) →
              exec (.feGen wd ws) s = .next (s.raised 1 3)))
        ∧ ∀ h, fe.helper = some h →
          ((s.word ws).length ≠ c.n → exec (.feRep wd ws) s = .next (s.raised 1 2))
          ∧ ((s.word ws).length = c.n → (∃ x ∈ s.word ws, 2 ≤ x) →
              exec (.feRep wd ws) s = .next (s.raised 1 3))
          ∧ (WordOver 2 c.n (s.word ws) → ∀ e : Trap,
              decodeWord c (wAdd 2 (s.word ws) h.s) = .error e →
              exec (.feRep wd ws) s = .next (s.raised e.code e.sub))

/-- 46_fuzzy_extractor.md R232, R233: StrongExtract sends one byte per symbol to the hash port and gives
256 symbols, byte 0 first, the most significant bit of each byte first. -/
def Obligations.StrongExtractExpandsTheDigest : Prop :=
  ∀ v : Word, (strongExtract v).length = 256
    ∧ (∀ x ∈ strongExtract v, x < 2)
    ∧ ∀ i : Fin 256, (strongExtract v).getD i.val 0
        = (((Config.hashPort (v.map (BitVec.ofNat 8)))[i.val / 8]'(by omega)).getLsbD
            (7 - i.val % 8)).toNat
end

