-- ==== Sys2Proof/Laws/Config.lean ====
section
/-! SUPPORT. The values of the configuration (00_scope.md R5), for proofs that need the number: `omega`
does not look inside the names. -/

namespace Sys2Proof.Config

@[simp] theorem xlen_eq : xlen = 32 := rfl
@[simp] theorem aw_eq : aw = 14 := rfl
@[simp] theorem nw_eq : nw = 4 := rfl
@[simp] theorem nmax_eq : nmax = 256 := rfl
@[simp] theorem symw_eq : symw = 8 := rfl
@[simp] theorem nslot_eq : nslot = 4 := rfl
@[simp] theorem qmax_eq : qmax = 251 := rfl
@[simp] theorem digestBits_eq : digestBits = 256 := rfl
@[simp] theorem params_a24 : params.a24 = a24 := rfl
@[simp] theorem params_a12 : params.a12 = a12 := rfl
@[simp] theorem params_digest : params.digest = hashPort := rfl
@[simp] theorem params_randBit : params.randBit = randBit := rfl

end Sys2Proof.Config

namespace Sys2Proof

theorem wordIdx_lt (i : WordIdx) : i.val < 4 := i.isLt
theorem slotIdx_lt (c : SlotIdx) : c.val < 4 := c.isLt
theorem cellIdx_lt (j : Fin Config.nmax) : j.val < 256 := j.isLt
theorem regVal_lt (v : RegVal) : v.toNat < 2 ^ 32 := v.isLt
theorem offset_lt (off : Offset) : off.toNat < 2 ^ 14 := off.isLt
theorem symCell_lt (x : SymCell) : x.toNat < 256 := x.isLt

end Sys2Proof
end

