-- ==== Sys2Proof/Laws/Field.lean ====
section
/-! SUPPORT. Lengths and symbol bounds of the word and matrix operations of
40_field_arithmetic.md, so that later proofs do not unfold them. -/

namespace Sys2Proof.Machine

/-! ### Symbols -/

theorem gfAdd_lt (q a b : Nat) (h : 0 < q) : gfAdd q a b < q := Nat.mod_lt _ h
theorem gfSub_lt (q a b : Nat) (h : 0 < q) : gfSub q a b < q := Nat.mod_lt _ h
theorem gfNeg_lt (q a : Nat) (h : 0 < q) : gfNeg q a < q := Nat.mod_lt _ h
theorem gfMul_lt (q a b : Nat) (h : 0 < q) : gfMul q a b < q := Nat.mod_lt _ h

/-- The table of primes lists exactly the primes up to 251 (40_field_arithmetic.md R91). -/
theorem isPrime_iff (q : Nat) : isPrime q = true ↔ q.Prime ∧ q ≤ 251 := by
  have small : ∀ q < 252, isPrime q = true ↔ q.Prime := by decide +kernel
  constructor
  · intro h
    have hq : q ≤ 251 := by
      simp only [isPrime, Bool.and_eq_true, decide_eq_true_eq] at h
      exact h.1
    exact ⟨(small q (by omega)).1 h, hq⟩
  · rintro ⟨hp, hq⟩
    exact (small q (by omega)).2 hp

/-! ### Lengths -/

@[simp] theorem zeros_length (n : Nat) : (zeros n).length = n := by simp [zeros]
@[simp] theorem unit_length (n i : Nat) : (unit n i).length = n := by simp [unit]
@[simp] theorem wScale_length (q b : Nat) (u : Word) : (wScale q b u).length = u.length := by
  simp [wScale]
@[simp] theorem wAdd_length (q : Nat) (u v : Word) :
    (wAdd q u v).length = min u.length v.length := by simp [wAdd]
@[simp] theorem wSub_length (q : Nat) (u v : Word) :
    (wSub q u v).length = min u.length v.length := by simp [wSub]
@[simp] theorem matVec_length (q : Nat) (M : Matrix) (w : Word) :
    (matVec q M w).length = M.length := by simp [matVec]
@[simp] theorem transpose_length (n : Nat) (M : Matrix) : (transpose n M).length = n := by
  simp [transpose]
@[simp] theorem identity_length (k : Nat) : (identity k).length = k := by simp [identity]

/-- w * M has as many symbols as the rows of M, when they all have n (00_scope.md R8). -/
theorem vecMat_length (q n : Nat) (w : Word) (M : Matrix) (h : ∀ row ∈ M, row.length = n) :
    (vecMat q n w M).length = n := by
  induction w generalizing M with
  | nil => simp [vecMat]
  | cons x w ih =>
    cases M with
    | nil => simp [vecMat]
    | cons row M =>
      have hrow := h row (by simp)
      have hrest := ih M fun r hr => h r (by simp [hr])
      simp only [vecMat] at hrest
      simp [vecMat, hrow, hrest]

/-! ### Polynomials as coefficient lists (40_field_arithmetic.md R104) -/

/-- Trimming a list changes no coefficient. -/
theorem polyTrim_getD {K : Type} [DecidableEq K] (zero : K) (p : List K) (j : Nat) :
    (polyTrim zero p).getD j zero = p.getD j zero := by
  induction p generalizing j with
  | nil => rfl
  | cons c p ih =>
    unfold polyTrim
    cases ht : polyTrim zero p with
    | nil =>
      rw [ht] at ih
      by_cases hc : c = zero
      · cases j with
        | zero => simp [hc]
        | succ j => simpa [hc] using ih j
      · cases j with
        | zero => simp [hc]
        | succ j => simpa [hc] using ih j
    | cons e r =>
      rw [ht] at ih
      cases j with
      | zero => simp
      | succ j => simpa using ih j

/-- The last coefficient of a trimmed list is not zero. -/
theorem polyTrim_getLast? {K : Type} [DecidableEq K] (zero : K) (p : List K) :
    (polyTrim zero p).getLast? ≠ some zero := by
  induction p with
  | nil => simp [polyTrim]
  | cons c p ih =>
    unfold polyTrim
    cases ht : polyTrim zero p with
    | nil => by_cases hc : c = zero <;> simp [hc]
    | cons e r => simpa [ht, List.getLast?_cons] using ih

/-- The last coefficient of a trimmed list, read by its index. -/
theorem polyTrim_last_ne {K : Type} [DecidableEq K] (zero : K) (p : List K) (n : Nat)
    (h : (polyTrim zero p).length = n + 1) : p.getD n zero ≠ zero := by
  intro hz
  apply polyTrim_getLast? zero p
  rw [← polyTrim_getD] at hz
  rw [List.getLast?_eq_getElem?, h, Nat.add_sub_cancel, List.getElem?_eq_getElem (by omega)]
  rw [List.getD_eq_getElem _ _ (by omega)] at hz
  rw [hz]

/-- The zero polynomial, and no other, has no degree (R104). -/
theorem polyDeg_eq_none_iff {K : Type} [DecidableEq K] (zero : K) (p : List K) :
    polyDeg zero p = none ↔ ∀ j, p.getD j zero = zero := by
  unfold polyDeg
  cases ht : polyTrim zero p with
  | nil => simpa using fun j => by simpa [ht] using (polyTrim_getD zero p j).symm
  | cons e r =>
    simp only [reduceCtorEq, false_iff]
    exact fun hall => polyTrim_last_ne zero p r.length (by simp [ht]) (hall _)

/-- The degree is the largest index with a nonzero coefficient (R104). -/
theorem polyDeg_eq_some {K : Type} [DecidableEq K] (zero : K) (p : List K) (n : Nat)
    (h : polyDeg zero p = some n) :
    p.getD n zero ≠ zero ∧ ∀ j, n < j → p.getD j zero = zero := by
  unfold polyDeg at h
  cases ht : polyTrim zero p with
  | nil => simp [ht] at h
  | cons e r =>
    simp only [ht, Option.some.injEq] at h
    have hlen : (polyTrim zero p).length = n + 1 := by simp [ht, h]
    refine ⟨polyTrim_last_ne zero p n hlen, fun j hj => ?_⟩
    rw [← polyTrim_getD]
    exact List.getD_eq_default _ _ (by omega)

/-- Equality of polynomials is equality of all coefficients (R104). -/
theorem polyEq_iff {K : Type} [DecidableEq K] (zero : K) (p r : List K) :
    polyEq zero p r = true ↔ ∀ j, p.getD j zero = r.getD j zero := by
  unfold polyEq
  simp only [beq_iff_eq]
  constructor
  · intro h j
    rw [← polyTrim_getD zero p, ← polyTrim_getD zero r, h]
  · intro h
    induction p generalizing r with
    | nil =>
      have hr : polyDeg zero r = none := (polyDeg_eq_none_iff zero r).2 fun j => by
        simpa using (h j).symm
      unfold polyDeg at hr
      cases ht : polyTrim zero r with
      | nil => rfl
      | cons e t => simp [ht] at hr
    | cons c p ih =>
      cases r with
      | nil =>
        have hr : polyDeg zero (c :: p) = none :=
          (polyDeg_eq_none_iff zero (c :: p)).2 fun j => by simpa using h j
        unfold polyDeg at hr
        cases ht : polyTrim zero (c :: p) with
        | nil => rfl
        | cons e t => simp [ht] at hr
      | cons e t =>
        have hc : c = e := by simpa using h 0
        have ht := ih t fun j => by simpa using h (j + 1)
        simp only [polyTrim, hc, ht]

/-! ### Symbol bounds -/

theorem zeros_lt (q n : Nat) (h : 0 < q) : ∀ x ∈ zeros n, x < q := by
  intro x hx
  rw [List.eq_of_mem_replicate hx]
  exact h

theorem wAdd_lt (q : Nat) (u v : Word) (h : 0 < q) : ∀ x ∈ wAdd q u v, x < q := by
  intro x hx
  simp only [wAdd] at hx
  obtain ⟨i, hi, rfl⟩ := List.getElem_of_mem hx
  simp only [List.getElem_zipWith]
  exact gfAdd_lt q _ _ h

theorem wSub_lt (q : Nat) (u v : Word) (h : 0 < q) : ∀ x ∈ wSub q u v, x < q := by
  intro x hx
  simp only [wSub] at hx
  obtain ⟨i, hi, rfl⟩ := List.getElem_of_mem hx
  simp only [List.getElem_zipWith]
  exact gfSub_lt q _ _ h

theorem wScale_lt (q b : Nat) (u : Word) (h : 0 < q) : ∀ x ∈ wScale q b u, x < q := by
  intro x hx
  simp only [wScale, List.mem_map] at hx
  obtain ⟨y, _, rfl⟩ := hx
  exact gfMul_lt q b y h

theorem vecMat_lt (q n : Nat) (w : Word) (M : Matrix) (h : 0 < q) : ∀ x ∈ vecMat q n w M, x < q := by
  unfold vecMat
  cases List.zipWith (wScale q) w M with
  | nil => exact zeros_lt q n h
  | cons row rows => exact wAdd_lt q _ _ h

theorem matVec_lt (q : Nat) (M : Matrix) (w : Word) (h : 0 < q) : ∀ x ∈ matVec q M w, x < q := by
  intro x hx
  simp only [matVec, List.mem_map] at hx
  obtain ⟨row, _, rfl⟩ := hx
  exact Nat.mod_lt _ h

end Sys2Proof.Machine
end

