-- ==== Sys2Proof/Laws/Ops.lean ====
section
/-! SUPPORT. For each shared operation, once, everything it can answer: later proofs cite these lemmas
and do not unfold the operation. -/

namespace Sys2Proof.Machine

/-- A command always ends in a next state: that of its body with the flags of success, or the state
before it with the exception taken (10_state.md R37, 60_exceptions.md R261). -/
theorem finish_cases (s : State) (body : Except Trap State) :
    (∃ t, body = .ok t ∧ finish s body = .next t.succeed)
      ∨ ∃ e, body = .error e ∧ finish s body = .next (s.takeException e) := by
  cases body with
  | ok t => exact .inl ⟨t, rfl, rfl⟩
  | error e => exact .inr ⟨e, rfl, rfl⟩

@[simp] theorem finish_ok (s t : State) : finish s (.ok t) = .next t.succeed := rfl

@[simp] theorem finish_error (s : State) (e : Trap) :
    finish s (.error e) = .next (s.takeException e) := rfl

/-- A symbol outside GF(q) occurs exactly when some entry is at least q. -/
theorem hasNonSymbol_iff (q : Nat) (w : Word) : hasNonSymbol q w = true ↔ ∃ x ∈ w, q ≤ x := by
  simp [hasNonSymbol]

/-- No symbol outside GF(q). -/
theorem hasNonSymbol_false_iff (q : Nat) (w : Word) :
    hasNonSymbol q w = false ↔ ∀ x ∈ w, x < q := by
  simp [hasNonSymbol]

/-- `checkOperand` answers the word itself, and just when it has the length and only symbols
(41_linear_code.md R129). -/
theorem checkOperand_ok_iff (w v : Word) (L q : Nat) :
    checkOperand w L q = .ok v ↔ v = w ∧ w.length = L ∧ ∀ x ∈ w, x < q := by
  unfold checkOperand
  split
  · simp_all
  · split
    · rename_i hlen hsym
      obtain ⟨x, hx, hq⟩ := (hasNonSymbol_iff q w).1 hsym
      simp only [reduceCtorEq, false_iff, not_and, not_forall]
      exact fun _ _ => ⟨x, hx, Nat.not_lt.2 hq⟩
    · rename_i hlen hsym
      have hw := (hasNonSymbol_false_iff q w).1 (by simpa using hsym)
      simp only [Except.ok.injEq]
      exact ⟨fun h => ⟨h.symm, not_not.1 hlen, hw⟩, fun h => h.1.symm⟩

/-- Why `checkOperand` raises: the length first (41_linear_code.md R129). -/
theorem checkOperand_error_iff (w : Word) (L q : Nat) (t : Trap) :
    checkOperand w L q = .error t ↔
      (w.length ≠ L ∧ t = .iiLength) ∨ (w.length = L ∧ (∃ x ∈ w, q ≤ x) ∧ t = .iiSymbol) := by
  unfold checkOperand
  split
  · rename_i h
    simp [h, eq_comm]
  · rename_i h
    have hl : w.length = L := not_not.1 h
    split
    · rename_i hs
      simp [hl, (hasNonSymbol_iff q w).1 hs, eq_comm]
    · rename_i hs
      have hn : ¬ ∃ x ∈ w, q ≤ x := fun e => hs ((hasNonSymbol_iff q w).2 e)
      simp [hl, hn]

/-- `slotOperand` answers exactly the code of a built slot. -/
theorem slotOperand_ok_iff (s : State) (cs : SlotIdx) (c : Code) :
    slotOperand s cs = .ok c ↔ s.slot cs = some c := by
  unfold slotOperand
  split <;> simp_all

/-- `slotOperand` raises only II_SLOT_EMPTY, and just on an empty slot. -/
theorem slotOperand_error_iff (s : State) (cs : SlotIdx) (t : Trap) :
    slotOperand s cs = .error t ↔ s.slot cs = none ∧ t = .iiSlotEmpty := by
  unfold slotOperand
  cases s.slot cs <;> simp [eq_comm]

/-- `extractorOperand` answers the constructed extractor and the code of its slot. -/
theorem extractorOperand_ok_iff (s : State) (fe : Extractor) (c : Code) :
    extractorOperand s = .ok (fe, c) ↔ s.fe = some fe ∧ s.slot fe.slot = some c := by
  unfold extractorOperand
  cases hfe : s.fe with
  | none => simp
  | some fe' =>
    cases hslot : s.slot fe'.slot with
    | none =>
      simp only [reduceCtorEq, Option.some.injEq, false_iff, not_and, hslot]
      rintro rfl
      simp [hslot]
    | some c' =>
      simp only [hslot, Except.ok.injEq, Prod.mk.injEq, Option.some.injEq]
      constructor
      · rintro ⟨rfl, rfl⟩
        exact ⟨rfl, hslot⟩
      · rintro ⟨rfl, h⟩
        exact ⟨rfl, by simpa [hslot] using h⟩

/-- `extractorOperand` raises only II_FE_INVALID. -/
theorem extractorOperand_error (s : State) (t : Trap) (h : extractorOperand s = .error t) :
    t = .iiFeInvalid := by
  unfold extractorOperand at h
  split at h
  · simpa [eq_comm] using h
  · split at h
    · simpa [eq_comm] using h
    · cases h

/-- `helperOperand` answers exactly the helper data that is set. -/
theorem helperOperand_ok_iff (fe : Extractor) (h : Helper) :
    helperOperand fe = .ok h ↔ fe.helper = some h := by
  unfold helperOperand
  split <;> simp_all

/-- `helperOperand` raises only II_NO_HELPER, and just when none is set. -/
theorem helperOperand_error_iff (fe : Extractor) (t : Trap) :
    helperOperand fe = .error t ↔ fe.helper = none ∧ t = .iiNoHelper := by
  unfold helperOperand
  cases fe.helper <;> simp [eq_comm]

/-- What DEC and DECM share succeeds exactly when the slot is built, the word passes and its decoder
answers (41_linear_code.md R127, R128). -/
theorem decodeOperand_ok_iff (ws : WordIdx) (cs : SlotIdx) (s : State) (res : Word × Word) :
    decodeOperand ws cs s = .ok res ↔
      ∃ c, s.slot cs = some c ∧ (s.word ws).length = c.n ∧ (∀ x ∈ s.word ws, x < c.q)
        ∧ decodeWord c (s.word ws) = .ok res := by
  unfold decodeOperand
  cases hc : slotOperand s cs with
  | error t =>
    have hn := ((slotOperand_error_iff s cs t).1 hc).1
    simp [hn]
  | ok c =>
    have hs := (slotOperand_ok_iff s cs c).1 hc
    simp only [hs, Option.some.injEq]
    cases hw : checkOperand (s.word ws) c.n c.q with
    | error t =>
      simp only [reduceCtorEq, false_iff, not_exists, not_and]
      rintro c' rfl hlen hsym
      have hok := (checkOperand_ok_iff (s.word ws) (s.word ws) c.n c.q).2 ⟨rfl, hlen, hsym⟩
      simp [hok] at hw
    | ok v =>
      obtain ⟨rfl, hlen, hsym⟩ := (checkOperand_ok_iff _ _ _ _).1 hw
      simp only
      constructor
      · intro h
        exact ⟨c, rfl, hlen, hsym, h⟩
      · rintro ⟨c', rfl, _, _, h⟩
        exact h

end Sys2Proof.Machine
end

