-- ==== Sys2Proof/Laws/PerInstr.lean ====
section
/-! SUPPORT. Statements about every instruction as syntax, one lemma per constructor. -/

namespace Sys2Proof.Laws.OpcodeField

/-- Bits [31:26] of a well-formed command's word are its opcode (30_encoding.md R71). -/
def Statement (i : Instr) : Prop := i.wellFormed = true → field (encode i) 31 26 = opcodeOf i

theorem hamNew (cs : SlotIdx) (r q : Nat) : Statement (.hamNew cs r q) := by
  intro h
  simp [Instr.wellFormed, fitsParam] at h
  simp [encode, formatN, field, opcodeOf]
  omega

theorem bchNew (cs : SlotIdx) (q d c : Nat) : Statement (.bchNew cs q d c) := by
  intro h
  simp [Instr.wellFormed, fitsParam] at h
  simp [encode, formatN, field, opcodeOf]
  omega

theorem golNew (cs : SlotIdx) (n : Nat) : Statement (.golNew cs n) := by
  intro h
  simp [Instr.wellFormed, fitsParam] at h
  simp [encode, formatN, field, opcodeOf]
  omega

theorem rmNew (cs : SlotIdx) (r m : Nat) : Statement (.rmNew cs r m) := by
  intro h
  simp [Instr.wellFormed, fitsParam] at h
  simp [encode, formatN, field, opcodeOf]
  omega

theorem enc (wd ws : WordIdx) (cs : SlotIdx) : Statement (.enc wd ws cs) := by
  intro _
  simp [encode, formatW, field, opcodeOf]
  omega

theorem dec (wd ws : WordIdx) (cs : SlotIdx) : Statement (.dec wd ws cs) := by
  intro _
  simp [encode, formatW, field, opcodeOf]
  omega

theorem decm (wd ws : WordIdx) (cs : SlotIdx) : Statement (.decm wd ws cs) := by
  intro _
  simp [encode, formatW, field, opcodeOf]
  omega

theorem feNew (cs : SlotIdx) (mb pb : Nat) (h : Bool) : Statement (.feNew cs mb pb h) := by
  intro hw
  have hb := h.toNat_le
  simp [Instr.wellFormed, fitsBitCount] at hw
  simp [encode, formatF, field, opcodeOf]
  omega

theorem feGen (wd ws : WordIdx) : Statement (.feGen wd ws) := by
  intro _
  simp [encode, formatX, field, opcodeOf]
  omega

theorem feRep (wd ws : WordIdx) : Statement (.feRep wd ws) := by
  intro _
  simp [encode, formatX, field, opcodeOf]
  omega

theorem feHdrd (wd : WordIdx) (sel : HelperHalf) : Statement (.feHdrd wd sel) := by
  intro _
  cases sel <;> simp [encode, formatH, field, opcodeOf, selBit] <;> omega

end Sys2Proof.Laws.OpcodeField
end

