-- ==== Sys2Proof/Laws/State.lean ====
section
/-! SUPPORT. Each field after each state update, true by unfolding the update once: no later proof unfolds
a record update. Then the word and the slot after each update, and read after write. -/

namespace Sys2Proof.Machine

variable (s : State)

/-! ### setWord -/

@[simp] theorem setWord_words (i : WordIdx) (v : Word) :
    (s.setWord i v).words = s.words.set i.val (WordReg.ofWord v) := rfl
@[simp] theorem setWord_slots (i : WordIdx) (v : Word) : (s.setWord i v).slots = s.slots := rfl
@[simp] theorem setWord_fe (i : WordIdx) (v : Word) : (s.setWord i v).fe = s.fe := rfl
@[simp] theorem setWord_last (i : WordIdx) (v : Word) : (s.setWord i v).last = s.last := rfl
@[simp] theorem setWord_cinfo (i : WordIdx) (v : Word) : (s.setWord i v).cinfo = s.cinfo := rfl
@[simp] theorem setWord_esticky (i : WordIdx) (v : Word) :
    (s.setWord i v).esticky = s.esticky := rfl
@[simp] theorem setWord_port (i : WordIdx) (v : Word) : (s.setWord i v).port = s.port := rfl
@[simp] theorem setWord_response (i : WordIdx) (v : Word) :
    (s.setWord i v).response = s.response := rfl
@[simp] theorem setWord_draws (i : WordIdx) (v : Word) : (s.setWord i v).draws = s.draws := rfl
@[simp] theorem setWord_slot (i : WordIdx) (v : Word) (k : SlotIdx) :
    (s.setWord i v).slot k = s.slot k := rfl

/-! ### build -/

@[simp] theorem build_words (c : SlotIdx) (code : Code) : (s.build c code).words = s.words := rfl
@[simp] theorem build_slots (c : SlotIdx) (code : Code) :
    (s.build c code).slots = s.slots.set c.val (some code) := rfl
@[simp] theorem build_fe (c : SlotIdx) (code : Code) : (s.build c code).fe = s.fe := rfl
@[simp] theorem build_last (c : SlotIdx) (code : Code) : (s.build c code).last = s.last := rfl
@[simp] theorem build_cinfo (c : SlotIdx) (code : Code) : (s.build c code).cinfo = s.cinfo := rfl
@[simp] theorem build_esticky (c : SlotIdx) (code : Code) :
    (s.build c code).esticky = s.esticky := rfl
@[simp] theorem build_port (c : SlotIdx) (code : Code) : (s.build c code).port = s.port := rfl
@[simp] theorem build_response (c : SlotIdx) (code : Code) :
    (s.build c code).response = s.response := rfl
@[simp] theorem build_draws (c : SlotIdx) (code : Code) : (s.build c code).draws = s.draws := rfl
@[simp] theorem build_word (c : SlotIdx) (code : Code) (k : WordIdx) :
    (s.build c code).word k = s.word k := rfl

/-! ### setExtractor -/

@[simp] theorem setExtractor_words (e : Extractor) : (s.setExtractor e).words = s.words := rfl
@[simp] theorem setExtractor_slots (e : Extractor) : (s.setExtractor e).slots = s.slots := rfl
@[simp] theorem setExtractor_fe (e : Extractor) : (s.setExtractor e).fe = some e := rfl
@[simp] theorem setExtractor_last (e : Extractor) : (s.setExtractor e).last = s.last := rfl
@[simp] theorem setExtractor_cinfo (e : Extractor) : (s.setExtractor e).cinfo = s.cinfo := rfl
@[simp] theorem setExtractor_esticky (e : Extractor) : (s.setExtractor e).esticky = s.esticky := rfl
@[simp] theorem setExtractor_port (e : Extractor) : (s.setExtractor e).port = s.port := rfl
@[simp] theorem setExtractor_response (e : Extractor) :
    (s.setExtractor e).response = s.response := rfl
@[simp] theorem setExtractor_draws (e : Extractor) : (s.setExtractor e).draws = s.draws := rfl
@[simp] theorem setExtractor_slot (e : Extractor) (k : SlotIdx) :
    (s.setExtractor e).slot k = s.slot k := rfl
@[simp] theorem setExtractor_word (e : Extractor) (k : WordIdx) :
    (s.setExtractor e).word k = s.word k := rfl

/-! ### advanceDraws -/

@[simp] theorem advanceDraws_words (n : Nat) : (s.advanceDraws n).words = s.words := rfl
@[simp] theorem advanceDraws_slots (n : Nat) : (s.advanceDraws n).slots = s.slots := rfl
@[simp] theorem advanceDraws_fe (n : Nat) : (s.advanceDraws n).fe = s.fe := rfl
@[simp] theorem advanceDraws_last (n : Nat) : (s.advanceDraws n).last = s.last := rfl
@[simp] theorem advanceDraws_cinfo (n : Nat) : (s.advanceDraws n).cinfo = s.cinfo := rfl
@[simp] theorem advanceDraws_esticky (n : Nat) : (s.advanceDraws n).esticky = s.esticky := rfl
@[simp] theorem advanceDraws_port (n : Nat) : (s.advanceDraws n).port = s.port := rfl
@[simp] theorem advanceDraws_response (n : Nat) : (s.advanceDraws n).response = s.response := rfl
@[simp] theorem advanceDraws_draws (n : Nat) : (s.advanceDraws n).draws = s.draws + n := rfl
@[simp] theorem advanceDraws_slot (n : Nat) (k : SlotIdx) :
    (s.advanceDraws n).slot k = s.slot k := rfl
@[simp] theorem advanceDraws_word (n : Nat) (k : WordIdx) :
    (s.advanceDraws n).word k = s.word k := rfl

/-! ### takeException -/

@[simp] theorem takeException_words (t : Trap) : (s.takeException t).words = s.words := rfl
@[simp] theorem takeException_slots (t : Trap) : (s.takeException t).slots = s.slots := rfl
@[simp] theorem takeException_fe (t : Trap) : (s.takeException t).fe = s.fe := rfl
@[simp] theorem takeException_last (t : Trap) :
    (s.takeException t).last = BitVec.ofNat 3 t.code := rfl
@[simp] theorem takeException_cinfo (t : Trap) :
    (s.takeException t).cinfo = BitVec.ofNat 8 t.sub := rfl
@[simp] theorem takeException_esticky (t : Trap) :
    (s.takeException t).esticky = setSticky s.esticky t.code := rfl
@[simp] theorem takeException_port (t : Trap) : (s.takeException t).port = s.port := rfl
@[simp] theorem takeException_response (t : Trap) : (s.takeException t).response = s.response := rfl
@[simp] theorem takeException_draws (t : Trap) : (s.takeException t).draws = s.draws := rfl
@[simp] theorem takeException_slot (t : Trap) (k : SlotIdx) :
    (s.takeException t).slot k = s.slot k := rfl
@[simp] theorem takeException_word (t : Trap) (k : WordIdx) :
    (s.takeException t).word k = s.word k := rfl

/-! ### succeed -/

@[simp] theorem succeed_words : (s.succeed).words = s.words := rfl
@[simp] theorem succeed_slots : (s.succeed).slots = s.slots := rfl
@[simp] theorem succeed_fe : (s.succeed).fe = s.fe := rfl
@[simp] theorem succeed_last : (s.succeed).last = 0 := rfl
@[simp] theorem succeed_cinfo : (s.succeed).cinfo = 0 := rfl
@[simp] theorem succeed_esticky : (s.succeed).esticky = s.esticky := rfl
@[simp] theorem succeed_port : (s.succeed).port = s.port := rfl
@[simp] theorem succeed_response : (s.succeed).response = s.response := rfl
@[simp] theorem succeed_draws : (s.succeed).draws = s.draws := rfl
@[simp] theorem succeed_slot (k : SlotIdx) :
    (s.succeed).slot k = s.slot k := rfl
@[simp] theorem succeed_word (k : WordIdx) :
    (s.succeed).word k = s.word k := rfl

/-! ### writeCell -/

@[simp] theorem writeCell_words (r : WordIdx) (j : Fin Config.nmax) (v : RegVal) :
    (s.writeCell r j v).words = s.words.set r.val
      { s.words[r.val] with cells := (s.words[r.val]).cells.set j.val (v.setWidth Config.symw) } := rfl
@[simp] theorem writeCell_slots (r : WordIdx) (j : Fin Config.nmax) (v : RegVal) :
    (s.writeCell r j v).slots = s.slots := rfl
@[simp] theorem writeCell_fe (r : WordIdx) (j : Fin Config.nmax) (v : RegVal) :
    (s.writeCell r j v).fe = s.fe := rfl
@[simp] theorem writeCell_last (r : WordIdx) (j : Fin Config.nmax) (v : RegVal) :
    (s.writeCell r j v).last = s.last := rfl
@[simp] theorem writeCell_cinfo (r : WordIdx) (j : Fin Config.nmax) (v : RegVal) :
    (s.writeCell r j v).cinfo = s.cinfo := rfl
@[simp] theorem writeCell_esticky (r : WordIdx) (j : Fin Config.nmax) (v : RegVal) :
    (s.writeCell r j v).esticky = s.esticky := rfl
@[simp] theorem writeCell_port (r : WordIdx) (j : Fin Config.nmax) (v : RegVal) :
    (s.writeCell r j v).port = s.port := rfl
@[simp] theorem writeCell_response (r : WordIdx) (j : Fin Config.nmax) (v : RegVal) :
    (s.writeCell r j v).response = s.response := rfl
@[simp] theorem writeCell_draws (r : WordIdx) (j : Fin Config.nmax) (v : RegVal) :
    (s.writeCell r j v).draws = s.draws := rfl
@[simp] theorem writeCell_slot (r : WordIdx) (j : Fin Config.nmax) (v : RegVal) (k : SlotIdx) :
    (s.writeCell r j v).slot k = s.slot k := rfl

/-! ### writeLen -/

@[simp] theorem writeLen_words (r : WordIdx) (v : RegVal) :
    (s.writeLen r v).words = s.words.set r.val
      { s.words[r.val] with len := Fin.ofNat (Config.nmax + 1) v.toNat } := rfl
@[simp] theorem writeLen_slots (r : WordIdx) (v : RegVal) :
    (s.writeLen r v).slots = s.slots := rfl
@[simp] theorem writeLen_fe (r : WordIdx) (v : RegVal) : (s.writeLen r v).fe = s.fe := rfl
@[simp] theorem writeLen_last (r : WordIdx) (v : RegVal) : (s.writeLen r v).last = s.last := rfl
@[simp] theorem writeLen_cinfo (r : WordIdx) (v : RegVal) :
    (s.writeLen r v).cinfo = s.cinfo := rfl
@[simp] theorem writeLen_esticky (r : WordIdx) (v : RegVal) :
    (s.writeLen r v).esticky = s.esticky := rfl
@[simp] theorem writeLen_port (r : WordIdx) (v : RegVal) : (s.writeLen r v).port = s.port := rfl
@[simp] theorem writeLen_response (r : WordIdx) (v : RegVal) :
    (s.writeLen r v).response = s.response := rfl
@[simp] theorem writeLen_draws (r : WordIdx) (v : RegVal) :
    (s.writeLen r v).draws = s.draws := rfl
@[simp] theorem writeLen_slot (r : WordIdx) (v : RegVal) (k : SlotIdx) :
    (s.writeLen r v).slot k = s.slot k := rfl

/-! ### writeSticky -/

@[simp] theorem writeSticky_words (v : RegVal) : (s.writeSticky v).words = s.words := rfl
@[simp] theorem writeSticky_slots (v : RegVal) : (s.writeSticky v).slots = s.slots := rfl
@[simp] theorem writeSticky_fe (v : RegVal) : (s.writeSticky v).fe = s.fe := rfl
@[simp] theorem writeSticky_last (v : RegVal) : (s.writeSticky v).last = s.last := rfl
@[simp] theorem writeSticky_cinfo (v : RegVal) : (s.writeSticky v).cinfo = s.cinfo := rfl
@[simp] theorem writeSticky_esticky (v : RegVal) :
    (s.writeSticky v).esticky = clearSticky s.esticky v := rfl
@[simp] theorem writeSticky_port (v : RegVal) : (s.writeSticky v).port = s.port := rfl
@[simp] theorem writeSticky_response (v : RegVal) :
    (s.writeSticky v).response = s.response := rfl
@[simp] theorem writeSticky_draws (v : RegVal) : (s.writeSticky v).draws = s.draws := rfl
@[simp] theorem writeSticky_slot (v : RegVal) (k : SlotIdx) :
    (s.writeSticky v).slot k = s.slot k := rfl
@[simp] theorem writeSticky_word (v : RegVal) (k : WordIdx) :
    (s.writeSticky v).word k = s.word k := rfl

/-! ### answer -/

@[simp] theorem answer_words (p : List BusRequest) (a : BusResponse) :
    (s.answer p a).words = s.words := rfl
@[simp] theorem answer_slots (p : List BusRequest) (a : BusResponse) :
    (s.answer p a).slots = s.slots := rfl
@[simp] theorem answer_fe (p : List BusRequest) (a : BusResponse) : (s.answer p a).fe = s.fe := rfl
@[simp] theorem answer_last (p : List BusRequest) (a : BusResponse) :
    (s.answer p a).last = s.last := rfl
@[simp] theorem answer_cinfo (p : List BusRequest) (a : BusResponse) :
    (s.answer p a).cinfo = s.cinfo := rfl
@[simp] theorem answer_esticky (p : List BusRequest) (a : BusResponse) :
    (s.answer p a).esticky = s.esticky := rfl
@[simp] theorem answer_port (p : List BusRequest) (a : BusResponse) : (s.answer p a).port = p := rfl
@[simp] theorem answer_response (p : List BusRequest) (a : BusResponse) :
    (s.answer p a).response = some a := rfl
@[simp] theorem answer_draws (p : List BusRequest) (a : BusResponse) :
    (s.answer p a).draws = s.draws := rfl
@[simp] theorem answer_slot (p : List BusRequest) (a : BusResponse) (k : SlotIdx) :
    (s.answer p a).slot k = s.slot k := rfl
@[simp] theorem answer_word (p : List BusRequest) (a : BusResponse) (k : WordIdx) :
    (s.answer p a).word k = s.word k := rfl

/-! ### Read after write -/

/-- A slot that has been built holds its code. -/
@[simp] theorem build_slot_same (c : SlotIdx) (code : Code) : (s.build c code).slot c = some code := by
  simp [State.build, State.slot]

/-- Building one slot leaves the others. -/
theorem build_slot_other (c k : SlotIdx) (code : Code) (h : c ≠ k) :
    (s.build c code).slot k = s.slot k := by
  have hv : c.val ≠ k.val := fun e => h (Fin.ext e)
  simp [State.build, State.slot, hv]

/-- The length of a written register (10_state.md R22). -/
theorem ofWord_len (v : Word) (h : v.length ≤ 256) : (WordReg.ofWord v).len.val = v.length := by
  simp only [WordReg.ofWord, Fin.ofNat, Config.nmax_eq]
  omega

/-- The cells of a written register: the word below its length, 0 above (10_state.md R22). -/
theorem ofWord_cell (v : Word) (j : Nat) (h : j < Config.nmax) :
    (WordReg.ofWord v).cells[j] = BitVec.ofNat Config.symw (v.getD j 0) := by
  simp [WordReg.ofWord]

/-- A register that a word of bytes has been written to holds that word. -/
theorem ofWord_word (v : Word) (h : v.length ≤ 256) (hv : ∀ x ∈ v, x < 256) :
    (WordReg.ofWord v).word = v := by
  unfold WordReg.word
  rw [ofWord_len v h]
  apply List.ext_getElem
  · simp [h]
  · intro j h1 h2
    have hx := hv v[j] (List.getElem_mem h2)
    simpa [WordReg.ofWord, h2] using Nat.mod_eq_of_lt hx

/-- Reading a word register after writing it (10_state.md R22). -/
theorem setWord_word_same (i : WordIdx) (v : Word) (h : v.length ≤ 256) (hv : ∀ x ∈ v, x < 256) :
    (s.setWord i v).word i = v := by
  simpa [State.setWord, State.word] using ofWord_word v h hv

/-- Writing a word register leaves the others. -/
theorem setWord_words_other (i k : WordIdx) (v : Word) (h : i ≠ k) :
    (s.setWord i v).words[k.val] = s.words[k.val] := by
  have hv : i.val ≠ k.val := fun e => h (Fin.ext e)
  simp [hv]

/-- Writing a word register leaves the words of the others. -/
theorem setWord_word_other (i k : WordIdx) (v : Word) (h : i ≠ k) :
    (s.setWord i v).word k = s.word k := by
  unfold State.word
  rw [setWord_words_other s i k v h]

end Sys2Proof.Machine
end

