-- ==== Sys2Proof/Laws/Step.lean ====
section
/-! SUPPORT. Everything one step can do, once: later proofs cite the inversion and do not unfold
`step`. -/

namespace Sys2Proof.Machine

/-- A word written to CMD runs its command, or takes IC_ENCODING (10_state.md R33). -/
theorem runCommand_cases (v : RegVal) (s : State) :
    (∃ i, decode v = .ok i ∧ runCommand v s = exec i s)
      ∨ ∃ e, decode v = .error e ∧ runCommand v s = .next (s.takeException .icEncoding) := by
  unfold runCommand
  cases h : decode v with
  | ok i => exact .inl ⟨i, rfl, rfl⟩
  | error e => exact .inr ⟨e, rfl, rfl⟩

/-- A read that completes (20_memory.md R55). -/
theorem serveRead_next (off : Offset) (width : AccessWidth) (rest : List BusRequest) (s t : State)
    (h : serveRead off width rest s = .next t) :
    ∃ r, accessTarget off width = .ok r ∧ t = s.answer rest (.readData (readReg r s)) := by
  unfold serveRead at h
  cases ha : accessTarget off width with
  | error e => simp [ha] at h
  | ok r => simp [ha] at h; exact ⟨r, rfl, h.symm⟩

/-- A write that completes (20_memory.md R56): a command, or another register. -/
theorem serveWrite_next (off : Offset) (width : AccessWidth) (v : RegVal)
    (rest : List BusRequest) (s t : State) (h : serveWrite off width v rest s = .next t) :
    (accessTarget off width = .ok .cmd ∧ runCommand v (s.answer rest .writeDone) = .next t)
      ∨ ∃ r u, r ≠ .cmd ∧ accessTarget off width = .ok r ∧ writeReg r v s = .ok u
        ∧ t = u.answer rest .writeDone := by
  unfold serveWrite at h
  split at h
  · cases h
  · exact .inl ⟨by assumption, h⟩
  · rename_i r hne htarget
    split at h
    · cases h
    · rename_i u hu
      exact .inr ⟨r, u, hne, htarget, hu, by simpa using h.symm⟩

/-- Everything a step that answers a next state did. -/
theorem step_next_cases (s t : State) (h : step s = .next t) :
    (s.port = [] ∧ t = s)
    ∨ (∃ off width rest r, s.port = .read off width :: rest ∧ accessTarget off width = .ok r
        ∧ t = s.answer rest (.readData (readReg r s)))
    ∨ (∃ off width v rest, s.port = .write off width v :: rest ∧ accessTarget off width = .ok .cmd
        ∧ runCommand v (s.answer rest .writeDone) = .next t)
    ∨ (∃ off width v rest r u, s.port = .write off width v :: rest ∧ r ≠ .cmd
        ∧ accessTarget off width = .ok r ∧ writeReg r v s = .ok u ∧ t = u.answer rest .writeDone)
    ∨ ∃ rest, (s.port = .reset :: rest ∨ ∃ v, s.port = .commandCutByReset v :: rest)
        ∧ t = { s.resetBlock with port := rest } := by
  unfold step at h
  split at h
  · rename_i hp
    exact .inl ⟨hp, by simpa using h.symm⟩
  · rename_i off width rest hp
    obtain ⟨r, ha, ht⟩ := serveRead_next _ _ _ _ _ h
    exact .inr (.inl ⟨off, width, rest, r, hp, ha, ht⟩)
  · rename_i off width v rest hp
    obtain ⟨ha, hr⟩ | ⟨r, u, hne, ha, hu, ht⟩ := serveWrite_next _ _ _ _ _ _ h
    · exact .inr (.inr (.inl ⟨off, width, v, rest, hp, ha, hr⟩))
    · exact .inr (.inr (.inr (.inl ⟨off, width, v, rest, r, u, hp, hne, ha, hu, ht⟩)))
  · rename_i rest hp
    exact .inr (.inr (.inr (.inr ⟨rest, .inl hp, by simpa using h.symm⟩)))
  · rename_i v rest hp
    exact .inr (.inr (.inr (.inr ⟨rest, .inr ⟨v, hp⟩,
      by simpa [State.abandonCommand] using h.symm⟩)))

end Sys2Proof.Machine
end

