-- ==== Sys2Proof/Laws/Window.lean ====
section
/-! SUPPORT. What the operations of the register window can answer, once each. -/

namespace Sys2Proof.Machine

/-- An access is admitted exactly when it is 32 bits wide, aligned and mapped (20_memory.md R54,
R55). -/
theorem accessTarget_ok_iff (off : Offset) (width : AccessWidth) (r : WindowReg) :
    accessTarget off width = .ok r ↔
      width = .bits32 ∧ off.toNat % 4 = 0 ∧ registerAt off = some r := by
  unfold accessTarget
  split
  · simp_all
  · split
    · simp_all
    · rename_i hw ha
      have hw' : width = .bits32 := not_not.1 hw
      have ha' : off.toNat % 4 = 0 := not_not.1 ha
      cases registerAt off <;> simp [hw', ha']

/-- Everything a register write can answer when it is admitted (20_memory.md R56). -/
theorem writeReg_ok_cases (r : WindowReg) (v : RegVal) (s t : State)
    (h : writeReg r v s = .ok t) :
    (r = .cmd ∧ t = s) ∨ (r = .esticky ∧ t = s.writeSticky v)
      ∨ (∃ reg index, r = .cell reg index ∧ v.toNat < 2 ^ Config.symw ∧ t = s.writeCell reg index v)
      ∨ ∃ reg, r = .len reg ∧ v.toNat ≤ Config.nmax ∧ t = s.writeLen reg v := by
  cases r with
  | id | status | cinfo | feinfo | params => simp [writeReg] at h
  | info slot which => simp [writeReg] at h
  | cmd => simp [writeReg] at h; exact .inl ⟨rfl, h.symm⟩
  | esticky => simp [writeReg] at h; exact .inr (.inl ⟨rfl, h.symm⟩)
  | cell reg index =>
    simp only [writeReg] at h
    split at h
    · rename_i hv
      exact .inr (.inr (.inl ⟨reg, index, rfl, hv, (Except.ok.inj h).symm⟩))
    · cases h
  | len reg =>
    simp only [writeReg] at h
    split at h
    · rename_i hv
      exact .inr (.inr (.inr ⟨reg, rfl, hv, (Except.ok.inj h).symm⟩))
    · cases h

/-- A read depends on neither the port, the last answer nor the draws (20_memory.md R55). -/
theorem readReg_outside (r : WindowReg) (s : State) (p : List BusRequest) (a : Option BusResponse)
    (d : Nat) : readReg r { s with port := p, response := a, draws := d } = readReg r s := by
  cases r <;> rfl

end Sys2Proof.Machine
end

