-- ==== Sys2Proof/Tests/Slice0.lean ====
section
/-! SUPPORT. Our own tests: the ill-formed commands, the spec's command words decoded, one-step tests
with the vectors of 95_test_vectors.md, and for every statement with hypotheses a state and operands
that meet them. -/

namespace Sys2Proof.Tests

open Sys2Proof.Machine

-- One theorem after another: checked at once, their threads' stacks pass the memory limit.
set_option Elab.async false

/-! ### Ill-formed commands: one for each check of `Instr.wellFormed` -/

theorem test_illformed_ham_r : (Instr.hamNew 0 256 2).wellFormed = false := by decide
theorem test_illformed_ham_q : (Instr.hamNew 0 3 256).wellFormed = false := by decide
theorem test_illformed_bch_q : (Instr.bchNew 0 256 7 1).wellFormed = false := by decide
theorem test_illformed_bch_d : (Instr.bchNew 0 2 256 1).wellFormed = false := by decide
theorem test_illformed_bch_c : (Instr.bchNew 0 2 7 256).wellFormed = false := by decide
theorem test_illformed_gol_n : (Instr.golNew 0 256).wellFormed = false := by decide
theorem test_illformed_rm_r : (Instr.rmNew 0 256 3).wellFormed = false := by decide
theorem test_illformed_rm_m : (Instr.rmNew 0 1 256).wellFormed = false := by decide
theorem test_illformed_fe_mb : (Instr.feNew 0 1024 3 false).wellFormed = false := by decide
theorem test_illformed_fe_pb : (Instr.feNew 0 4 1024 false).wellFormed = false := by decide
theorem test_wellformed_largest : (Instr.bchNew 3 255 255 255).wellFormed = true
    ∧ (Instr.feNew 3 1023 1023 true).wellFormed = true := by decide

/-! ### Command words, the fields written out from 30_encoding.md R71 to R77 -/

theorem test_decode_ham_new :   -- opcode 000001, cs 00, p1 = 3, p2 = 2, p3 = 0
    decode 0b000001_00_00000011_00000010_00000000 = .ok (.hamNew 0 3 2) := by decide
theorem test_decode_bch_new :   -- opcode 000010, cs 01, p1 = 2, p2 = 7, p3 = 1
    decode 0b000010_01_00000010_00000111_00000001 = .ok (.bchNew 1 2 7 1) := by decide
theorem test_decode_bch_new_p3 : decode 0x0A0207FF = .ok (.bchNew 2 2 7 255) := by decide
theorem test_decode_gol_new :   -- opcode 000011, cs 10, p1 = 24
    decode 0b000011_10_00011000_00000000_00000000 = .ok (.golNew 2 24) := by decide
theorem test_decode_rm_new :    -- opcode 000100, cs 11, p1 = 1, p2 = 3
    decode 0b000100_11_00000001_00000011_00000000 = .ok (.rmNew 3 1 3) := by decide
theorem test_decode_enc :       -- opcode 001000, cs 00, wd 01, ws 00
    decode 0b001000_00_01_00_00000000000000000000 = .ok (.enc 1 0 0) := by decide
theorem test_decode_dec :       -- opcode 001001, cs 01, wd 11, ws 10
    decode 0b001001_01_11_10_00000000000000000000 = .ok (.dec 3 2 1) := by decide
theorem test_decode_decm :      -- opcode 001010, cs 11, wd 11, ws 01
    decode 0b001010_11_11_01_00000000000000000000 = .ok (.decm 3 1 3) := by decide
theorem test_decode_fe_new :    -- opcode 010000, cs 00, h 0, 000, mb = 4, pb = 3
    decode 0b010000_00_0_000_0000000100_0000000011 = .ok (.feNew 0 4 3 false) := by decide
theorem test_decode_fe_new_hd :
    decode 0b010000_00_1_000_0000000100_0000000011 = .ok (.feNew 0 4 3 true) := by decide
theorem test_decode_fe_gen :    -- opcode 010001, 00, wd 01, ws 00
    decode 0b010001_00_01_00_00000000000000000000 = .ok (.feGen 1 0) := by decide
theorem test_decode_fe_rep :    -- opcode 010010, 00, wd 11, ws 00
    decode 0b010010_00_11_00_00000000000000000000 = .ok (.feRep 3 0) := by decide
theorem test_decode_fe_hdrd_s : -- opcode 010011, 00, wd 10, 0, sel 0
    decode 0b010011_00_10_0_0_00000000000000000000 = .ok (.feHdrd 2 .s) := by decide
theorem test_decode_fe_hdrd_x :
    decode 0b010011_00_11_0_1_00000000000000000000 = .ok (.feHdrd 3 .x) := by decide

theorem test_reserved_opcodes :   -- V-ENC-14, V-ENC-21
    [0x00000000, 0xFFFFFFFF, 0x14000000, 0x2C000000, 0x50000000].all
      (fun v => decode v == .error .reservedOpcode) = true := by decide
theorem test_must_be_zero_bits :  -- V-ENC-15 to V-ENC-20
    [0x04030201, 0x0E180100, 0x0E180001, 0x20400001, 0x20480000, 0x45400000, 0x4CA00000,
      0x40101003].all (fun v => decode v == .error .nonzeroReservedBit) = true := by decide
theorem test_table_word : decodeTableWord 32 0x4100140A = some (.feNew 1 5 10 false) := by decide

/-! ### Small states -/

/-- The code of slot 0 in the examples: Hamming(3, 2) (V-HAM-1). -/
def hamCode : Code := { q := 2, n := 7, k := 4, d := 3, kind := .ham 3 }
/-- BCH over GF(5), m = 1, f = x + 2, a = 2 (V-BCH-20). -/
def bchCode : Code := { q := 5, n := 4, k := 2, d := 3, kind := .bch 1 1 [2, 1] [2] }
/-- Golay of order 24 (V-GOL-1). -/
def gol24 : Code := { q := 2, n := 24, k := 12, d := 8, kind := .gol }
/-- Golay of order 23 (V-GOL-1). -/
def gol23 : Code := { q := 2, n := 23, k := 12, d := 7, kind := .gol }
/-- Golay of order 12 (V-GOL-1). -/
def gol12 : Code := { q := 3, n := 12, k := 6, d := 6, kind := .gol }
/-- Golay of order 11 (V-GOL-1). -/
def gol11 : Code := { q := 3, n := 11, k := 6, d := 5, kind := .gol }
/-- Reed–Muller(1, 3) (V-RM-1). -/
def rmCode : Code := { q := 2, n := 8, k := 4, d := 4, kind := .rm 1 3 }
/-- The extractor on slot 0 before enrolment (V-FE-1). -/
def bareFe : Extractor := { slot := 0, mbits := 4, pbits := 3, helper := none }
/-- Its helper data after V-FE-5. -/
def helper : Helper := { s := [0, 1, 1, 1, 1, 0, 0], x := [0, 1, 1, 0, 1, 0, 0] }
/-- The extractor after V-FE-5. -/
def boundFe : Extractor := { bareFe with helper := some helper }
/-- One slot of each family. -/
def built : State :=
  (((State.reset.build 0 hamCode).build 1 bchCode).build 2 gol24).build 3 rmCode
/-- The other Golay orders. -/
def golays : State := ((State.reset.build 1 gol23).build 2 gol11).build 3 gol12
/-- One access at the port. -/
def pending (s : State) (r : BusRequest) : State := { s with port := [r] }
/-- A CMD write of v served from s. -/
def issue (s : State) (v : RegVal) : Host.Outcome State Fault Refusal :=
  step (pending s (.write 0x0004 .bits32 v))
/-- The outcome is a next state with this LAST, CINFO and, in register i, this word. -/
def gives (o : Host.Outcome State Fault Refusal) (last cinfo : Nat) (i : WordIdx) (w : Word) : Bool :=
  match o with
  | .next t => t.last.toNat == last && t.cinfo.toNat == cinfo && t.word i == w
  | _ => false
/-- The outcome is a next state in which `p` holds. -/
def nextHas (o : Host.Outcome State Fault Refusal) (p : State → Bool) : Bool :=
  match o with
  | .next t => p t
  | _ => false

/-- An outcome with `nextHas` is a next state that has it. -/
theorem next_of_nextHas (o : Host.Outcome State Fault Refusal) (p : State → Bool)
    (h : nextHas o p = true) : ∃ t, o = .next t ∧ p t = true := by
  cases o with
  | next t => exact ⟨t, rfl, h⟩
  | fault r => cases h
  | refused r => cases h

/-! ### One step of each command, with the vectors of 95_test_vectors.md -/

theorem test_ham_new :       -- V-HAM-1
    nextHas (issue .reset 0x04030200) (fun t => t.slot 0 == some hamCode && t.last == 0
      && statusReg t == 0x10 && infoReg t 0 1 == 0x000C0807) = true := by decide +kernel
theorem test_ham_new_prime_power :  -- V-HAM-5
    gives (issue .reset 0x06030400) 2 2 0 [] = true := by decide +kernel
theorem test_bch_new :       -- V-BCH-13
    nextHas (issue ((State.reset.setWord 0 [1, 1, 2]).setWord 1 [1, 0]) 0x0A030501) (fun t =>
      infoReg t 2 0 == 0x305 && infoReg t 2 1 == 0x140608 && infoReg t 2 2 == 0x102) = true := by
  decide +kernel
theorem test_bch_new_not_primitive :  -- V-BCH-33
    gives (issue ((State.reset.setWord 0 [1, 0, 1]).setWord 1 [1, 0]) 0x0A030501) 2 6 0 [1, 0, 1]
      = true := by decide +kernel
theorem test_gol_new :       -- V-GOL-1
    nextHas (issue .reset 0x0E0B0000) (fun t => t.slot 2 == some gol11) = true := by decide +kernel
theorem test_gol_new_order : -- V-GOL-2
    gives (issue .reset 0x0F160000) 2 3 0 [] = true := by decide +kernel
theorem test_rm_new :        -- V-RM-1
    nextHas (issue .reset 0x10020400) (fun t => infoReg t 0 0 == 0x209 && infoReg t 0 1 == 0x101610
      && infoReg t 0 2 == 0x402) = true := by decide +kernel
theorem test_rm_new_size :   -- V-RM-3
    gives (issue .reset 0x12010900) 2 4 0 [] = true := by decide +kernel
theorem test_enc_bch :       -- V-BCH-20
    gives (issue (built.setWord 0 [3, 1]) 0x21400000) 0 0 1 [3, 1, 0, 2] = true := by decide +kernel
theorem test_enc_in_place :  -- V-LIN-9
    gives (issue (built.setWord 0 [0, 0, 0, 1]) 0x20000000) 0 0 0 [0, 0, 0, 1, 0, 1, 1] = true := by
  decide +kernel
theorem test_dec_bch :       -- V-BCH-60
    gives (issue (built.setWord 1 [3, 2, 0, 2]) 0x25900000) 0 0 2 [3, 1, 0, 2] = true := by
  decide +kernel
theorem test_dec_golay :     -- V-GOL-4, errors 0, 12, 23
    gives (issue (built.setWord 1 [0,0,1,1,0,0,1,0,1,0,1,1,0,0,0,1,0,0,1,1,0,1,0,1]) 0x26900000) 0 0 2
      [1,0,1,1,0,0,1,0,1,0,1,1,1,0,0,1,0,0,1,1,0,1,0,0] = true := by decide +kernel
theorem test_decm_ham :      -- V-HAM-10
    gives (issue (built.setWord 1 [0, 1, 0, 1, 0, 1, 1]) 0x28D00000) 0 0 3 [0, 0, 0, 1] = true := by
  decide +kernel
theorem test_decm_rm :       -- V-RM-7
    gives (issue (built.setWord 1 [0, 0, 1, 0, 0, 0, 1, 1]) 0x2B900000) 0 0 2 [1, 0, 1, 0] = true := by
  decide +kernel
theorem test_fe_new :        -- V-FE-1
    nextHas (issue built 0x40001003) (fun t => t.fe == some bareFe && feinfoReg t == 0xC041) = true := by
  decide +kernel
theorem test_fe_new_bind :   -- V-FE-2
    gives (issue built 0x40000C04) 2 7 0 [] = true := by decide +kernel
theorem test_fe_gen :        -- V-FE-5: the latch, the length and the count of draws
    nextHas (issue ((built.setExtractor bareFe).setWord 0 [1, 1, 0, 0, 1, 0, 1]) 0x44400000) (fun t =>
      t.helperSet && t.draws == 11 && (t.words[1]).len == 256 && t.last == 0) = true := by
  decide +kernel
theorem test_fe_gen_oneshot :  -- V-FE-10
    gives (issue (built.setExtractor boundFe) 0x44400000) 2 9 1 [] = true := by decide +kernel
theorem test_fe_rep :        -- V-FE-7: what is hashed
    (match reproduceInput hamCode helper [1, 1, 0, 0, 1, 0, 0] with
      | .ok v => v == [1, 0, 1, 0, 0, 0, 1]
      | .error _ => false) = true := by decide +kernel
theorem test_fe_rep_no_helper :  -- V-FE-13
    gives (issue (built.setExtractor bareFe) 0x48800000) 1 5 2 [] = true := by decide +kernel
theorem test_fe_hdrd_s :     -- V-FE-9
    gives (issue (built.setExtractor boundFe) 0x4C800000) 0 0 2 [0, 1, 1, 1, 1, 0, 0] = true := by
  decide +kernel
theorem test_fe_hdrd_x :     -- V-FE-9
    gives (issue (built.setExtractor boundFe) 0x4CD00000) 0 0 3 [0, 1, 1, 0, 1, 0, 0] = true := by
  decide +kernel
theorem test_digest_order :  -- 2.9: Dg[0] = 0xA5, Dg[31] = 0x01
    (expandDigest (((Vector.replicate 32 0).set 0 0xA5).set 31 1)).take 8 = [1, 0, 1, 0, 0, 1, 0, 1]
    ∧ (expandDigest (((Vector.replicate 32 0).set 0 0xA5).set 31 1)).drop 248
        = [0, 0, 0, 0, 0, 0, 0, 1] := by decide +kernel
/-- GF(16) with f = x^4 + x + 1 and a = alpha (V-FLD-4, V-FLD-10). -/
def gf16 : ExtField := { q := 2, n := 15, f := [1, 1, 0, 0], a := [0, 1, 0, 0] }
theorem test_minimal_polynomials :   -- V-FLD-10; and x for the zero element (R109)
    gf16.minPoly gf16.a = [1, 1, 0, 0, 1] ∧ gf16.minPoly (gf16.apow 3) = [1, 1, 1, 1, 1]
    ∧ gf16.minPoly (gf16.apow 5) = [1, 1, 1] ∧ gf16.minPoly gf16.zero = [0, 1] := by decide +kernel
theorem test_degree :   -- R104
    polyDeg 0 [1, 0, 2, 0] = some 2 ∧ polyDeg 0 [0, 0] = none
    ∧ polyEq 0 [1, 2] [1, 2, 0, 0] = true ∧ polyEq 0 [1, 2] [1, 2, 1] = false := by decide
theorem test_params : readReg .params State.reset = 0xFB440100 := by decide
theorem test_esticky_write : -- V-MEM-13 to V-MEM-15
    clearSticky 0b00110 0x04 = 0b00100 ∧ clearSticky 0b00110 0xFFFFFFC1 = 0b00110
    ∧ clearSticky 0b00110 0xFFFFFFFF = 0 := by decide
theorem test_fetch_word :
    nextHas (step (State.reset.withFetchWord 32 0x04030200)) (fun t => t.slot 0 == some hamCode) = true := by
  decide +kernel

/-! ### For each statement with hypotheses, a state and operands that meet them -/

/-- The extractor bound and enrolled over one slot of each family. -/
def bound : State := built.setExtractor boundFe

theorem meets_PlatformResetRestoresResetState :
    (pending bound .reset).port = .reset :: []
    ∧ (pending bound (.commandCutByReset 0x44400000)).port = .commandCutByReset 0x44400000 :: [] :=
  ⟨rfl, rfl⟩

theorem meets_FeinfoShowsTheExtractor :
    bound.inv = true ∧ bound.fe = some boundFe ∧ built.inv = true ∧ built.fe = none := by
  decide +kernel

theorem meets_InfoRegistersShowTheSlot :
    built.inv = true ∧ built.slot 0 = some hamCode ∧ built.slot 1 = some bchCode
    ∧ built.slot 2 = some gol24 ∧ built.slot 3 = some rmCode
    ∧ State.reset.inv = true ∧ State.reset.slot 3 = none := by decide +kernel

/-- Each clause at the ends of its range: 255 and 256 for a cell, 256 and 257 for a length, the first
and the last offset of the hole. -/
theorem meets_WordWindowReadsAndWrites :
    (255#32).toNat ≤ 255 ∧ 255 < (256#32).toNat ∧ (256#32).toNat ≤ 256 ∧ 256 < (257#32).toNat
    ∧ (0x404 ≤ 0x404 ∧ 0x404 ≤ 0x7FC) ∧ 0x404 ≤ 0x7FC ∧ 0x7FC ≤ 0x7FC := by decide

theorem meets_AccessErrorExactlyOnInadmissibleAccess :
    (pending bound (.read 0x2FFC .bits32)).port = .read 0x2FFC .bits32 :: []
    ∧ (pending bound (.write 0x1400 .bits32 257)).port = .write 0x1400 .bits32 257 :: [] := ⟨rfl, rfl⟩

theorem meets_AdmittedReadChangesNothing :
    ∃ t, (pending bound (.read 0x0008 .bits32)).port = .read 0x0008 .bits32 :: []
      ∧ step (pending bound (.read 0x0008 .bits32)) = .next t := by
  obtain ⟨t, h, _⟩ := next_of_nextHas (step (pending bound (.read 0x0008 .bits32)))
    (fun _ => true) (by decide +kernel)
  exact ⟨t, rfl, h⟩

theorem meets_StepRunsTheDecodedCommand :
    (pending .reset (.write 0x0004 .bits32 0x04030200)).port = .write 0x0004 .bits32 0x04030200 :: []
    ∧ decode 0x04030200 = .ok (.hamNew 0 3 2) := ⟨rfl, by decide⟩

theorem meets_IllegalWordRaisesIllegalCommand :
    (pending .reset (.write 0x0004 .bits32 0)).port = .write 0x0004 .bits32 0 :: []
    ∧ ∀ row ∈ opcodeTable, (0 : RegVal) &&& row.2 ≠ row.1 := ⟨rfl, by simp [opcodeTable]⟩

theorem meets_DecodeInvertsEncode : (Instr.bchNew 3 255 255 255).wellFormed = true := by decide

theorem meets_EncodeInvertsDecode : decode 0x4CD00000 = .ok (.feHdrd 3 .x) := by decide

theorem meets_EveryCommandSucceedsOrTrapsPrecisely :
    (pending .reset (.write 0x0004 .bits32 0xFFFFFFFF)).port
      = .write 0x0004 .bits32 0xFFFFFFFF :: [] := rfl

/-- The two clauses: a command that succeeds, and one that raises. -/
theorem meets_ReportsAreWrittenAndNeverRead :
    nextHas (exec (.hamNew 0 3 2) .reset) (fun t => t.last == 0) = true
    ∧ nextHas (exec (.hamNew 0 3 4) .reset) (fun t => t.last != 0) = true := by decide +kernel

theorem meets_CommandsRaiseOnlyWhatTheRelationLists :
    bound.inv = true
    ∧ ∃ t, exec (.feGen 1 0) bound = .next t ∧ t.last ≠ 0 :=
  ⟨by decide +kernel, by
    obtain ⟨t, h, hl⟩ := next_of_nextHas (exec (.feGen 1 0) bound) (fun t => t.last != 0)
      (by decide +kernel)
    exact ⟨t, h, by simpa using hl⟩⟩

theorem meets_ResultWriteFillsTheRegister :
    ((List.replicate 256 255 : Word).length ≤ 256 ∧ ∀ x ∈ (List.replicate 256 255 : Word), x ≤ 255)
    ∧ ∃ t, exec (.feGen 1 0) bound = .next t ∧ t.last ≠ 0 :=
  ⟨⟨(List.length_replicate).le, fun _ hx => (List.eq_of_mem_replicate hx).le⟩, by
    obtain ⟨t, h, hl⟩ := next_of_nextHas (exec (.feGen 1 0) bound) (fun t => t.last != 0)
      (by decide +kernel)
    exact ⟨t, h, by simpa using hl⟩⟩

theorem writeCell_only_words (s : State) (r : WordIdx) (j : Fin Config.nmax) (v : RegVal) :
    { s.writeCell r j v with words := s.words } = s := rfl

/-- V-LIN-12: cell 7 at LEN 7 differs, the words do not. -/
theorem meets_CommandsIgnoreCellsAboveLen :
    (∀ k : WordIdx, (State.reset.setWord 1 [0, 0, 0, 1, 1, 1, 1]).word k
      = ((State.reset.setWord 1 [0, 0, 0, 1, 1, 1, 1]).writeCell 1 7 200).word k)
    ∧ { (State.reset.setWord 1 [0, 0, 0, 1, 1, 1, 1]).writeCell 1 7 200 with
          words := (State.reset.setWord 1 [0, 0, 0, 1, 1, 1, 1]).words }
        = State.reset.setWord 1 [0, 0, 0, 1, 1, 1, 1] := 
  ⟨by decide +kernel, writeCell_only_words _ 1 7 200⟩

theorem meets_BuiltSlotsNeverChange :
    ∃ t, step (pending bound (.write 0x0010 .bits32 2)) = .next t
      ∧ (pending bound (.write 0x0010 .bits32 2)).resetNext = false
      ∧ (pending bound (.write 0x0010 .bits32 2)).slot 0 = some hamCode := by
  obtain ⟨t, h, _⟩ := next_of_nextHas (step (pending bound (.write 0x0010 .bits32 2)))
    (fun _ => true) (by decide +kernel)
  exact ⟨t, h, rfl, by decide +kernel⟩

theorem meets_HelperLatchIsOneShot :
    ∃ t, step (pending bound (.write 0x0010 .bits32 2)) = .next t
      ∧ (pending bound (.write 0x0010 .bits32 2)).resetNext = false
      ∧ (pending bound (.write 0x0010 .bits32 2)).fe = some boundFe ∧ boundFe.helper ≠ none := by
  obtain ⟨t, h, _⟩ := next_of_nextHas (step (pending bound (.write 0x0010 .bits32 2)))
    (fun _ => true) (by decide +kernel)
  exact ⟨t, h, rfl, rfl, by decide⟩

theorem meets_StepKeepsTheInvariant :
    ∃ t, (pending bound (.write 0x0010 .bits32 2)).inv = true
      ∧ step (pending bound (.write 0x0010 .bits32 2)) = .next t := by
  obtain ⟨t, h, _⟩ := next_of_nextHas (step (pending bound (.write 0x0010 .bits32 2)))
    (fun _ => true) (by decide +kernel)
  exact ⟨t, by decide +kernel, h⟩

theorem meets_CodeConstructorsFrame :
    ∃ t, exec (.golNew 2 24) .reset = .next t := by
  obtain ⟨t, h, _⟩ := next_of_nextHas (exec (.golNew 2 24) .reset) (fun _ => true) (by decide +kernel)
  exact ⟨t, h⟩

theorem meets_WordCommandsFrame :
    ∃ t, exec (.feHdrd 2 .s) bound = .next t := by
  obtain ⟨t, h, _⟩ := next_of_nextHas (exec (.feHdrd 2 .s) bound) (fun _ => true) (by decide +kernel)
  exact ⟨t, h⟩

/-- FE.NEW, and FE.GEN both where it succeeds and where it raises. -/
theorem meets_ExtractorCommandsFrame :
    (∃ t, exec (.feNew 0 4 3 false) built = .next t)
    ∧ (∃ t, exec (.feGen 1 0) ((built.setExtractor bareFe).setWord 0 [1, 1, 0, 0, 1, 0, 1]) = .next t
        ∧ t.last = 0)
    ∧ ∃ t, exec (.feGen 1 0) bound = .next t ∧ t.last ≠ 0 := by
  obtain ⟨t1, h1, _⟩ := next_of_nextHas (exec (.feNew 0 4 3 false) built) (fun _ => true)
    (by decide +kernel)
  obtain ⟨t2, h2, hl2⟩ := next_of_nextHas
    (exec (.feGen 1 0) ((built.setExtractor bareFe).setWord 0 [1, 1, 0, 0, 1, 0, 1]))
    (fun t => t.last == 0) (by decide +kernel)
  obtain ⟨t3, h3, hl3⟩ := next_of_nextHas (exec (.feGen 1 0) bound) (fun t => t.last != 0)
    (by decide +kernel)
  exact ⟨⟨t1, h1⟩, ⟨t2, h2, by simpa using hl2⟩, t3, h3, by simpa using hl3⟩

theorem meets_HamNewBuildsTheCode :
    State.reset.slot 0 = none ∧ Nat.Prime 251 ∧ 251 ≤ 251 ∧ 2 ≤ 2
    ∧ (∑ i ∈ Finset.range 2, 251 ^ i) ≤ 256 := ⟨by decide, by norm_num, by decide, by decide, by decide⟩

theorem meets_GolNewBuildsTheCode :
    State.reset.slot 0 = none
    ∧ (11, 3, 6, 5) ∈ [(24, 2, 12, 8), (23, 2, 12, 7), (12, 3, 6, 6), (11, 3, 6, 5)] := by decide

theorem meets_RmNewBuildsTheCode : State.reset.slot 0 = none ∧ 8 ≤ 8 ∧ 8 ≤ 8 := by decide

/-- The registers of V-BCH-20. -/
def bchRegs : State := (State.reset.setWord 0 [1, 2]).setWord 1 [2]

theorem rootExponents_example : IsRootExponents 5 4 1 3 {1, 2} := by
  intro e
  have h5 : ∀ a i : Nat, a * 5 ^ i % 4 = a % 4 := by
    intro a i
    rw [Nat.mul_mod, Nat.pow_mod]
    simp
  constructor
  · intro he
    simp only [Finset.mem_insert, Finset.mem_singleton] at he
    rcases he with rfl | rfl
    · exact ⟨0, 0, by decide, by decide⟩
    · exact ⟨1, 0, by decide, by decide⟩
  · rintro ⟨j, i, hj, rfl⟩
    rw [h5]
    have : j = 0 ∨ j = 1 := by omega
    rcases this with rfl | rfl <;> decide

theorem order_example :
    ExtField.HasOrder { q := 5, n := 4, f := (bchRegs.word 0).reverse.dropLast,
                        a := (bchRegs.word 1).reverse } (bchRegs.word 1).reverse 4 := by
  refine ⟨by decide +kernel, ?_⟩
  intro j h1 h2
  have : j = 1 ∨ j = 2 ∨ j = 3 := by omega
  rcases this with rfl | rfl | rfl <;> decide +kernel

theorem meets_BchNewBuildsTheCode :
    bchRegs.slot 1 = none ∧ Nat.Prime 5 ∧ 5 ≤ 251 ∧ 1 ≤ 3
    ∧ (bchRegs.word 0).length = 1 + 1 ∧ 1 ≤ 1 ∧ (∀ x ∈ bchRegs.word 0, x < 5)
    ∧ (bchRegs.word 0).head? = some 1 ∧ 4 = 5 ^ 1 - 1 ∧ 4 ≤ 256
    ∧ WordOver 5 1 (bchRegs.word 1)
    ∧ ExtField.HasOrder { q := 5, n := 4, f := (bchRegs.word 0).reverse.dropLast,
                          a := (bchRegs.word 1).reverse } (bchRegs.word 1).reverse 4
    ∧ IsRootExponents 5 4 1 3 {1, 2} ∧ ({1, 2} : Finset Nat).card < 4 :=
  ⟨by decide +kernel, by norm_num, by decide, by decide, by decide +kernel, by decide,
    by decide +kernel, by decide +kernel, by decide, by decide, by decide +kernel, order_example,
    rootExponents_example, by decide⟩

/-- Each clause: a built slot; q past its range; r, the size, the order and m just past theirs. -/
theorem meets_CodeConstructorsRaiseInOrder :
    built.slot 0 ≠ none ∧ State.reset.slot 0 = none ∧ ¬ (Nat.Prime 257 ∧ 257 ≤ 251)
    ∧ (Nat.Prime 2 ∧ 2 ≤ 251 ∧ 1 < 2)
    ∧ (2 ≤ 9 ∧ 256 < ∑ i ∈ Finset.range 9, 2 ^ i)
    ∧ 25 ∉ [11, 12, 23, 24] ∧ 3 < 4 ∧ (9 ≤ 9 ∧ 8 < 9) :=
  ⟨by decide +kernel, by decide, by omega, ⟨by norm_num, by decide, by decide⟩, by decide, by decide,
    by decide, by decide⟩

/-- Each clause of the chain: q, d, W0, the size n = 624, W1 too long, W1 of order 2, and k = 0. -/
theorem meets_BchNewRaisesInOrder :
    bchRegs.slot 1 = none ∧ ¬ (Nat.Prime 256 ∧ 256 ≤ 251) ∧ (Nat.Prime 5 ∧ 5 ≤ 251)
    ∧ (State.reset.word 0).length < 2
    ∧ 256 < 5 ^ 4 - 1
    ∧ ¬ WordOver 5 1 ((bchRegs.setWord 1 [2, 0]).word 1)
    ∧ ¬ ExtField.HasOrder { q := 5, n := 4, f := [2], a := [4] } [4] 4
    ∧ ∃ E : Finset Nat, IsRootExponents 5 4 1 6 E ∧ E.card = 4 := by
  refine ⟨by decide +kernel, by omega, ⟨by norm_num, by decide⟩, by decide +kernel, by decide,
    by decide +kernel, fun h => h.2 2 (by decide) (by decide) (by decide), {0, 1, 2, 3}, ?_, by decide⟩
  intro e
  have h5 : ∀ a i : Nat, a * 5 ^ i % 4 = a % 4 := by
    intro a i
    rw [Nat.mul_mod, Nat.pow_mod]
    simp
  constructor
  · intro he
    simp only [Finset.mem_insert, Finset.mem_singleton] at he
    rcases he with rfl | rfl | rfl | rfl
    · exact ⟨3, 0, by decide, by decide⟩
    · exact ⟨0, 0, by decide, by decide⟩
    · exact ⟨1, 0, by decide, by decide⟩
    · exact ⟨2, 0, by decide, by decide⟩
  · rintro ⟨j, i, hj, rfl⟩
    rw [h5]
    have : (1 + j) % 4 < 4 := Nat.mod_lt _ (by decide)
    simp only [Finset.mem_insert, Finset.mem_singleton]
    omega

theorem meets_EncWritesTheCodeword :
    (built.setWord 0 [3, 4]).slot 1 = some bchCode ∧ bchCode.ok = true
    ∧ WordOver 5 2 ((built.setWord 0 [3, 4]).word 0)
    ∧ bchCode.kind = .bch 1 1 [2, 1] [2] ∧ 1 + 1 < bchCode.d := by decide +kernel

/-- The Reed–Muller clause, at the last column. -/
theorem meets_EncWritesTheCodeword_rm :
    (built.setWord 0 [1, 0, 1, 1]).slot 3 = some rmCode ∧ rmCode.ok = true
    ∧ WordOver 2 4 ((built.setWord 0 [1, 0, 1, 1]).word 0) ∧ rmCode.kind = .rm 1 3 ∧ 7 < 2 ^ 3 := by
  decide +kernel

/-- An empty slot; a length one off for ENC and for DEC; the largest and the first wrong symbol. -/
theorem meets_DataCommandsRaiseInOrder :
    State.reset.slot 3 = none ∧ built.slot 0 = some hamCode
    ∧ ((built.setWord 0 [0, 0, 0, 1, 0]).word 0).length ≠ hamCode.k
    ∧ (((built.setWord 0 [0, 0, 0, 2]).word 0).length = hamCode.k
        ∧ ∃ x ∈ (built.setWord 0 [0, 0, 0, 2]).word 0, hamCode.q ≤ x)
    ∧ ((built.setWord 0 [0, 0, 0, 1, 0, 0]).word 0).length ≠ hamCode.n
    ∧ (((built.setWord 0 [0, 0, 0, 1, 0, 0, 2]).word 0).length = hamCode.n
        ∧ ∃ x ∈ (built.setWord 0 [0, 0, 0, 1, 0, 0, 2]).word 0, hamCode.q ≤ x) := by decide +kernel

/-- A slot whose code its constructor admits, on which DEC succeeds. -/
theorem meets_DecAndDecmShareOneDecode :
    bchCode.ok = true
    ∧ nextHas (exec (.dec 2 0 1) (built.setWord 0 [3, 2, 0, 2])) (fun t => t.last == 0) = true := by
  decide +kernel

theorem meets_EncodeIsLinear :
    bchCode.ok = true ∧ WordOver 5 2 [4, 1] ∧ WordOver 5 2 [3, 3] := by decide +kernel

theorem meets_HamStatements : Nat.Prime 3 := Nat.prime_three

theorem meets_HamEncodeIsASystematicCodeword :
    hamCode.ok = true ∧ hamCode.kind = .ham 3 ∧ WordOver 2 4 [0, 0, 0, 1] := by decide +kernel

theorem meets_HamDecodeCommandsAlwaysComplete :
    (built.setWord 0 [1, 1, 0, 1, 0, 1, 1]).slot 0 = some hamCode ∧ hamCode.ok = true
    ∧ hamCode.kind = .ham 3 ∧ WordOver 2 7 ((built.setWord 0 [1, 1, 0, 1, 0, 1, 1]).word 0) := by
  decide +kernel

theorem meets_HamDecodeCorrectsEverySingleError :
    built.slot 0 = some hamCode ∧ hamCode.ok = true ∧ hamCode.kind = .ham 3
    ∧ WordOver 2 7 [0, 0, 0, 1, 0, 1, 1] ∧ hamSyndrome hamCode 3 [0, 0, 0, 1, 0, 1, 1] = zeros 3
    ∧ 6 < hamCode.n ∧ 1 ≤ 1 ∧ 1 < hamCode.q
    ∧ (built.setWord 0 [0, 0, 0, 1, 0, 1, 0]).word 0
        = [0, 0, 0, 1, 0, 1, 1].set 6 (([0, 0, 0, 1, 0, 1, 1].getD 6 0 + 1) % hamCode.q) := by
  decide +kernel

theorem meets_GolayEncodeIsMessageTimesHalf :
    gol11.ok = true ∧ gol11.kind = .gol ∧ WordOver 3 6 [1, 2, 0, 0, 1, 2] := by decide +kernel

theorem meets_GolayCommandsCorrectThreeErrors :
    (built.setWord 0 (wAdd 2 (encodeWord gol24 (unit 12 0)) (wAdd 2 (unit 24 0) (unit 24 23)))).slot 2
      = some gol24 ∧ gol24.ok = true ∧ gol24.kind = .gol ∧ gol24.q = 2
    ∧ WordOver 2 12 (unit 12 0) ∧ WordOver 2 24 (wAdd 2 (unit 24 0) (unit 24 23))
    ∧ wt (wAdd 2 (unit 24 0) (unit 24 23)) ≤ 3
    ∧ (built.setWord 0 (wAdd 2 (encodeWord gol24 (unit 12 0)) (wAdd 2 (unit 24 0) (unit 24 23)))).word 0
      = wAdd 2 (encodeWord gol24 (unit 12 0)) (wAdd 2 (unit 24 0) (unit 24 23)) := by decide +kernel

/-- The order-24 clauses: V-GOL-5, four errors at 0 to 3 on C. -/
theorem meets_GolayCommandsCorrectThreeErrors_four :
    gol24.n = 24 ∧ WordOver 2 12 [1,0,1,1,0,0,1,0,1,0,1,1] ∧ WordOver 2 24 ([1,1,1,1] ++ zeros 20)
    ∧ wt ([1,1,1,1] ++ zeros 20) = 4
    ∧ WordOver 2 24 ((built.setWord 0 [0,1,0,0,0,0,1,0,1,0,1,1,1,0,0,1,0,0,1,1,0,1,0,0]).word 0)
    ∧ (built.setWord 0 [0,1,0,0,0,0,1,0,1,0,1,1,1,0,0,1,0,0,1,1,0,1,0,0]).word 0
        = wAdd 2 (encodeWord gol24 [1,0,1,1,0,0,1,0,1,0,1,1]) ([1,1,1,1] ++ zeros 20) := by
  decide +kernel

theorem meets_Golay23DecodeNeverRaises :
    golays.slot 1 = some gol23 ∧ gol23.ok = true ∧ gol23.kind = .gol ∧ gol23.n = 23
    ∧ WordOver 2 23 ((golays.setWord 0 (unit 23 22)).word 0) := by decide +kernel

/-- A word that passes, a word one too short, a word with the symbol 3. -/
theorem meets_GolayTernaryDecodeIsNotImplemented :
    golays.slot 3 = some gol12 ∧ gol12.ok = true ∧ gol12.kind = .gol
    ∧ (gol12.n = 11 ∨ gol12.n = 12)
    ∧ WordOver 3 12 ((golays.setWord 0 (List.replicate 12 2)).word 0)
    ∧ ((golays.setWord 0 (zeros 11)).word 0).length ≠ gol12.n
    ∧ (((golays.setWord 0 (List.replicate 12 3)).word 0).length = gol12.n
        ∧ ∃ x ∈ (golays.setWord 0 (List.replicate 12 3)).word 0, 3 ≤ x) := by decide +kernel

/-- The first and the last position of the table of RM(1, 3). -/
theorem meets_RmBoundaryTableMarksDegrees :
    1 ≤ 3 ∧ 0 ≤ 1 ∧ 0 < (rmRowSets 1 3).length ∧ 1 ≤ 1 ∧ 3 < (rmRowSets 1 3).length := by
  decide +kernel

theorem meets_RmRowsAreProductsOfIndicators :
    2 < 3 ∧ 7 < 2 ^ 3 ∧ ∀ i ∈ [0, 2], i < 3 := by decide

theorem meets_RmCommandsCorrectWithinRadius :
    built.slot 3 = some rmCode ∧ rmCode.ok = true ∧ rmCode.kind = .rm 1 3
    ∧ WordOver 2 4 [1, 0, 1, 1] ∧ WordOver 2 8 (unit 8 5) ∧ wt (unit 8 5) ≤ rmCode.radius
    ∧ (built.setWord 0 [1, 1, 0, 0, 0, 1, 1, 1]).word 0
        = wAdd 2 (encodeWord rmCode [1, 0, 1, 1]) (unit 8 5) := by decide +kernel

theorem meets_FieldProductsAndRootExponentsFollowTheirRules :
    Nat.Prime 2 ∧ 1 ≤ 4 ∧ gf16.q = 2 ∧ WordOver 2 4 gf16.f ∧ WordOver 2 4 [0, 1, 1, 0]
    ∧ WordOver 2 4 [1, 1, 1, 0] ∧ ∀ x ∈ [1, 0, 1, 1, 1], x < 2 :=
  ⟨Nat.prime_two, by decide, rfl, by decide, by decide, by decide, by decide⟩

theorem meets_BchDecReturnsOnlyNearbyCodewords :
    ∃ t, (built.setWord 0 [3, 2, 0, 2]).slot 1 = some bchCode ∧ bchCode.ok = true
      ∧ bchCode.kind = .bch 1 1 [2, 1] [2]
      ∧ exec (.dec 2 0 1) (built.setWord 0 [3, 2, 0, 2]) = .next t ∧ t.last = 0 := by
  obtain ⟨t, h, hl⟩ := next_of_nextHas (exec (.dec 2 0 1) (built.setWord 0 [3, 2, 0, 2]))
    (fun t => t.last == 0) (by decide +kernel)
  exact ⟨t, by decide +kernel, by decide +kernel, rfl, h, by simpa using hl⟩

/-- The error clause: C of V-BCH-20 with the symbol at index 3 changed, at weight t = 1. -/
theorem meets_BchCommandsCorrectWithinRadius_error :
    WordOver 5 2 [3, 1] ∧ WordOver 5 4 [0, 0, 0, 4] ∧ wt [0, 0, 0, 4] ≤ bchCode.radius
    ∧ (built.setWord 0 [3, 1, 0, 1]).word 0 = wAdd 5 (encodeWord bchCode [3, 1]) [0, 0, 0, 4] := by
  decide +kernel

theorem meets_BchCommandsCorrectWithinRadius :
    built.slot 1 = some bchCode ∧ bchCode.ok = true ∧ bchCode.kind = .bch 1 1 [2, 1] [2]
    ∧ WordOver 5 4 ((built.setWord 0 [3, 1, 0, 2]).word 0)
    ∧ ∀ j, j + 1 < bchCode.d →
      (bchField 5 4 [2, 1] [2]).polyEval
          ((bchField 5 4 [2, 1] [2]).wordPoly ((built.setWord 0 [3, 1, 0, 2]).word 0))
        ((bchField 5 4 [2, 1] [2]).apow ((1 + j : Nat) : Int)) = (bchField 5 4 [2, 1] [2]).zero := by
  refine ⟨by decide +kernel, by decide +kernel, rfl, by decide +kernel, ?_⟩
  intro j hj
  have : j = 0 ∨ j = 1 := by
    simp only [bchCode] at hj
    omega
  rcases this with rfl | rfl <;> decide +kernel

theorem meets_FeNewBindsTheSlot :
    built.fe = none ∧ built.slot 0 = some hamCode ∧ hamCode.q = 2 ∧ 4 = hamCode.k
    ∧ 4 + 3 = hamCode.n
    ∧ WordOver 2 7 (((built.setWord 0 (unit 7 0)).setWord 1 (zeros 7)).word 0)
    ∧ WordOver 2 7 (((built.setWord 0 (unit 7 0)).setWord 1 (zeros 7)).word 1) := by decide +kernel

theorem meets_FeGenEnrols :
    (built.setExtractor bareFe).fe = some bareFe ∧ bareFe.helper = none
    ∧ (built.setExtractor bareFe).slot bareFe.slot = some hamCode
    ∧ WordOver 2 7 (((built.setExtractor bareFe).setWord 0 (unit 7 3)).word 0) := by decide +kernel

theorem meets_FeRepReproducesTheEnrolledKey :
    bound.fe = some boundFe ∧ bound.slot boundFe.slot = some hamCode ∧ hamCode.ok = true
    ∧ hamCode.q = 2
    ∧ WordOver 2 7 [1, 1, 0, 0, 1, 0, 1] ∧ WordOver 2 7 [0, 1, 1, 0, 1, 0, 0]
    ∧ WordOver 2 4 [1, 0, 1, 1]
    ∧ boundFe.helper = some { s := wAdd 2 (encodeWord hamCode [1, 0, 1, 1]) [1, 1, 0, 0, 1, 0, 1],
                              x := [0, 1, 1, 0, 1, 0, 0] }
    ∧ WordOver 2 7 ((bound.setWord 0 [1, 1, 0, 0, 1, 0, 0]).word 0)
    ∧ distance ((bound.setWord 0 [1, 1, 0, 0, 1, 0, 0]).word 0) [1, 1, 0, 0, 1, 0, 1]
        ≤ hamCode.radius := by
  decide +kernel

theorem meets_FeRepCompletesWhenTheReadingDecodes :
    bound.fe = some boundFe ∧ bound.slot boundFe.slot = some hamCode ∧ boundFe.helper = some helper
    ∧ WordOver 2 7 ((bound.setWord 0 [1, 1, 0, 0, 1, 0, 0]).word 0)
    ∧ decodeWord hamCode (wAdd 2 ((bound.setWord 0 [1, 1, 0, 0, 1, 0, 0]).word 0) helper.s)
        = .ok ([1, 0, 1, 1, 0, 0, 1], [1, 0, 1, 1]) := by decide +kernel

/-- No extractor; one without and one with helper data. -/
theorem meets_FeHdrdCopiesHelperData :
    built.fe = none ∧ (built.setExtractor bareFe).fe = some bareFe ∧ bareFe.helper = none
    ∧ bound.fe = some boundFe ∧ boundFe.helper = some helper := by decide +kernel

/-- The extractor over RM(1, 3), whose decoder can tie (V-RM-6). -/
def rmFe : State :=
  built.setExtractor { slot := 3, mbits := 4, pbits := 4, helper := some { s := zeros 8, x := zeros 8 } }

theorem meets_FeCommandsRaiseInOrder :
    bound.fe ≠ none ∧ built.fe = none ∧ State.reset.slot 0 = none ∧ built.slot 0 = some hamCode
    ∧ (hamCode.q ≠ 2 ∨ 4 ≠ hamCode.k ∨ 4 + 4 ≠ hamCode.n)
    ∧ ¬ (WordOver 2 7 (built.word 0) ∧ WordOver 2 7 (built.word 1))
    ∧ bound.slot boundFe.slot = some hamCode ∧ boundFe.helper ≠ none ∧ bareFe.helper = none
    ∧ ((built.setWord 0 (zeros 6)).word 0).length ≠ hamCode.n
    ∧ (((built.setWord 0 [2, 0, 0, 0, 0, 0, 0]).word 0).length = hamCode.n
        ∧ ∃ x ∈ (built.setWord 0 [2, 0, 0, 0, 0, 0, 0]).word 0, 2 ≤ x)
    ∧ WordOver 2 8 ((rmFe.setWord 0 [1, 1, 0, 0, 0, 1, 0, 1]).word 0)
    ∧ decodeWord rmCode (wAdd 2 ((rmFe.setWord 0 [1, 1, 0, 0, 0, 1, 0, 1]).word 0) (zeros 8))
        = .error .dfRmTie := by decide +kernel

end Sys2Proof.Tests
end

/-! ## What each command can do

For the body of every command the states it can answer, once; then one summary of what a step by a
command is made of. -/

namespace Sys2Proof.Machine

/-- The body of a command: what it answers before `finish` writes the reporting registers. -/
def commandBody (i : Instr) (s : State) : Except Trap State :=
  match i with
  | .hamNew cs r q => buildHamming cs r q s
  | .bchNew cs q d c => buildBch cs q d c s
  | .golNew cs n => buildGolay cs n s
  | .rmNew cs r m => buildReedMuller cs r m s
  | .enc wd ws cs => encodeCommand wd ws cs s
  | .dec wd ws cs => (decodeOperand ws cs s).map fun result => s.setWord wd result.1
  | .decm wd ws cs => (decodeOperand ws cs s).map fun result => s.setWord wd result.2
  | .feNew cs mb pb h => bindExtractor cs mb pb h s
  | .feGen wd ws => generateHelper wd ws s
  | .feRep wd ws => reproduce wd ws s
  | .feHdrd wd sel => readHelper wd sel s

/-- Every command is its body, ended by `finish` (10_state.md R37). -/
theorem exec_eq_finish (i : Instr) (s : State) : exec i s = finish s (commandBody i s) := by
  cases i <;> rfl

/-- A test of a command lets it go on exactly when its condition does not hold. -/
theorem raiseIf_ok_iff {α : Type} (p : Prop) [Decidable p] (e : Trap) (x : Except Trap α) (a : α) :
    (if p then .error e else x) = .ok a ↔ ¬ p ∧ x = .ok a := by
  by_cases hp : p <;> simp [hp]

theorem map_ok_iff {α β : Type} (f : α → β) (x : Except Trap α) (b : β) :
    x.map f = .ok b ↔ ∃ a, x = .ok a ∧ f a = b := by
  cases x <;> simp [Except.map]

/-! ### The four constructors of codes -/

/-- HAM.NEW succeeds exactly after the tests of 42_hamming.md R140. -/
theorem buildHamming_ok_iff (cs : SlotIdx) (r q : Nat) (s t : State) :
    buildHamming cs r q s = .ok t ↔
      s.slot cs = none ∧ isPrime q = true ∧ 2 ≤ r ∧ hamLength q r ≤ 256
        ∧ s.build cs
            { q := q, n := hamLength q r, k := hamLength q r - r, d := 3, kind := .ham r } = t := by
  simp [buildHamming, raiseIf_ok_iff, Nat.succ_le_iff]

/-- GOL.NEW succeeds exactly on an empty slot and one of the four orders (44_golay.md R185). -/
theorem buildGolay_ok_iff (cs : SlotIdx) (n : Nat) (s t : State) :
    buildGolay cs n s = .ok t ↔
      s.slot cs = none ∧ ∃ q k d, golParams n = some (q, k, d)
        ∧ s.build cs { q := q, n := n, k := k, d := d, kind := .gol } = t := by
  simp only [buildGolay, raiseIf_ok_iff]
  rcases golParams n with _ | ⟨q, k, d⟩ <;> simp

/-- RM.NEW succeeds exactly after the tests of 45_reed_muller.md R205. -/
theorem buildReedMuller_ok_iff (cs : SlotIdx) (r m : Nat) (s t : State) :
    buildReedMuller cs r m s = .ok t ↔
      s.slot cs = none ∧ r ≤ m ∧ m ≤ 8
        ∧ s.build cs
            { q := 2, n := 2 ^ m, k := rmBound m (r + 1), d := 2 ^ (m - r), kind := .rm r m } = t := by
  simp [buildReedMuller, raiseIf_ok_iff]

/-- A word is taken for f when it has two symbols or more, all of GF(q), and begins with 1
(43_bch.md R155). -/
theorem badPolyWord_false_iff (q : Nat) (fw : Word) :
    badPolyWord q fw = false ↔ 2 ≤ fw.length ∧ (∀ x ∈ fw, x < q) ∧ fw.head? = some 1 := by
  cases fw with
  | nil => simp [badPolyWord]
  | cons x fw => simp [badPolyWord, hasNonSymbol, and_assoc, Nat.one_le_iff_ne_zero]

/-- BCH.NEW succeeds exactly after the tests of 43_bch.md R155. -/
theorem buildBch_ok_iff (cs : SlotIdx) (q d c : Nat) (s t : State) :
    buildBch cs q d c s = .ok t ↔
      s.slot cs = none ∧ isPrime q = true ∧ 1 ≤ d ∧ badPolyWord q (s.word 0) = false
        ∧ ∃ m n, m = (s.word 0).length - 1 ∧ n = q ^ m - 1 ∧ n ≤ 256 ∧ WordOver q m (s.word 1)
          ∧ (bchField q n (s.word 0).reverse (s.word 1).reverse).isPrimitive = true
          ∧ 1 ≤ n - (rootExponents q m n c d).length
          ∧ s.build cs
              { q := q, n := n, k := n - (rootExponents q m n c d).length, d := d,
                kind := .bch m c (s.word 0).reverse (s.word 1).reverse } = t := by
  simp [buildBch, raiseIf_ok_iff, hasNonSymbol_false_iff, Nat.one_le_iff_ne_zero, and_assoc]

/-! ### The commands on words -/

/-- An operand check answers the word when it is one over GF(q) of the length asked for, and raises
otherwise (41_linear_code.md R129). -/
theorem checkOperand_cases (w : Word) (L q : Nat) :
    (WordOver q L w ∧ checkOperand w L q = .ok w)
      ∨ (¬ WordOver q L w ∧ ∃ e, checkOperand w L q = .error e) := by
  cases h : checkOperand w L q with
  | ok v =>
    obtain ⟨rfl, hw⟩ := (checkOperand_ok_iff w v L q).1 h
    exact .inl ⟨hw, rfl⟩
  | error e =>
    refine .inr ⟨fun hw => ?_, e, rfl⟩
    simp [(checkOperand_ok_iff w w L q).2 ⟨rfl, hw⟩] at h

/-- ENC succeeds exactly on a message word of a built slot (41_linear_code.md R126). -/
theorem encodeCommand_ok_iff (wd ws : WordIdx) (cs : SlotIdx) (s t : State) :
    encodeCommand wd ws cs s = .ok t ↔
      ∃ c, s.slot cs = some c ∧ WordOver c.q c.k (s.word ws)
        ∧ s.setWord wd (encodeWord c (s.word ws)) = t := by
  unfold encodeCommand slotOperand
  cases s.slot cs with
  | none => simp
  | some c =>
    obtain ⟨hw, hcheck⟩ | ⟨hw, e, hcheck⟩ := checkOperand_cases (s.word ws) c.k c.q
    · simp [hcheck, eq_true hw]
    · simp [hcheck, hw]

/-- FE.GEN succeeds exactly on a constructed extractor without helper data and a binary word of the
code's length (46_fuzzy_extractor.md R229). -/
theorem generateHelper_ok_iff (wd ws : WordIdx) (s t : State) :
    generateHelper wd ws s = .ok t ↔
      ∃ fe c, s.fe = some fe ∧ s.slot fe.slot = some c ∧ fe.helper = none
        ∧ WordOver 2 c.n (s.word ws) ∧ enrol wd fe c (s.word ws) s = t := by
  unfold generateHelper
  cases hx : extractorOperand s with
  | error e =>
    simp only [reduceCtorEq, false_iff]
    rintro ⟨fe, c, hfe, hslot, _⟩
    simp [(extractorOperand_ok_iff s fe c).2 ⟨hfe, hslot⟩] at hx
  | ok p =>
    obtain ⟨fe, c⟩ := p
    obtain ⟨hfe, hslot⟩ := (extractorOperand_ok_iff s fe c).1 hx
    obtain ⟨hw, hcheck⟩ | ⟨hw, e, hcheck⟩ := checkOperand_cases (s.word ws) c.n 2
    · simp [raiseIf_ok_iff, hcheck, eq_true hw, hfe, hslot]
    · simp [raiseIf_ok_iff, hcheck, hw, hfe, hslot]

/-- FE.REP that succeeds has hashed what the reading decodes to (46_fuzzy_extractor.md R230). -/
theorem reproduce_ok_iff (wd ws : WordIdx) (s t : State) :
    reproduce wd ws s = .ok t ↔
      ∃ fe c h key, s.fe = some fe ∧ s.slot fe.slot = some c ∧ fe.helper = some h
        ∧ WordOver 2 c.n (s.word ws) ∧ reproduceInput c h (s.word ws) = .ok key
        ∧ s.setWord wd (strongExtract key) = t := by
  unfold reproduce
  cases hx : extractorOperand s with
  | error e =>
    simp only [reduceCtorEq, false_iff]
    rintro ⟨fe, c, h, key, hfe, hslot, _⟩
    simp [(extractorOperand_ok_iff s fe c).2 ⟨hfe, hslot⟩] at hx
  | ok p =>
    obtain ⟨fe, c⟩ := p
    obtain ⟨hfe, hslot⟩ := (extractorOperand_ok_iff s fe c).1 hx
    unfold helperOperand
    cases hh : fe.helper with
    | none => simp [hfe, hh]
    | some h =>
      obtain ⟨hw, hcheck⟩ | ⟨hw, e, hcheck⟩ := checkOperand_cases (s.word ws) c.n 2
      · cases hin : reproduceInput c h (s.word ws) <;> simp [hcheck, eq_true hw, hfe, hslot, hh, hin]
      · simp [hcheck, hw, hfe, hslot, hh]

/-- FE.HDRD succeeds exactly when helper data is set (46_fuzzy_extractor.md R231). -/
theorem readHelper_ok_iff (wd : WordIdx) (sel : HelperHalf) (s t : State) :
    readHelper wd sel s = .ok t ↔
      ∃ fe h, s.fe = some fe ∧ fe.helper = some h ∧ s.setWord wd (helperHalf h sel) = t := by
  unfold readHelper helperOperand
  cases hfe : s.fe with
  | none => simp
  | some fe => cases hh : fe.helper <;> simp [hh]

/-! ### FE.NEW -/

/-- A word is taken for half of the helper data when it is a binary word of length n
(46_fuzzy_extractor.md R226). -/
theorem badHelperWord_false_iff (n : Nat) (w : Word) :
    badHelperWord n w = false ↔ WordOver 2 n w := by
  simp [badHelperWord, hasNonSymbol_false_iff]

theorem badBinding_false_iff (c : Code) (mb pb : Nat) :
    badBinding c mb pb = false ↔ c.q = 2 ∧ mb = c.k ∧ mb + pb = c.n := by
  simp [badBinding, and_assoc]

/-- The helper data FE.NEW binds: none, or with h = 1 the words of W0 and W1
(46_fuzzy_extractor.md R226). -/
def suppliedHelper (s : State) (h : Bool) : Option Helper :=
  if h then some { s := s.word 0, x := s.word 1 } else none

/-- FE.NEW succeeds exactly when there is no extractor, the counts fit the binary code of the slot and
the words supplied are helper data (46_fuzzy_extractor.md R226). -/
theorem bindExtractor_ok_iff (cs : SlotIdx) (mb pb : Nat) (h : Bool) (s t : State) :
    bindExtractor cs mb pb h s = .ok t ↔
      s.fe = none ∧ ∃ c, s.slot cs = some c ∧ c.q = 2 ∧ mb = c.k ∧ mb + pb = c.n
        ∧ (h = true → WordOver 2 c.n (s.word 0) ∧ WordOver 2 c.n (s.word 1))
        ∧ s.setExtractor { slot := cs, mbits := mb, pbits := pb, helper := suppliedHelper s h }
            = t := by
  simp only [bindExtractor, raiseIf_ok_iff]
  cases s.slot cs with
  | none => simp
  | some c =>
    cases h <;>
      simp [raiseIf_ok_iff, badBinding_false_iff, badHelperWord_false_iff, suppliedHelper, and_assoc]

end Sys2Proof.Machine


/-! ## The codes the constructors build, and the length of a codeword -/

namespace Sys2Proof.Machine

/-! ### Parameters of the families -/

theorem two_le_of_isPrime {q : Nat} (hq : isPrime q = true) : 2 ≤ q :=
  ((isPrime_iff q).1 hq).1.two_le

theorem le_of_isPrime {q : Nat} (hq : isPrime q = true) : q ≤ 251 := ((isPrime_iff q).1 hq).2

/-- The Hamming length is 1 + q + ... + q^(r-1) (42_hamming.md R140). -/
theorem hamLength_eq_sum (q r : Nat) (hq : 2 ≤ q) :
    hamLength q r = ∑ i ∈ Finset.range r, q ^ i := (Nat.geomSum_eq hq r).symm

/-- A Hamming code has a message symbol: n > r (42_hamming.md R140). -/
theorem lt_hamLength (q r : Nat) (hq : 2 ≤ q) (hr : 2 ≤ r) : r < hamLength q r := by
  rw [hamLength_eq_sum q r hq]
  induction r, hr using Nat.le_induction with
  | base =>
    rw [Finset.sum_range_succ, Finset.sum_range_one, pow_zero, pow_one]
    omega
  | succ r _ ih =>
    have hpow : 0 < q ^ r := Nat.pow_pos (by omega)
    rw [Finset.sum_range_succ]
    omega

/-- The boundary of degree g counts the monomials of the degrees below it (45_reed_muller.md R208). -/
theorem rmBound_eq_sum (m g : Nat) : rmBound m g = ∑ i ∈ Finset.range g, m.choose i := rfl

theorem rmBound_pos (m r : Nat) : 1 ≤ rmBound m (r + 1) := by
  rw [rmBound_eq_sum, Finset.sum_range_succ']
  simp

theorem rmBound_le (m r : Nat) (h : r ≤ m) : rmBound m (r + 1) ≤ 2 ^ m := by
  rw [rmBound_eq_sum, ← Nat.sum_range_choose]
  exact Finset.sum_le_sum_of_subset (Finset.range_mono (by omega))

/-- The four rows of the Golay table (44_golay.md R186). -/
theorem golParams_eq_some_iff (n q k d : Nat) :
    golParams n = some (q, k, d) ↔
      (n, q, k, d) ∈ [(24, 2, 12, 8), (23, 2, 12, 7), (12, 3, 6, 6), (11, 3, 6, 5)] := by
  unfold golParams
  split_ifs <;> simp_all [eq_comm]

/-! ### The code each constructor builds is one that it admits (10_state.md R25) -/

theorem hammingCode_ok (q r : Nat) (hq : isPrime q = true) (hr : 2 ≤ r) (hn : hamLength q r ≤ 256) :
    ({ q := q, n := hamLength q r, k := hamLength q r - r, d := 3, kind := .ham r } : Code).ok
      = true := by
  have hlt := lt_hamLength q r (two_le_of_isPrime hq) hr
  simp only [Code.ok, Code.kindOk, hq, Bool.true_and, Bool.and_eq_true, decide_eq_true_eq]
  exact ⟨by omega, hr, trivial, trivial, trivial⟩

theorem golayCode_ok (n q k d : Nat) (h : golParams n = some (q, k, d)) :
    ({ q := q, n := n, k := k, d := d, kind := .gol } : Code).ok = true := by
  have hrow := (golParams_eq_some_iff n q k d).1 h
  simp only [List.mem_cons, Prod.mk.injEq, List.not_mem_nil, or_false] at hrow
  simp only [Code.ok, Code.kindOk, h, beq_self_eq_true, Bool.and_true, decide_eq_true_eq]
  omega

theorem reedMullerCode_ok (r m : Nat) (hr : r ≤ m) (hm : m ≤ 8) :
    ({ q := 2, n := 2 ^ m, k := rmBound m (r + 1), d := 2 ^ (m - r), kind := .rm r m } : Code).ok
      = true := by
  have hn : 2 ^ m ≤ 2 ^ 8 := Nat.pow_le_pow_right (by omega) hm
  have hd : 2 ^ (m - r) ≤ 2 ^ 8 := Nat.pow_le_pow_right (by omega) (by omega)
  have hpos : 0 < 2 ^ (m - r) := Nat.two_pow_pos _
  have hk := rmBound_le m r hr
  have hk1 := rmBound_pos m r
  simp only [Code.ok, Code.kindOk, Bool.and_eq_true, decide_eq_true_eq]
  exact ⟨by omega, trivial, hr, hm, trivial, trivial, trivial⟩

theorem bchCode_ok (q d c m n : Nat) (f a : List Symbol) (hq : isPrime q = true) (hd : 1 ≤ d)
    (hd' : d < 256) (hc : c < 256) (hf : f.length = m + 1) (hm : 1 ≤ m) (hfsym : ∀ x ∈ f, x < q)
    (hlead : f.getLast? = some 1) (hn : n = q ^ m - 1) (hn' : n ≤ 256) (ha : WordOver q m a)
    (hprim : (bchField q n f a).isPrimitive = true)
    (hk : 1 ≤ n - (rootExponents q m n c d).length) :
    ({ q := q, n := n, k := n - (rootExponents q m n c d).length, d := d,
       kind := .bch m c f a } : Code).ok = true := by
  have hfsym' := (hasNonSymbol_false_iff q f).2 hfsym
  have hasym' := (hasNonSymbol_false_iff q a).2 ha.2
  simp only [Code.ok, Code.kindOk, hq, hfsym', hasym', hprim, Bool.not_false, Bool.and_true,
    Bool.true_and, Bool.and_eq_true, decide_eq_true_eq]
  exact ⟨by omega, ⟨hm, hf, hlead, ha.1, hc⟩, hn, trivial⟩

/-! ### What holds of a code its constructor admits -/

section
variable {c : Code} (hc : c.ok = true)
include hc

/-- Whatever the family (10_state.md R25). -/
theorem Code.ok_bounds : 1 ≤ c.k ∧ c.k ≤ c.n ∧ c.n ≤ 256 ∧ 1 ≤ c.d ∧ c.d ≤ 256 := by
  simp only [Code.ok, Bool.and_eq_true, decide_eq_true_eq] at hc
  exact hc.1

theorem Code.ok_kindOk : c.kindOk = true := by
  simp only [Code.ok, Bool.and_eq_true] at hc
  exact hc.2

theorem Code.ok_ham {r : Nat} (hkind : c.kind = .ham r) :
    isPrime c.q = true ∧ 2 ≤ r ∧ c.n = hamLength c.q r ∧ c.k = c.n - r ∧ c.d = 3 := by
  simpa [Code.kindOk, hkind] using Code.ok_kindOk hc

theorem Code.ok_bch {m off : Nat} {f a : List Symbol} (hkind : c.kind = .bch m off f a) :
    isPrime c.q = true ∧ (1 ≤ m ∧ off < 256) ∧ WordOver c.q (m + 1) f ∧ f.getLast? = some 1
      ∧ WordOver c.q m a ∧ c.n = c.q ^ m - 1
      ∧ c.k = c.n - (rootExponents c.q m c.n off c.d).length
      ∧ (bchField c.q c.n f a).isPrimitive = true := by
  have h := Code.ok_kindOk hc
  simp only [Code.kindOk, hkind, Bool.and_eq_true, Bool.not_eq_true', decide_eq_true_eq,
    hasNonSymbol_false_iff] at h
  obtain ⟨⟨⟨⟨⟨hq, hf⟩, ha⟩, hm, hflen, hlead, halen, hoff⟩, hn, hk⟩, hprim⟩ := h
  exact ⟨hq, ⟨hm, hoff⟩, ⟨hflen, hf⟩, hlead, ⟨halen, ha⟩, hn, hk, hprim⟩

theorem Code.ok_gol (hkind : c.kind = .gol) : golParams c.n = some (c.q, c.k, c.d) := by
  simpa [Code.kindOk, hkind] using Code.ok_kindOk hc

theorem Code.ok_rm {r m : Nat} (hkind : c.kind = .rm r m) :
    c.q = 2 ∧ r ≤ m ∧ m ≤ 8 ∧ c.n = 2 ^ m ∧ c.k = rmBound m (r + 1) ∧ c.d = 2 ^ (m - r) := by
  simpa [Code.kindOk, hkind] using Code.ok_kindOk hc

end

/-! ### Lengths of generator matrices and polynomials -/

theorem hconcat_row_length (A B : Matrix) (a b : Nat) (hA : ∀ row ∈ A, row.length = a)
    (hB : ∀ row ∈ B, row.length = b) : ∀ row ∈ hconcat A B, row.length = a + b := by
  intro row hrow
  unfold hconcat at hrow
  obtain ⟨i, hi, rfl⟩ := List.getElem_of_mem hrow
  simp only [List.getElem_zipWith, List.length_append]
  rw [hA _ (List.getElem_mem _), hB _ (List.getElem_mem _)]

theorem identity_row_length (k : Nat) : ∀ row ∈ identity k, row.length = k := by
  simp [identity]

/-- A row of genMat(H) has k entries and one for each row of H (41_linear_code.md R121). -/
theorem genMat_row_length (q k : Nat) (H : Matrix) :
    ∀ row ∈ genMat q k H, row.length = k + H.length := by
  refine hconcat_row_length _ _ _ _ (identity_row_length k) fun row hrow => ?_
  simp only [matNeg, transpose, List.map_map, List.mem_map] at hrow
  obtain ⟨j, _, rfl⟩ := hrow
  simp

theorem golHalf_row_length (c : Code) (hk : golParams c.n = some (c.q, c.k, c.d)) :
    ∀ row ∈ golHalf Config.params c.n, row.length = c.n - c.k := by
  have hrow := (golParams_eq_some_iff _ _ _ _).1 hk
  simp only [List.mem_cons, Prod.mk.injEq, List.not_mem_nil, or_false] at hrow
  obtain ⟨hn, _, hk, _⟩ | ⟨hn, _, hk, _⟩ | ⟨hn, _, hk, _⟩ | ⟨hn, _, hk, _⟩ := hrow <;>
    rw [hn, hk] <;> decide

theorem subLeading_length (q h : Nat) (p g : Word) : (subLeading q h p g).length = p.length := by
  induction p generalizing g with
  | nil => cases g <;> rfl
  | cons x p ih => cases g <;> simp [subLeading, ih]

theorem divSteps_length (q : Nat) (g : Word) (steps : Nat) (p : Word) :
    (divSteps q g steps p).length = p.length - steps := by
  induction steps generalizing p with
  | zero => rfl
  | succ k ih => cases p <;> simp [divSteps, ih, subLeading_length]

theorem polyAdd_length (F : ExtField) (p r : Poly) :
    (F.polyAdd p r).length = max p.length r.length := by
  induction p generalizing r with
  | nil => simp [ExtField.polyAdd]
  | cons c p ih => cases r <;> simp [ExtField.polyAdd, ih]

theorem linearProduct_length (F : ExtField) (vs : List Elem) :
    (F.linearProduct vs).length = vs.length + 1 := by
  have hfold : ∀ p : Poly, (vs.foldl F.mulLinear p).length = p.length + vs.length := by
    induction vs with
    | nil => simp
    | cons v vs ih =>
      intro p
      simp only [List.foldl_cons, ih, ExtField.mulLinear, polyAdd_length, List.length_map,
        List.length_cons]
      omega
  simp [ExtField.linearProduct, hfold, Nat.add_comm]

theorem bchGenPoly_length (F : ExtField) (c d : Nat) :
    (bchGenPoly F c d).length = (rootExponents F.q F.m F.n c d).length + 1 := by
  simp [bchGenPoly, basePoly, ExtField.rootProduct, linearProduct_length]

theorem rootExponents_length_le (q m n c d : Nat) : (rootExponents q m n c d).length ≤ n :=
  (List.length_filter_le _ _).trans_eq List.length_range

/-! ### The length of a codeword -/

theorem linEncode_length (q n : Nat) (G : Matrix) (w : Word) (h : ∀ row ∈ G, row.length = n) :
    (linEncode q n G w).length = n := vecMat_length q n w G h

/-- Encode answers a word of length n for every message of length k (41_linear_code.md R124). -/
theorem encodeWord_length (c : Code) (w : Word) (hc : c.ok = true) (hw : w.length = c.k) :
    (encodeWord c w).length = c.n := by
  obtain ⟨hk, hkn, -, -, -⟩ := Code.ok_bounds hc
  unfold encodeWord
  cases hkind : c.kind with
  | ham r =>
    obtain ⟨-, -, -, hkr, -⟩ := Code.ok_ham hc hkind
    refine linEncode_length _ _ _ _ fun row hrow => ?_
    have hlen := genMat_row_length _ _ _ row hrow
    rw [hamCheck, transpose_length] at hlen
    omega
  | bch m off f a =>
    obtain ⟨-, -, hf, -, -, -, hkr, -⟩ := Code.ok_bch hc hkind
    have hm : (bchField c.q c.n f a).m = m := by simp [bchField, ExtField.m, hf.1]
    have hg : (bchGenPoly (bchField c.q c.n f a) off c.d).length
        = (rootExponents c.q m c.n off c.d).length + 1 := by
      rw [bchGenPoly_length, hm]
      rfl
    have hle := rootExponents_length_le c.q m c.n off c.d
    simp only [bchEncode, polyRem, List.length_append, List.length_map, divSteps_length,
      zeros_length, hg]
    omega
  | gol =>
    refine linEncode_length _ _ _ _ fun row hrow => ?_
    have hlen := hconcat_row_length _ _ _ _ (identity_row_length c.k)
      (golHalf_row_length c (Code.ok_gol hc hkind)) row hrow
    omega
  | rm r m =>
    obtain ⟨-, -, -, hn, -, -⟩ := Code.ok_rm hc hkind
    rw [hn]
    refine linEncode_length _ _ _ _ fun row hrow => ?_
    simp only [rmGen, rmRow, List.mem_map] at hrow
    obtain ⟨T, _, rfl⟩ := hrow
    simp

end Sys2Proof.Machine


/-! ## What a command writes, and what a step is made of -/

namespace Sys2Proof.Machine

/-- What a command that succeeds writes besides the reporting registers. -/
inductive Update where
  /-- A result word (10_state.md R22). -/
  | word (wd : WordIdx) (v : Word)
  /-- A slot becomes built (10_state.md R26). -/
  | code (cs : SlotIdx) (c : Code)
  /-- The extractor is constructed (46_fuzzy_extractor.md R226). -/
  | extractor (fe : Extractor)
  /-- FE.GEN: `n` bits drawn, the helper latch set, the key written (46_fuzzy_extractor.md R229). -/
  | enrolment (wd : WordIdx) (n : Nat) (fe : Extractor) (key : Word)

def Update.apply : Update → State → State
  | .word wd v, s => s.setWord wd v
  | .code cs c, s => s.build cs c
  | .extractor fe, s => s.setExtractor fe
  | .enrolment wd n fe key, s => ((s.advanceDraws n).setExtractor fe).setWord wd key

/-- The word register in which the command delivers a word and nothing else. -/
def resultWord : Instr → Option WordIdx
  | .enc wd _ _ | .dec wd _ _ | .decm wd _ _ | .feRep wd _ | .feHdrd wd _ => some wd
  | _ => none

/-- The slot the command constructs a code in. -/
def builtSlot : Instr → Option SlotIdx
  | .hamNew cs _ _ | .bchNew cs _ _ _ | .golNew cs _ | .rmNew cs _ _ => some cs
  | _ => none

/-- In state s the command i can succeed with the update. -/
inductive Makes (s : State) : Instr → Update → Prop
  | word {i wd v} (hi : resultWord i = some wd) : Makes s i (.word wd v)
  | code {i cs c} (hi : builtSlot i = some cs) (hempty : s.slot cs = none)
      (hok : i.wellFormed = true → c.ok = true) : Makes s i (.code cs c)
  | extractor {cs mb pb h fe} (hnone : s.fe = none) (hok : fe.ok s = true) :
      Makes s (.feNew cs mb pb h) (.extractor fe)
  | enrolment {wd ws fe c h key} (hfe : s.fe = some fe) (hslot : s.slot fe.slot = some c)
      (hbare : fe.helper = none) (hok : c.ok = true → h.ok c.n = true) :
      Makes s (.feGen wd ws) (.enrolment wd (c.n + c.k) { fe with helper := some h } key)

/-! ### The fields after an update -/

section
variable (u : Update) (s : State)

@[simp] theorem apply_last : (u.apply s).last = s.last := by cases u <;> rfl
@[simp] theorem apply_cinfo : (u.apply s).cinfo = s.cinfo := by cases u <;> rfl
@[simp] theorem apply_esticky : (u.apply s).esticky = s.esticky := by cases u <;> rfl
@[simp] theorem apply_port : (u.apply s).port = s.port := by cases u <;> rfl
@[simp] theorem apply_response : (u.apply s).response = s.response := by cases u <;> rfl

end

/-! ### Every command that succeeds makes one update -/

theorem Helper.ok_iff (n : Nat) (h : Helper) :
    h.ok n = true ↔ WordOver 2 n h.s ∧ WordOver 2 n h.x := by
  simp only [Helper.ok, decide_eq_true_eq]

theorem drawBits_wordOver (start n : Nat) : WordOver 2 n (drawBits start n) := by
  refine ⟨by simp [drawBits], fun x hx => ?_⟩
  simp only [drawBits, List.mem_map] at hx
  obtain ⟨i, _, rfl⟩ := hx
  exact Nat.lt_succ_of_le (Bool.toNat_le _)

/-- What FE.GEN draws and masks is helper data (46_fuzzy_extractor.md R229, 10_state.md R28). -/
theorem enrolHelper_ok (c : Code) (w x u : Word) (hc : c.ok = true) (hw : WordOver 2 c.n w)
    (hx : WordOver 2 c.n x) (hu : WordOver 2 c.k u) : (enrolHelper c w x u).ok c.n = true := by
  have hlen := encodeWord_length c u hc hu.1
  exact (Helper.ok_iff _ _).2
    ⟨⟨by simp [enrolHelper, hlen, hw.1], wAdd_lt 2 _ _ (by omega)⟩, hx⟩

/-- The helper data FE.NEW takes from W0 and W1 is well-formed (46_fuzzy_extractor.md R226). -/
theorem suppliedHelper_ok (s : State) (h : Bool) (n : Nat)
    (hw : h = true → WordOver 2 n (s.word 0) ∧ WordOver 2 n (s.word 1)) :
    (suppliedHelper s h).all (Helper.ok n) = true := by
  cases h with
  | false => rfl
  | true => exact (Helper.ok_iff _ _).2 (hw rfl)

/-- The one inversion of the commands: a body that succeeds has made one update. -/
theorem commandBody_ok (i : Instr) (s t : State) (h : commandBody i s = .ok t) :
    ∃ u, Makes s i u ∧ t = u.apply s := by
  cases i with
  | hamNew cs r q =>
    obtain ⟨hempty, hq, hr, hn, rfl⟩ := (buildHamming_ok_iff cs r q s t).1 h
    exact ⟨.code cs _, .code rfl hempty fun _ => hammingCode_ok q r hq hr hn, rfl⟩
  | bchNew cs q d c =>
    obtain ⟨hempty, hq, hd, hpoly, m, n, hm, hn, hn', ha, hprim, hk, rfl⟩ :=
      (buildBch_ok_iff cs q d c s t).1 h
    obtain ⟨hlen, hsym, hlead⟩ := (badPolyWord_false_iff q (s.word 0)).1 hpoly
    refine ⟨.code cs _, .code rfl hempty fun hwf => ?_, rfl⟩
    simp only [Instr.wellFormed, fitsParam, Bool.and_eq_true, decide_eq_true_eq] at hwf
    obtain ⟨⟨-, hd'⟩, hc⟩ := hwf
    exact bchCode_ok q d c m n _ _ hq hd hd' hc (by simp; omega) (by omega) (by simpa using hsym)
      (by simpa using hlead) hn hn' ⟨by simpa using ha.1, by simpa using ha.2⟩ hprim hk
  | golNew cs n =>
    obtain ⟨hempty, q, k, d, hp, rfl⟩ := (buildGolay_ok_iff cs n s t).1 h
    exact ⟨.code cs _, .code rfl hempty fun _ => golayCode_ok n q k d hp, rfl⟩
  | rmNew cs r m =>
    obtain ⟨hempty, hr, hm, rfl⟩ := (buildReedMuller_ok_iff cs r m s t).1 h
    exact ⟨.code cs _, .code rfl hempty fun _ => reedMullerCode_ok r m hr hm, rfl⟩
  | enc wd ws cs =>
    obtain ⟨c, _, _, rfl⟩ := (encodeCommand_ok_iff wd ws cs s t).1 h
    exact ⟨.word wd _, .word rfl, rfl⟩
  | dec wd ws cs =>
    obtain ⟨res, _, rfl⟩ := (map_ok_iff _ _ t).1 h
    exact ⟨.word wd res.1, .word rfl, rfl⟩
  | decm wd ws cs =>
    obtain ⟨res, _, rfl⟩ := (map_ok_iff _ _ t).1 h
    exact ⟨.word wd res.2, .word rfl, rfl⟩
  | feNew cs mb pb h' =>
    obtain ⟨hnone, c, hslot, hq, hmb, hpb, hw, rfl⟩ := (bindExtractor_ok_iff cs mb pb h' s t).1 h
    have hhelper := suppliedHelper_ok s h' c.n hw
    refine ⟨.extractor _, .extractor hnone ?_, rfl⟩
    simp [Extractor.ok, hslot, hq, hhelper, ← hmb, hpb]
  | feGen wd ws =>
    obtain ⟨fe, c, hfe, hslot, hbare, hw, rfl⟩ := (generateHelper_ok_iff wd ws s t).1 h
    exact ⟨.enrolment wd _ _ _, .enrolment hfe hslot hbare fun hc =>
      enrolHelper_ok c _ _ _ hc hw (drawBits_wordOver _ _) (drawBits_wordOver _ _), rfl⟩
  | feRep wd ws =>
    obtain ⟨fe, c, h', key, _, _, _, _, _, rfl⟩ := (reproduce_ok_iff wd ws s t).1 h
    exact ⟨.word wd _, .word rfl, rfl⟩
  | feHdrd wd sel =>
    obtain ⟨fe, h', _, _, rfl⟩ := (readHelper_ok_iff wd sel s t).1 h
    exact ⟨.word wd _, .word rfl, rfl⟩

/-- Every command completes: with one update and the flags of success, or with the exception taken. -/
theorem exec_cases (i : Instr) (s : State) :
    (∃ u, Makes s i u ∧ exec i s = .next (u.apply s).succeed)
      ∨ ∃ e, exec i s = .next (s.takeException e) := by
  rw [exec_eq_finish]
  obtain ⟨t, hbody, hfin⟩ | ⟨e, -, hfin⟩ := finish_cases s (commandBody i s)
  · obtain ⟨u, hu, rfl⟩ := commandBody_ok i s t hbody
    exact .inl ⟨u, hu, hfin⟩
  · exact .inr ⟨e, hfin⟩

theorem exec_next_cases (i : Instr) (s t : State) (h : exec i s = .next t) :
    (∃ u, Makes s i u ∧ t = (u.apply s).succeed) ∨ ∃ e, t = s.takeException e := by
  obtain ⟨u, hu, hnext⟩ | ⟨e, hnext⟩ := exec_cases i s <;>
    obtain rfl : _ = t := Host.Outcome.next.inj (hnext.symm.trans h)
  · exact .inl ⟨u, hu, rfl⟩
  · exact .inr ⟨e, rfl⟩

end Sys2Proof.Machine


/-! ## What a command looks at

A command reads the words the registers hold, the slots, the extractor and the place in the random bits,
and nothing else: two states that agree in these make the same updates. -/

namespace Sys2Proof.Machine

/-- The two states agree in all that a command looks at (10_state.md R21, R37). -/
structure SameView (s s' : State) : Prop where
  word : ∀ k, s'.word k = s.word k
  slots : s'.slots = s.slots
  fe : s'.fe = s.fe
  draws : s'.draws = s.draws

/-- The two bodies raise the same exception, or make the same update, each in its own state. -/
def SameUpdate (s s' : State) (b b' : Except Trap State) : Prop :=
  ∃ r : Except Trap Update, b = r.map (fun u => u.apply s) ∧ b' = r.map (fun u => u.apply s')

section
variable {s s' : State}

theorem SameUpdate.error (e : Trap) : SameUpdate s s' (.error e) (.error e) :=
  ⟨.error e, rfl, rfl⟩

theorem SameUpdate.ok (u : Update) : SameUpdate s s' (.ok (u.apply s)) (.ok (u.apply s')) :=
  ⟨.ok u, rfl, rfl⟩

/-- A test that both commands make alike. -/
theorem SameUpdate.raiseIf (p : Prop) [Decidable p] (e : Trap) {b b' : Except Trap State}
    (h : SameUpdate s s' b b') :
    SameUpdate s s' (if p then .error e else b) (if p then .error e else b') := by
  split
  · exact .error e
  · exact h

variable (hv : SameView s s')
include hv

theorem SameView.slot (c : SlotIdx) : s'.slot c = s.slot c := by
  unfold State.slot
  rw [hv.slots]

theorem SameView.slotOperand (c : SlotIdx) : slotOperand s' c = slotOperand s c := by
  unfold Machine.slotOperand
  rw [hv.slot]

theorem SameView.extractorOperand : extractorOperand s' = extractorOperand s := by
  unfold Machine.extractorOperand
  simp only [hv.fe, hv.slot]

theorem SameView.decodeOperand (ws : WordIdx) (cs : SlotIdx) :
    decodeOperand ws cs s' = decodeOperand ws cs s := by
  unfold Machine.decodeOperand
  simp only [hv.slotOperand, hv.word]

theorem sameUpdate_encode (wd ws : WordIdx) (cs : SlotIdx) :
    SameUpdate s s' (encodeCommand wd ws cs s) (encodeCommand wd ws cs s') := by
  unfold encodeCommand
  simp only [hv.slotOperand, hv.word]
  cases Machine.slotOperand s cs with
  | error e => exact .error e
  | ok c =>
    dsimp only
    cases checkOperand (s.word ws) c.k c.q with
    | error e => exact .error e
    | ok w => exact .ok (.word wd (encodeWord c w))

theorem sameUpdate_bind (cs : SlotIdx) (mb pb : Nat) (h : Bool) :
    SameUpdate s s' (bindExtractor cs mb pb h s) (bindExtractor cs mb pb h s') := by
  unfold bindExtractor
  simp only [hv.fe, hv.slot, hv.word]
  refine .raiseIf _ _ ?_
  cases s.slot cs with
  | none => exact .error _
  | some c =>
    refine .raiseIf _ _ ?_
    cases h with
    | false => exact .ok (.extractor _)
    | true => exact .raiseIf _ _ (.ok (.extractor _))

theorem sameUpdate_generate (wd ws : WordIdx) :
    SameUpdate s s' (generateHelper wd ws s) (generateHelper wd ws s') := by
  unfold generateHelper enrol
  simp only [hv.extractorOperand, hv.word, hv.draws]
  cases Machine.extractorOperand s with
  | error e => exact .error e
  | ok p =>
    refine .raiseIf _ _ ?_
    cases checkOperand (s.word ws) p.2.n 2 with
    | error e => exact .error e
    | ok w => exact .ok (.enrolment wd _ _ _)

theorem sameUpdate_reproduce (wd ws : WordIdx) :
    SameUpdate s s' (reproduce wd ws s) (reproduce wd ws s') := by
  unfold reproduce
  simp only [hv.extractorOperand, hv.word]
  cases Machine.extractorOperand s with
  | error e => exact .error e
  | ok p =>
    dsimp only
    cases helperOperand p.1 with
    | error e => exact .error e
    | ok h =>
      dsimp only
      cases checkOperand (s.word ws) p.2.n 2 with
      | error e => exact .error e
      | ok v =>
        dsimp only
        cases reproduceInput p.2 h v with
        | error e => exact .error e
        | ok key => exact .ok (.word wd _)

theorem sameUpdate_readHelper (wd : WordIdx) (sel : HelperHalf) :
    SameUpdate s s' (readHelper wd sel s) (readHelper wd sel s') := by
  unfold readHelper
  simp only [hv.fe]
  cases s.fe with
  | none => exact .error _
  | some fe =>
    dsimp only
    cases helperOperand fe with
    | error e => exact .error e
    | ok h => exact .ok (.word wd _)

/-- Commands see only what `SameView` compares (10_state.md R21, R37; 70_reset_and_hazards.md R288). -/
theorem commandBody_sameUpdate (i : Instr) :
    SameUpdate s s' (commandBody i s) (commandBody i s') := by
  cases i with
  | hamNew cs r q =>
    simp only [commandBody, buildHamming, hv.slot]
    exact .raiseIf _ _ (.raiseIf _ _ (.raiseIf _ _ (.raiseIf _ _ (.ok (.code cs _)))))
  | bchNew cs q d c =>
    simp only [commandBody, buildBch, hv.slot, hv.word]
    exact .raiseIf _ _ (.raiseIf _ _ (.raiseIf _ _ (.raiseIf _ _ (.raiseIf _ _ (.raiseIf _ _
      (.raiseIf _ _ (.raiseIf _ _ (.ok (.code cs _)))))))))
  | golNew cs n =>
    simp only [commandBody, buildGolay, hv.slot]
    refine .raiseIf _ _ ?_
    cases golParams n with
    | none => exact .error _
    | some p => exact .ok (.code cs _)
  | rmNew cs r m =>
    simp only [commandBody, buildReedMuller, hv.slot]
    exact .raiseIf _ _ (.raiseIf _ _ (.raiseIf _ _ (.ok (.code cs _))))
  | enc wd ws cs => exact sameUpdate_encode hv wd ws cs
  | dec wd ws cs =>
    simp only [commandBody, hv.decodeOperand]
    cases Machine.decodeOperand ws cs s with
    | error e => exact .error e
    | ok res => exact .ok (.word wd res.1)
  | decm wd ws cs =>
    simp only [commandBody, hv.decodeOperand]
    cases Machine.decodeOperand ws cs s with
    | error e => exact .error e
    | ok res => exact .ok (.word wd res.2)
  | feNew cs mb pb h => exact sameUpdate_bind hv cs mb pb h
  | feGen wd ws => exact sameUpdate_generate hv wd ws
  | feRep wd ws => exact sameUpdate_reproduce hv wd ws
  | feHdrd wd sel => exact sameUpdate_readHelper hv wd sel

/-- The same command in two states that agree in what it looks at: the same exception, or the same
update. -/
theorem exec_sameView (i : Instr) :
    (∃ e, exec i s = .next (s.takeException e) ∧ exec i s' = .next (s'.takeException e))
      ∨ ∃ u : Update, exec i s = .next (u.apply s).succeed
        ∧ exec i s' = .next (u.apply s').succeed := by
  simp only [exec_eq_finish]
  obtain ⟨r, hb, hb'⟩ := commandBody_sameUpdate hv i
  cases r with
  | error e => exact .inl ⟨e, by rw [hb]; rfl, by rw [hb']; rfl⟩
  | ok u => exact .inr ⟨u, by rw [hb]; rfl, by rw [hb']; rfl⟩

end

/-! ### The state after an exception -/

theorem Trap.code_bounds (e : Trap) : 1 ≤ e.code ∧ e.code ≤ 5 := by
  cases e <;> decide

theorem Trap.one_le_sub (e : Trap) : 1 ≤ e.sub := by
  cases e <;> decide

/-- LAST shows the exception's code (60_exceptions.md R250). -/
theorem takeException_last_toNat (s : State) (e : Trap) :
    (s.takeException e).last.toNat = e.code := by
  have h := e.code_bounds
  simp only [takeException_last, BitVec.toNat_ofNat]
  omega

theorem takeException_last_ne_zero (s : State) (e : Trap) : (s.takeException e).last ≠ 0 := by
  intro h
  have hpos := e.code_bounds.1
  have hzero : e.code = 0 := by
    rw [← takeException_last_toNat s e, h]
    rfl
  omega

/-- Only a command that raises leaves LAST nonzero. -/
theorem exec_next_of_last_ne_zero (i : Instr) (s t : State) (h : exec i s = .next t)
    (hlast : t.last ≠ 0) : ∃ e, t = s.takeException e := by
  obtain ⟨u, -, rfl⟩ | hexc := exec_next_cases i s t h
  · exact absurd rfl hlast
  · exact hexc

end Sys2Proof.Machine


/-! ## The statements about commands -/

namespace Sys2Proof.Machine

/-! ### The step that serves a CMD write -/

theorem field_lt (v : RegVal) (hi lo : Nat) : field v hi lo < 2 ^ (hi + 1 - lo) :=
  Nat.mod_lt _ (Nat.two_pow_pos _)

theorem requireZero_ok_iff (reserved : Nat) (i j : Instr) :
    requireZero reserved i = .ok j ↔ reserved = 0 ∧ i = j := by
  unfold requireZero
  split <;> simp_all

/-- Every field is read at its own width, so a decoded command is well-formed (30_encoding.md R72,
R75). -/
theorem wellFormed_of_decode (v : RegVal) (i : Instr) (h : decode v = .ok i) :
    i.wellFormed = true := by
  have h1 : field v 23 16 < 256 := field_lt v 23 16
  have h2 : field v 15 8 < 256 := field_lt v 15 8
  have h3 : field v 7 0 < 256 := field_lt v 7 0
  have hmb : field v 19 10 < 1024 := field_lt v 19 10
  have hpb : field v 9 0 < 1024 := field_lt v 9 0
  unfold decode at h
  split at h <;>
    simp only [requireZero_ok_iff, Except.ok.injEq, reduceCtorEq] at h
  -- BCH.NEW alone has no must-be-0 bit
  case h_2 => simp [← h, Instr.wellFormed, fitsParam, h1, h2, h3]
  all_goals
    obtain ⟨-, rfl⟩ := h
    simp [Instr.wellFormed, fitsParam, fitsBitCount, h1, h2, hmb, hpb]

/-- A 32-bit write to 0x0004 runs its word, with the access off the port and answered (10_state.md
R33). -/
theorem step_cmdWrite (s : State) (v : RegVal) (rest : List BusRequest)
    (h : s.port = .write 0x0004 .bits32 v :: rest) :
    step s = runCommand v (s.answer rest .writeDone) := by
  simp only [step, h]
  rfl

/-- Settles O11: the write reaches CMD, and the decoder reads each field at its width. -/
theorem stepRunsTheDecodedCommand : Obligations.StepRunsTheDecodedCommand := by
  intro s v rest i hport hdecode
  refine ⟨wellFormed_of_decode v i hdecode, ?_⟩
  rw [step_cmdWrite s v rest hport]
  simp only [runCommand, hdecode]
  rfl

/-- A word written to CMD completes, and leaves the port and the bus answer to the step. -/
theorem runCommand_next (v : RegVal) (s : State) :
    ∃ t, runCommand v s = .next t ∧ t.port = s.port ∧ t.response = s.response := by
  obtain ⟨i, -, hrun⟩ | ⟨e, -, hrun⟩ := runCommand_cases v s
  · obtain ⟨u, -, hexec⟩ | ⟨e, hexec⟩ := exec_cases i s
    · exact ⟨_, hrun.trans hexec, by simp, by simp⟩
    · exact ⟨_, hrun.trans hexec, rfl, rfl⟩
  · exact ⟨_, hrun, rfl, rfl⟩

/-- Settles O17: `exec_cases` has the two ends of a command. -/
theorem everyCommandSucceedsOrTrapsPrecisely : Obligations.EveryCommandSucceedsOrTrapsPrecisely := by
  refine ⟨fun i s => ?_, fun s v rest hport => ?_⟩
  · obtain ⟨u, -, hexec⟩ | ⟨e, hexec⟩ := exec_cases i s
    · exact .inl ⟨_, hexec, rfl, rfl, by simp⟩
    · exact .inr ⟨e.code, e.sub, e.code_bounds.1, e.code_bounds.2, e.one_le_sub, hexec⟩
  · obtain ⟨t, hrun, hp, hr⟩ := runCommand_next v (s.answer rest .writeDone)
    exact ⟨t, (step_cmdWrite s v rest hport).trans hrun, hp, hr⟩

/-! ### Noninterference -/

/-- An update writes the same fields whatever the reports are. -/
theorem apply_reports (u : Update) (s : State) (l : BitVec 3) (c : BitVec 8) (e : BitVec 5) :
    u.apply { s with last := l, cinfo := c, esticky := e }
      = { u.apply s with last := l, cinfo := c, esticky := e } := by
  cases u <;> rfl

/-- Settles O18: reports are no part of what `SameView` compares. -/
theorem reportsAreWrittenAndNeverRead : Obligations.ReportsAreWrittenAndNeverRead := by
  intro i s l c e
  have hview : SameView s { s with last := l, cinfo := c, esticky := e } :=
    ⟨fun _ => rfl, rfl, rfl, rfl⟩
  obtain ⟨x, hs, hs'⟩ | ⟨u, hs, hs'⟩ := exec_sameView hview i
  · have hne := takeException_last_ne_zero s x
    have hcode := takeException_last_toNat s x
    refine ⟨_, _, hs, hs', rfl, fun h => absurd h hne, fun _ => ?_⟩
    rw [hcode]
    exact ⟨rfl, rfl⟩
  · refine ⟨_, _, hs, hs', ?_, fun _ => ⟨rfl, ?_, ?_⟩, fun h => absurd rfl h⟩
    · rw [apply_reports]
      rfl
    · simp
    · simp

/-- The same update in two states that hold the same words, and differ in no other field, leaves two
such states. -/
theorem apply_sameWords (u : Update) (s s' : State) (hw : ∀ k, s.word k = s'.word k)
    (hrest : { s' with words := s.words } = s) :
    { u.apply s' with words := (u.apply s).words } = u.apply s
      ∧ ∀ k, (u.apply s).word k = (u.apply s').word k := by
  have hset : ∀ (wd k : WordIdx) (v : Word) (t t' : State), t.word k = t'.word k →
      (t.setWord wd v).word k = (t'.setWord wd v).word k := by
    intro wd k v t t' h
    by_cases hk : wd = k
    · subst hk
      simp [State.word]
    · rw [setWord_word_other t wd k v hk, setWord_word_other t' wd k v hk, h]
  cases u with
  | word wd v => exact ⟨by rw [← hrest]; rfl, fun k => hset wd k v s s' (hw k)⟩
  | code cs c => exact ⟨by rw [← hrest]; rfl, hw⟩
  | extractor fe => exact ⟨by rw [← hrest]; rfl, hw⟩
  | enrolment wd n fe key => exact ⟨by rw [← hrest]; rfl, fun k => hset wd k key _ _ (hw k)⟩

/-- Settles O21: a command looks at the words the registers hold, and not at their cells. -/
theorem commandsIgnoreCellsAboveLen : Obligations.CommandsIgnoreCellsAboveLen := by
  intro i s s' hw hrest
  have hview : SameView s s' :=
    ⟨fun k => (hw k).symm, (congrArg State.slots hrest :), (congrArg State.fe hrest :),
      (congrArg State.draws hrest :)⟩
  obtain ⟨e, hs, hs'⟩ | ⟨u, hs, hs'⟩ := exec_sameView hview i
  · exact ⟨_, _, hs, hs', congrArg (State.takeException · e) hrest, hw⟩
  · obtain ⟨hrest', hw'⟩ := apply_sameWords u s s' hw hrest
    exact ⟨_, _, hs, hs', congrArg State.succeed hrest', hw'⟩

/-! ### The write of a result -/

/-- Every cell of a written register (10_state.md R22). -/
theorem ofWord_cell_toNat (v : Word) (hv : ∀ x ∈ v, x ≤ 255) (j : Nat) (hj : j < Config.nmax) :
    ((WordReg.ofWord v).cells[j]).toNat = if j < v.length then v.getD j 0 else 0 := by
  rw [ofWord_cell v j hj, BitVec.toNat_ofNat, Config.symw_eq]
  split_ifs with h
  · rw [List.getD_eq_getElem _ _ h]
    exact Nat.mod_eq_of_lt (Nat.lt_succ_of_le (hv _ (List.getElem_mem h)))
  · rw [List.getD_eq_default _ _ (by omega)]

/-- Settles O20: the rules of `WordReg.ofWord` cell by cell, and that only an exception leaves LAST
nonzero. -/
theorem resultWriteFillsTheRegister : Obligations.ResultWriteFillsTheRegister := by
  refine ⟨fun s i v hlen hv => ⟨?_, fun j => ?_, ?_, fun k hk => ?_, rfl⟩, fun i s t h hlast => ?_⟩
  · simpa using ofWord_len v hlen
  · simpa using ofWord_cell_toNat v hv j.val j.isLt
  · exact setWord_word_same s i v hlen fun x hx => Nat.lt_succ_of_le (hv x hx)
  · exact setWord_words_other s i k v hk.symm
  · obtain ⟨e, rfl⟩ := exec_next_of_last_ne_zero i s t h hlast
    rfl

/-! ### Frames -/

/-- Settles O26: a command that constructs a code builds its slot, or raises. -/
theorem codeConstructorsFrame : Obligations.CodeConstructorsFrame := by
  intro s t cs p1 p2 p3 i hi h
  have hbuilt : builtSlot i = some cs ∧ resultWord i = none := by
    rcases hi with rfl | rfl | rfl | rfl <;> exact ⟨rfl, rfl⟩
  obtain ⟨u, hmakes, rfl⟩ | ⟨e, rfl⟩ := exec_next_cases i s t h
  · cases hmakes with
    | word hw => simp [hbuilt.2] at hw
    | code hcs =>
      obtain rfl : cs = _ := Option.some.inj (hbuilt.1.symm.trans hcs)
      exact ⟨rfl, fun c hc => build_slot_other s cs c _ hc.symm, rfl, rfl, rfl, rfl⟩
    | extractor => simp [builtSlot] at hbuilt
    | enrolment => simp [builtSlot] at hbuilt
  · exact ⟨rfl, fun _ _ => rfl, rfl, rfl, rfl, rfl⟩

/-- Settles O27: a command that delivers a word writes its register, or raises. -/
theorem wordCommandsFrame : Obligations.WordCommandsFrame := by
  intro s t wd ws cs sel i hi h
  have hword : resultWord i = some wd ∧ builtSlot i = none := by
    rcases hi with rfl | rfl | rfl | rfl | rfl <;> exact ⟨rfl, rfl⟩
  obtain ⟨u, hmakes, rfl⟩ | ⟨e, rfl⟩ := exec_next_cases i s t h
  · cases hmakes with
    | word hwd =>
      obtain rfl : wd = _ := Option.some.inj (hword.1.symm.trans hwd)
      exact ⟨fun k hk => setWord_words_other s wd k _ hk.symm, rfl, rfl, rfl, rfl, rfl⟩
    | code hcs => simp [hword.2] at hcs
    | extractor => simp [resultWord] at hword
    | enrolment => simp [resultWord] at hword
  · exact ⟨fun _ _ => rfl, rfl, rfl, rfl, rfl, rfl⟩

/-- Settles O28: FE.NEW constructs the extractor, FE.GEN enrols it, or they raise. -/
theorem extractorCommandsFrame : Obligations.ExtractorCommandsFrame := by
  refine ⟨fun s t cs mb pb h hexec => ?_, fun s t wd ws hexec => ?_⟩
  · obtain ⟨u, hmakes, rfl⟩ | ⟨e, rfl⟩ := exec_next_cases _ s t hexec
    · cases hmakes with
      | word hwd => simp [resultWord] at hwd
      | code hcs => simp [builtSlot] at hcs
      | extractor => exact ⟨rfl, rfl, rfl, rfl, rfl⟩
    · exact ⟨rfl, rfl, rfl, rfl, rfl⟩
  · obtain ⟨u, hmakes, rfl⟩ | ⟨e, rfl⟩ := exec_next_cases _ s t hexec
    · cases hmakes with
      | word hwd => simp [resultWord] at hwd
      | code hcs => simp [builtSlot] at hcs
      | @enrolment _ _ fe c helper key hfe hslot =>
        exact ⟨fun k hk => setWord_words_other _ wd k key hk.symm, rfl, rfl, rfl,
          fun hlast => absurd rfl hlast, fun _ => ⟨fe, c, helper, hfe, hslot, rfl, rfl⟩⟩
    · exact ⟨fun _ _ => rfl, rfl, rfl, rfl, fun _ => ⟨rfl, rfl⟩,
        fun hlast => absurd hlast (takeException_last_ne_zero s e)⟩

end Sys2Proof.Machine


/-! ## What every step keeps: built slots, the extractor, the invariant -/

namespace Sys2Proof.Machine

/-! ### One step, as far as slots, extractor and reports go -/

/-- The two states have the same slots, extractor, LAST and CINFO. -/
structure SameCore (s t : State) : Prop where
  slots : t.slots = s.slots
  fe : t.fe = s.fe
  last : t.last = s.last
  cinfo : t.cinfo = s.cinfo

theorem SameCore.slot {s t : State} (h : SameCore s t) (c : SlotIdx) : t.slot c = s.slot c := by
  unfold State.slot
  rw [h.slots]

theorem SameCore.answer (s : State) (rest : List BusRequest) (a : BusResponse) :
    SameCore s (s.answer rest a) := ⟨rfl, rfl, rfl, rfl⟩

/-- A host's write to a register other than CMD reaches the word registers and ESTICKY alone
(20_memory.md R56). -/
theorem writeReg_sameCore (r : WindowReg) (v : RegVal) (s t : State) (h : writeReg r v s = .ok t) :
    SameCore s t := by
  obtain ⟨-, rfl⟩ | ⟨-, rfl⟩ | ⟨reg, index, -, -, rfl⟩ | ⟨reg, -, -, rfl⟩ :=
    writeReg_ok_cases r v s t h <;> exact ⟨rfl, rfl, rfl, rfl⟩

/-- What a step does to slots, extractor and reports: nothing, an exception, the update of a well-formed
command, or the platform's reset. -/
theorem step_next_core (s t : State) (h : step s = .next t) :
    SameCore s t
    ∨ (∃ rest e, t = (s.answer rest .writeDone).takeException e)
    ∨ (∃ rest i u, i.wellFormed = true ∧ Makes (s.answer rest .writeDone) i u
        ∧ t = (u.apply (s.answer rest .writeDone)).succeed)
    ∨ (s.resetNext = true ∧ SameCore State.reset t) := by
  obtain ⟨-, rfl⟩ | ⟨_, _, rest, r, -, -, rfl⟩ | ⟨_, _, v, rest, -, -, hrun⟩
    | ⟨_, _, v, rest, r, u, -, -, -, hu, rfl⟩ | ⟨rest, hport, rfl⟩ := step_next_cases s t h
  · exact .inl ⟨rfl, rfl, rfl, rfl⟩
  · exact .inl (.answer s rest _)
  · obtain ⟨i, hdecode, hexec⟩ | ⟨_, -, hexc⟩ := runCommand_cases v (s.answer rest .writeDone)
    · obtain ⟨u, hu, ht⟩ | ⟨e, ht⟩ := exec_next_cases i _ t (hexec.symm.trans hrun)
      · exact .inr (.inr (.inl ⟨rest, i, u, wellFormed_of_decode v i hdecode, hu, ht⟩))
      · exact .inr (.inl ⟨rest, e, ht⟩)
    · exact .inr (.inl ⟨rest, .icEncoding, Host.Outcome.next.inj (hrun.symm.trans hexc)⟩)
  · have hcore := writeReg_sameCore r v s u hu
    exact .inl ⟨hcore.slots, hcore.fe, hcore.last, hcore.cinfo⟩
  · have hnext : s.resetNext = true := by
      obtain hp | ⟨v, hp⟩ := hport <;> simp [State.resetNext, hp]
    exact .inr (.inr (.inr ⟨hnext, rfl, rfl, rfl, rfl⟩))

/-! ### Built slots -/

/-- No update alters a built slot: a constructor builds an empty one (10_state.md R26). -/
theorem Makes.slot_built {s : State} {i : Instr} {u : Update} (h : Makes s i u) {c : SlotIdx}
    {code : Code} (hc : s.slot c = some code) : (u.apply s).slot c = some code := by
  cases h with
  | word => exact hc
  | @code _ cs _ _ hempty =>
    have hne : cs ≠ c := by
      rintro rfl
      simp [hempty] at hc
    exact (build_slot_other s cs c _ hne).trans hc
  | extractor => exact hc
  | enrolment => exact hc

/-- Settles O22: of all that a step can do only a constructor writes a slot, and an empty one. -/
theorem builtSlotsNeverChange : Obligations.BuiltSlotsNeverChange := by
  intro s t c code h hreset hc
  obtain hcore | ⟨rest, e, rfl⟩ | ⟨rest, i, u, -, hmakes, rfl⟩ | ⟨hnext, -⟩ := step_next_core s t h
  · exact (hcore.slot c).trans hc
  · exact hc
  · exact hmakes.slot_built hc
  · simp [hreset] at hnext

/-! ### The extractor -/

/-- An update of a constructed extractor is FE.GEN's setting of the latch (10_state.md R29). -/
theorem Makes.fe_bound {s : State} {i : Instr} {u : Update} (h : Makes s i u) {fe : Extractor}
    (hfe : s.fe = some fe) :
    (u.apply s).fe = some fe
      ∨ fe.helper = none ∧ ∃ h, (u.apply s).fe = some { fe with helper := some h } := by
  cases h with
  | word => exact .inl hfe
  | code => exact .inl hfe
  | extractor hnone => simp [hnone] at hfe
  | @enrolment _ _ fe' _ h _ hfe' _ hbare =>
    obtain rfl : fe = fe' := Option.some.inj (hfe.symm.trans hfe')
    exact .inr ⟨hbare, h, rfl⟩

/-- Settles O23: only FE.GEN writes a constructed extractor, and only while its latch is not set. -/
theorem helperLatchIsOneShot : Obligations.HelperLatchIsOneShot := by
  intro s t fe h hreset hfe
  have stays (ht : t.fe = some fe) : ∃ fe', t.fe = some fe' ∧ fe'.slot = fe.slot
      ∧ fe'.mbits = fe.mbits ∧ fe'.pbits = fe.pbits ∧ (fe.helper ≠ none → fe' = fe) :=
    ⟨fe, ht, rfl, rfl, rfl, fun _ => rfl⟩
  obtain hcore | ⟨rest, e, rfl⟩ | ⟨rest, i, u, -, hmakes, rfl⟩ | ⟨hnext, -⟩ := step_next_core s t h
  · exact stays (hcore.fe.trans hfe)
  · exact stays hfe
  · obtain ht | ⟨hbare, helper, ht⟩ := hmakes.fe_bound hfe
    · exact stays ht
    · exact ⟨_, ht, rfl, rfl, rfl, fun hset => absurd hbare hset⟩
  · simp [hreset] at hnext

/-! ### The invariant -/

theorem Extractor.ok_iff (s : State) (fe : Extractor) :
    fe.ok s = true ↔ ∃ c, s.slot fe.slot = some c
      ∧ (c.q = 2 ∧ fe.mbits = c.k ∧ fe.mbits + fe.pbits = c.n)
      ∧ ∀ h, fe.helper = some h → h.ok c.n = true := by
  unfold Extractor.ok
  cases s.slot fe.slot with
  | none => simp
  | some c => simp only [Bool.and_eq_true, decide_eq_true_eq, Option.all_eq_true, Option.some.injEq,
      exists_eq_left']

theorem State.inv_iff (s : State) :
    s.inv = true ↔ (∀ c code, s.slot c = some code → code.ok = true)
      ∧ (∀ fe, s.fe = some fe → fe.ok s = true) ∧ reportOk s = true := by
  have hslots : (s.slots.toList.all fun slot => slot.all Code.ok) = true
      ↔ ∀ c code, s.slot c = some code → code.ok = true := by
    simp only [Vector.all_toList, Vector.all_eq_true, Option.all_eq_true]
    exact ⟨fun h c => h c.val c.isLt, fun h i hi => h ⟨i, hi⟩⟩
  rw [State.inv, Bool.and_eq_true, Bool.and_eq_true, hslots, Option.all_eq_true, and_assoc]

/-- An extractor stays well-formed while its slot keeps its code. -/
theorem Extractor.ok_of_slot {s t : State} {fe : Extractor}
    (h : ∀ c code, s.slot c = some code → t.slot c = some code) (hok : fe.ok s = true) :
    fe.ok t = true := by
  obtain ⟨c, hslot, hc⟩ := (Extractor.ok_iff s fe).1 hok
  exact (Extractor.ok_iff t fe).2 ⟨c, h _ _ hslot, hc⟩

/-- The invariant speaks of slots, extractor, LAST and CINFO alone. -/
theorem SameCore.inv {s t : State} (h : SameCore s t) (hs : s.inv = true) : t.inv = true := by
  obtain ⟨hcodes, hfe, hreport⟩ := (State.inv_iff s).1 hs
  refine (State.inv_iff t).2 ⟨fun c code hc => hcodes c code ?_, fun fe hf => ?_, ?_⟩
  · rwa [← h.slot c]
  · exact Extractor.ok_of_slot (fun c code hc => (h.slot c).trans hc) (hfe fe (h.fe.symm.trans hf))
  · rwa [reportOk, h.last, h.cinfo]

/-- LAST and CINFO after an exception show it (60_exceptions.md R250). -/
theorem reportOk_takeException (s : State) (e : Trap) : reportOk (s.takeException e) = true := by
  have hmem : e ∈ allTraps := by cases e <;> decide
  simp only [reportOk, Bool.or_eq_true, List.any_eq_true]
  exact .inr ⟨e, hmem, by simp⟩

theorem inv_takeException (s : State) (e : Trap) (hs : s.inv = true) :
    (s.takeException e).inv = true := by
  obtain ⟨hcodes, hfe, -⟩ := (State.inv_iff s).1 hs
  exact (State.inv_iff _).2
    ⟨hcodes, fun fe hf => Extractor.ok_of_slot (fun _ _ h => h) (hfe fe hf),
      reportOk_takeException s e⟩

/-- A slot after an update held its code before, or was built by a well-formed command. -/
theorem Makes.code_ok {s : State} {i : Instr} {u : Update} (h : Makes s i u)
    (hwf : i.wellFormed = true) (hcodes : ∀ c code, s.slot c = some code → code.ok = true)
    (c : SlotIdx) (code : Code) (hc : (u.apply s).slot c = some code) : code.ok = true := by
  cases h with
  | word => exact hcodes c code hc
  | @code _ cs new _ _ hok =>
    by_cases heq : cs = c
    · subst heq
      obtain rfl : new = code := Option.some.inj ((build_slot_same s cs new).symm.trans hc)
      exact hok hwf
    · exact hcodes c code ((build_slot_other s cs c new heq).symm.trans hc)
  | extractor => exact hcodes c code hc
  | enrolment => exact hcodes c code hc

/-- The extractor after an update fits its slot (10_state.md R28). -/
theorem Makes.extractor_ok {s : State} {i : Instr} {u : Update} (h : Makes s i u)
    (hcodes : ∀ c code, s.slot c = some code → code.ok = true)
    (hfe : ∀ fe, s.fe = some fe → fe.ok s = true)
    (fe : Extractor) (hf : (u.apply s).fe = some fe) : fe.ok (u.apply s) = true := by
  refine Extractor.ok_of_slot (fun _ _ => h.slot_built) ?_
  cases h with
  | word => exact hfe fe hf
  | code => exact hfe fe hf
  | @extractor _ _ _ _ new _ hok =>
    obtain rfl : new = fe := Option.some.inj hf
    exact hok
  | @enrolment _ _ old c helper _ hold hslot _ hok =>
    obtain rfl : { old with helper := some helper } = fe := Option.some.inj hf
    obtain ⟨c', hslot', hbound, -⟩ := (Extractor.ok_iff s old).1 (hfe old hold)
    obtain rfl : c' = c := Option.some.inj (hslot'.symm.trans hslot)
    refine (Extractor.ok_iff s _).2 ⟨c', hslot, hbound, fun h' hh => ?_⟩
    obtain rfl : helper = h' := Option.some.inj hh
    exact hok (hcodes _ _ hslot)

theorem Makes.inv {s : State} {i : Instr} {u : Update} (h : Makes s i u)
    (hwf : i.wellFormed = true) (hs : s.inv = true) : (u.apply s).succeed.inv = true := by
  obtain ⟨hcodes, hfe, -⟩ := (State.inv_iff s).1 hs
  exact (State.inv_iff _).2 ⟨h.code_ok hwf hcodes,
    fun fe hf => Extractor.ok_of_slot (fun _ _ hc => hc) (h.extractor_ok hcodes hfe fe hf), rfl⟩

/-- Settles O24: no slot is built and no extractor constructed. -/
theorem invariantHoldsAtReset : Obligations.InvariantHoldsAtReset := by
  refine (State.inv_iff _).2 ⟨fun c code hc => ?_, fun fe hf => ?_, rfl⟩
  · simp [State.slot, State.reset] at hc
  · simp [State.reset] at hf

/-- Settles O25: an exception, the update of a well-formed command and the reset each keep the
invariant, and nothing else a step does concerns it. -/
theorem stepKeepsTheInvariant : Obligations.StepKeepsTheInvariant := by
  intro s t hs h
  have answered (rest : List BusRequest) : (s.answer rest .writeDone).inv = true :=
    (SameCore.answer s rest .writeDone).inv hs
  obtain hcore | ⟨rest, e, rfl⟩ | ⟨rest, i, u, hwf, hmakes, rfl⟩ | ⟨-, hcore⟩ := step_next_core s t h
  · exact hcore.inv hs
  · exact inv_takeException _ e (answered rest)
  · exact hmakes.inv hwf (answered rest)
  · exact hcore.inv invariantHoldsAtReset

end Sys2Proof.Machine


/-! ## The register window -/

namespace Sys2Proof.Machine

/-! ### Which register an access reaches -/

/-- A host access of 32 bits at the offset is admitted and reaches the register (20_memory.md R51). -/
def Reaches (off : Offset) (r : WindowReg) : Prop := accessTarget off .bits32 = .ok r

theorem reaches_iff (off : Offset) (r : WindowReg) :
    Reaches off r ↔ off.toNat % 4 = 0 ∧ registerAt off = some r := by
  simp [Reaches, accessTarget_ok_iff]

theorem accessTarget_error (off : Offset) (h : off.toNat % 4 ≠ 0 ∨ registerAt off = none) :
    ∃ e, accessTarget off .bits32 = .error e := by
  cases ht : accessTarget off .bits32 with
  | error e => exact ⟨e, rfl⟩
  | ok r =>
    obtain ⟨hal, hreg⟩ := (reaches_iff off r).1 ht
    simp [hal, hreg] at h

/-! ### The four ends of a host access -/

section
variable {s : State} {off : Offset} {r : WindowReg} {v : RegVal}

theorem readsAs_of_reaches (h : Reaches off r) : s.readsAs off (readReg r s) := by
  intro rest
  simp only [step, serveRead, show accessTarget off .bits32 = .ok r from h]
  rw [show readReg r { s with port := .read off .bits32 :: rest } = readReg r s from
    readReg_outside r s _ s.response s.draws]
  rfl

theorem writeGives_of_reaches {t : State} (h : Reaches off r) (hr : r ≠ .cmd)
    (hw : ∀ p, writeReg r v { s with port := p } = .ok { t with port := p }) :
    s.writeGives off v t := by
  intro rest
  have htarget : accessTarget off .bits32 = .ok r := h
  simp only [step, serveWrite, htarget, hw]
  rfl

theorem writeRefused_of_reaches {e : AccessError} (h : Reaches off r) (hr : r ≠ .cmd)
    (hw : ∀ s, writeReg r v s = .error e) : s.writeRefused off v := by
  intro rest
  have htarget : accessTarget off .bits32 = .ok r := h
  refine ⟨e, ?_⟩
  simp only [step, serveWrite, htarget, hw]

theorem refused_of_not_mapped (h : off.toNat % 4 ≠ 0 ∨ registerAt off = none) :
    s.readRefused off ∧ ∀ v, s.writeRefused off v := by
  obtain ⟨e, he⟩ := accessTarget_error off h
  refine ⟨fun rest => ⟨e, ?_⟩, fun v rest => ⟨e, ?_⟩⟩
  · simp only [step, serveRead, he]
  · simp only [step, serveWrite, he]

end

/-! ### Fields of a register value -/

theorem field_ofNat (n hi lo : Nat) (h : n < 2 ^ 32) :
    field (BitVec.ofNat Config.xlen n) hi lo = n / 2 ^ lo % 2 ^ (hi + 1 - lo) := by
  rw [field, BitVec.toNat_ofNat, Nat.mod_eq_of_lt h]

/-- A bit is read as a field of one bit. -/
theorem getLsbD_eq_of_field (v : RegVal) (b : Nat) (x : Bool) (h : field v b b = x.toNat) :
    v.getLsbD b = x := by
  have h' : v.toNat / 2 ^ b % 2 = x.toNat := by simpa [field] using h
  rw [BitVec.getLsbD, Nat.testBit_eq_decide_div_mod_eq, h']
  cases x <;> rfl

theorem slotIdx_cases (c : SlotIdx) : c = 0 ∨ c = 1 ∨ c = 2 ∨ c = 3 := by
  revert c
  decide

/-! ### ID, PARAMS and CMD -/

theorem reaches_id : Reaches 0x0000 .id := rfl
theorem reaches_cmd : Reaches 0x0004 .cmd := rfl
theorem reaches_status : Reaches 0x0008 .status := rfl
theorem reaches_cinfo : Reaches 0x000C .cinfo := rfl
theorem reaches_esticky : Reaches 0x0010 .esticky := rfl
theorem reaches_feinfo : Reaches 0x0014 .feinfo := rfl
theorem reaches_params : Reaches 0x0018 .params := rfl

/-- Settles O3: the three offsets reach their registers, and a read answers what they show. -/
theorem idAndParamsAreConstant : Obligations.IdAndParamsAreConstant := fun _ =>
  ⟨readsAs_of_reaches reaches_id, readsAs_of_reaches reaches_params, readsAs_of_reaches reaches_cmd,
    fun _ => ⟨writeRefused_of_reaches reaches_id (by decide) fun _ => rfl,
      writeRefused_of_reaches reaches_params (by decide) fun _ => rfl⟩⟩

/-- Settles O1: row by row of the table of 10_state.md R42. -/
theorem resetLeavesStatedValues : Obligations.ResetLeavesStatedValues := by
  have hslot : ∀ c : SlotIdx, State.reset.slot c = none := by decide
  refine ⟨fun i => ?_, fun c => ⟨hslot c, fun k => ?_⟩, rfl, rfl, rfl, rfl, rfl, rfl, rfl⟩
  · simp [State.reset, WordReg.reset]
  · simp [readReg, infoReg, hslot c]

/-! ### STATUS -/

theorem placeField_of_lt (width lo v : Nat) (h : v < 2 ^ width) :
    placeField width lo v = v * 2 ^ lo := by
  rw [placeField, Nat.mod_eq_of_lt h]

theorem builtBits_lt (s : State) : builtBits s < 2 ^ 4 := by
  have h0 := Bool.toNat_le (s.slot 0).isSome
  have h1 := Bool.toNat_le (s.slot 1).isSome
  have h2 := Bool.toNat_le (s.slot 2).isSome
  have h3 := Bool.toNat_le (s.slot 3).isSome
  unfold builtBits
  omega

/-- Bit c of BUILT is whether slot c is built (10_state.md R34). -/
theorem builtBits_bit (s : State) (c : SlotIdx) :
    builtBits s / 2 ^ c.val % 2 = (s.slot c).isSome.toNat := by
  have h0 := Bool.toNat_le (s.slot 0).isSome
  have h1 := Bool.toNat_le (s.slot 1).isSome
  have h2 := Bool.toNat_le (s.slot 2).isSome
  have h3 := Bool.toNat_le (s.slot 3).isSome
  unfold builtBits
  rcases slotIdx_cases c with rfl | rfl | rfl | rfl <;> norm_num <;> omega

theorem helperSet_eq (s : State) : s.helperSet = (s.fe.bind Extractor.helper).isSome := by
  unfold State.helperSet
  cases s.fe <;> rfl

/-- STATUS as a number (10_state.md R34). -/
theorem statusReg_eq (s : State) :
    statusReg s = BitVec.ofNat Config.xlen (s.last.toNat + builtBits s * 2 ^ 4
      + s.fe.isSome.toNat * 2 ^ 8 + s.helperSet.toNat * 2 ^ 9) := by
  rw [statusReg, placeField_of_lt 3 0 _ s.last.isLt, placeField_of_lt 4 4 _ (builtBits_lt s),
    placeField_of_lt 1 8 _ (Bool.toNat_lt _), placeField_of_lt 1 9 _ (Bool.toNat_lt _), pow_zero,
    mul_one]

/-- Settles O4: the four fields of `statusReg_eq` lie side by side below bit 10. -/
theorem statusShowsItsFields : Obligations.StatusShowsItsFields := by
  intro s
  refine ⟨fun v => writeRefused_of_reaches reaches_status (by decide) fun _ => rfl,
    statusReg s, readsAs_of_reaches reaches_status, ?_⟩
  have hlast : s.last.toNat < 8 := s.last.isLt
  have hbuilt := builtBits_lt s
  have hfe := Bool.toNat_le s.fe.isSome
  have hhelper := Bool.toNat_le s.helperSet
  rw [statusReg_eq, ← helperSet_eq]
  generalize hn : s.last.toNat + builtBits s * 2 ^ 4 + s.fe.isSome.toNat * 2 ^ 8
    + s.helperSet.toNat * 2 ^ 9 = n
  have hlt : n < 2 ^ 10 := by omega
  refine ⟨?_, getLsbD_eq_of_field _ 3 _ ?_, fun c => getLsbD_eq_of_field _ _ _ ?_,
    getLsbD_eq_of_field _ 8 _ ?_, getLsbD_eq_of_field _ 9 _ ?_, fun b hb => ?_⟩
  · rw [field_ofNat _ _ _ (by omega)]
    omega
  · rw [field_ofNat _ _ _ (by omega)]
    simp only [Bool.toNat_false]
    omega
  · rw [field_ofNat _ _ _ (by omega), ← builtBits_bit]
    rcases slotIdx_cases c with rfl | rfl | rfl | rfl <;> norm_num <;> omega
  · rw [field_ofNat _ _ _ (by omega)]
    omega
  · rw [field_ofNat _ _ _ (by omega)]
    omega
  · have hpow : 2 ^ 10 ≤ 2 ^ b := Nat.pow_le_pow_right (by omega) hb
    refine getLsbD_eq_of_field _ _ _ ?_
    rw [field_ofNat _ _ _ (by omega), Nat.div_eq_of_lt (by omega)]
    rfl

end Sys2Proof.Machine


namespace Sys2Proof.Machine

/-! ### CINFO and ESTICKY -/

/-- ESTICKY shows its bits at 1 to 5 (10_state.md R36). -/
theorem estickyReg_bit (s : State) (b : Nat) :
    (estickyReg s).getLsbD b = (decide (1 ≤ b ∧ b ≤ 5) && s.esticky.getLsbD (b - 1)) := by
  simp only [estickyReg, BitVec.getLsbD_shiftLeft, BitVec.getLsbD_setWidth, Config.xlen_eq]
  cases b with
  | zero => simp
  | succ b =>
    by_cases h5 : b < 5
    · simp [show b + 1 < 32 by omega, show b < 32 by omega, show b + 1 ≤ 5 by omega]
    · simp [BitVec.getLsbD_of_ge s.esticky b (by omega)]

/-- The sticky bits a host write leaves (10_state.md R36). -/
theorem clearSticky_bit (sticky : BitVec 5) (v : RegVal) (b : Nat) (hb : b < 5) :
    (clearSticky sticky v).getLsbD b = (sticky.getLsbD b && !v.getLsbD (b + 1)) := by
  simp [clearSticky, hb, Nat.add_comm]

/-- Settles O5, bit by bit. -/
theorem cinfoAndEstickyRegisters : Obligations.CinfoAndEstickyRegisters := by
  intro s
  refine ⟨readsAs_of_reaches reaches_cinfo,
    fun v => writeRefused_of_reaches reaches_cinfo (by decide) fun _ => rfl,
    ⟨estickyReg s, readsAs_of_reaches reaches_esticky, estickyReg_bit s⟩,
    fun w => ⟨clearSticky s.esticky w, fun b hb => clearSticky_bit s.esticky w b hb, ?_⟩⟩
  exact writeGives_of_reaches reaches_esticky (by decide) fun _ => rfl

/-! ### FEINFO -/

/-- FEINFO of a constructed extractor as a number (10_state.md R38). -/
theorem feinfoReg_eq (s : State) (fe : Extractor) (hfe : s.fe = some fe)
    (hm : fe.mbits < 2 ^ 10) (hp : fe.pbits < 2 ^ 10) :
    feinfoReg s = BitVec.ofNat Config.xlen (1 + fe.helper.isSome.toNat * 2 ^ 1
      + fe.slot.val * 2 ^ 2 + fe.mbits * 2 ^ 4 + fe.pbits * 2 ^ 14) := by
  simp only [feinfoReg, hfe]
  rw [placeField_of_lt 1 1 _ (Bool.toNat_lt _), placeField_of_lt 2 2 _ (slotIdx_lt _),
    placeField_of_lt 10 4 _ hm, placeField_of_lt 10 14 _ hp]

/-- Settles O6. The invariant bounds the two counts by the length of a built code. -/
theorem feinfoShowsTheExtractor : Obligations.FeinfoShowsTheExtractor := by
  intro s hinv
  have hread := readsAs_of_reaches (s := s) reaches_feinfo
  refine ⟨fun v => writeRefused_of_reaches reaches_feinfo (by decide) fun _ => rfl,
    fun hnone => ?_, fun fe hfe => ⟨feinfoReg s, hread, ?_⟩⟩
  · simpa [readReg, feinfoReg, hnone] using hread
  obtain ⟨hcodes, hext, -⟩ := (State.inv_iff s).1 hinv
  obtain ⟨c, hslot, ⟨-, -, hn⟩, -⟩ := (Extractor.ok_iff s fe).1 (hext fe hfe)
  obtain ⟨-, -, hle, -, -⟩ := Code.ok_bounds (hcodes fe.slot c hslot)
  have hs := slotIdx_lt fe.slot
  have hh := Bool.toNat_le fe.helper.isSome
  have hm : fe.mbits < 2 ^ 10 := by omega
  have hp : fe.pbits < 2 ^ 10 := by omega
  rw [feinfoReg_eq s fe hfe hm hp]
  -- the sum of the counts says no more than these bounds about the fields
  clear hn
  generalize hv : 1 + fe.helper.isSome.toNat * 2 ^ 1 + fe.slot.val * 2 ^ 2 + fe.mbits * 2 ^ 4
    + fe.pbits * 2 ^ 14 = n
  have hfield (hi lo : Nat) := field_ofNat n hi lo (by omega)
  refine ⟨getLsbD_eq_of_field _ 0 _ ?_, getLsbD_eq_of_field _ 1 _ ?_, ?_, ?_, ?_, ?_⟩ <;>
    rw [hfield]
  · simp only [Bool.toNat_true]
    omega
  all_goals omega

/-! ### The INFO registers -/

/-- The family's two parameters and q fit a byte, for a code its constructor admits (10_state.md
R25). -/
theorem Code.ok_bytes {c : Code} (hc : c.ok = true) :
    c.q < 2 ^ 8 ∧ (familyBytes c.kind).1 < 2 ^ 8 ∧ (familyBytes c.kind).2 < 2 ^ 8 := by
  obtain ⟨hk, hkn, hn, -, -⟩ := Code.ok_bounds hc
  cases hkind : c.kind with
  | ham r =>
    obtain ⟨hq, -, -, hkr, -⟩ := Code.ok_ham hc hkind
    have hqle := le_of_isPrime hq
    simp only [familyBytes]
    omega
  | bch m off f a =>
    obtain ⟨hq, ⟨-, hoff⟩, -, -, -, hnq, -, -⟩ := Code.ok_bch hc hkind
    have hqle := le_of_isPrime hq
    have hm : m < 9 := by
      by_contra hge
      have h1 : 2 ^ 9 ≤ 2 ^ m := Nat.pow_le_pow_right (by omega) (by omega)
      have h2 : 2 ^ m ≤ c.q ^ m := Nat.pow_le_pow_left (two_le_of_isPrime hq) m
      omega
    simp only [familyBytes]
    omega
  | gol =>
    have hrow := (golParams_eq_some_iff _ _ _ _).1 (Code.ok_gol hc hkind)
    simp only [List.mem_cons, Prod.mk.injEq, List.not_mem_nil, or_false] at hrow
    simp only [familyBytes]
    omega
  | rm r m =>
    obtain ⟨hq, hr, hm, -⟩ := Code.ok_rm hc hkind
    simp only [familyBytes]
    omega

theorem familyNumber_lt (kind : CodeKind) : familyNumber kind < 2 ^ 3 := by
  cases kind <;> simp [familyNumber]

/-- The three registers of a built slot as numbers (10_state.md R39). -/
theorem codeInfo_eq {c : Code} (hc : c.ok = true) :
    codeInfo c 0 = BitVec.ofNat Config.xlen (1 + familyNumber c.kind * 2 ^ 1 + c.q * 2 ^ 8)
    ∧ codeInfo c 1 = BitVec.ofNat Config.xlen (c.n + c.k * 2 ^ 9 + c.d * 2 ^ 18)
    ∧ codeInfo c 2 = BitVec.ofNat Config.xlen
        ((familyBytes c.kind).1 + (familyBytes c.kind).2 * 2 ^ 8) := by
  obtain ⟨-, hkn, hn, -, hd⟩ := Code.ok_bounds hc
  obtain ⟨hq, h1, h2⟩ := Code.ok_bytes hc
  simp only [codeInfo]
  rw [placeField_of_lt 3 1 _ (familyNumber_lt _), placeField_of_lt 8 8 c.q hq,
    placeField_of_lt 9 0 c.n (by omega), placeField_of_lt 9 9 c.k (by omega),
    placeField_of_lt 9 18 c.d (by omega), placeField_of_lt 8 0 _ h1, placeField_of_lt 8 8 _ h2,
    pow_zero, mul_one, mul_one]
  exact ⟨rfl, rfl, rfl⟩

/-- The offset k bytes into the INFO block of slot c (10_state.md R39). -/
def infoOffset (c : SlotIdx) (k : Nat) : Offset := BitVec.ofNat Config.aw (0x0040 + 0x10 * c.val + k)

theorem reaches_info (c : SlotIdx) (w : Fin 3) : Reaches (infoOffset c (4 * w.val)) (.info c w) := by
  rw [reaches_iff]
  revert c w
  decide

theorem registerAt_info_unmapped (c : SlotIdx) : registerAt (infoOffset c 0xC) = none := by
  revert c
  decide

/-- Settles O7: the invariant bounds every field by its width, so the fields of `codeInfo_eq` lie side
by side. -/
theorem infoRegistersShowTheSlot : Obligations.InfoRegistersShowTheSlot := by
  intro s c hinv at_
  have hread (w : Fin 3) := readsAs_of_reaches (s := s) (reaches_info c w)
  have hwrite (w : Fin 3) (v : RegVal) : s.writeRefused (infoOffset c (4 * w.val)) v :=
    writeRefused_of_reaches (reaches_info c w) (by simp) fun _ => rfl
  obtain ⟨hgap, hgap'⟩ := refused_of_not_mapped (s := s) (.inr (registerAt_info_unmapped c))
  refine ⟨fun hnone => ?_, hgap, fun v => ⟨hwrite 0 v, hwrite 1 v, hwrite 2 v, hgap' v⟩,
    fun code hcode => ?_⟩
  · have hzero (w : Fin 3) : readReg (.info c w) s = 0 := by simp [readReg, infoReg, hnone]
    simp only [hzero] at hread
    exact ⟨hread 0, hread 1, hread 2⟩
  have hinfo (w : Fin 3) : readReg (.info c w) s = codeInfo code w := by
    simp [readReg, infoReg, hcode]
  simp only [hinfo] at hread
  refine ⟨codeInfo code 0, codeInfo code 1, codeInfo code 2, hread 0, hread 1, hread 2, ?_⟩
  have hok : code.ok = true := ((State.inv_iff s).1 hinv).1 c code hcode
  obtain ⟨-, hkn, hn, -, hd⟩ := Code.ok_bounds hok
  obtain ⟨hq, h1, h2⟩ := Code.ok_bytes hok
  have hfam := familyNumber_lt code.kind
  obtain ⟨e0, e1, e2⟩ := codeInfo_eq hok
  have f0 (hi lo : Nat) := field_ofNat
    (1 + familyNumber code.kind * 2 ^ 1 + code.q * 2 ^ 8) hi lo (by omega)
  have f1 (hi lo : Nat) := field_ofNat (code.n + code.k * 2 ^ 9 + code.d * 2 ^ 18) hi lo (by omega)
  have f2 (hi lo : Nat) := field_ofNat
    ((familyBytes code.kind).1 + (familyBytes code.kind).2 * 2 ^ 8) hi lo (by omega)
  have hshow : field (codeInfo code 0) 3 1 = familyNumber code.kind
      ∧ field (codeInfo code 2) 7 0 = (familyBytes code.kind).1
      ∧ field (codeInfo code 2) 15 8 = (familyBytes code.kind).2 := by
    rw [e0, e2, f0, f2, f2]
    omega
  refine ⟨?_, ?_, ?_, ?_, ?_, ?_, ?_, ?_, ?_, fun r hk => ?_, fun m off f a hk => ?_, fun hk => ?_,
    fun r m hk => ?_⟩
  iterate 4 rw [e0, f0]; omega
  iterate 4 rw [e1, f1]; omega
  · rw [e2, f2]; omega
  all_goals rw [hk] at hshow; exact hshow

end Sys2Proof.Machine


namespace Sys2Proof.Machine

/-! ### The windows of the word registers -/

/-- The offset k bytes into the window of word register i (10_state.md R40). -/
def wordOffset (i : WordIdx) (k : Nat) : Offset := BitVec.ofNat Config.aw (wordBase i + k)

theorem wordOffset_toNat (i : WordIdx) (k : Nat) (hk : k < 0x800) :
    (wordOffset i k).toNat = 0x1000 + 0x800 * i.val + k := by
  have hi := wordIdx_lt i
  simp only [wordOffset, wordBase, BitVec.toNat_ofNat, Config.aw_eq]
  omega

/-- The window's map: cells below 0x400, LEN at 0x400, nothing above (10_state.md R40). -/
theorem registerAt_wordOffset (i : WordIdx) (k : Nat) (hk : k < 0x800) :
    registerAt (wordOffset i k)
      = if k < 4 * Config.nmax then some (.cell i (Fin.ofNat Config.nmax (k / 4)))
        else if k = 0x400 then some (.len i) else none := by
  have hi := wordIdx_lt i
  have hreg : Fin.ofNat Config.nw ((0x1000 + 0x800 * i.val + k - 0x1000) / 0x800) = i :=
    Fin.ext (by simp only [Fin.ofNat, Config.nw_eq]; omega)
  have hin : (0x1000 + 0x800 * i.val + k - 0x1000) % 0x800 = k := by omega
  have hwindow : wordWindowReg (0x1000 + 0x800 * i.val + k)
      = if k < 4 * Config.nmax then some (.cell i (Fin.ofNat Config.nmax (k / 4)))
        else if k = 0x400 then some (.len i) else none := by
    simp only [wordWindowReg, hreg, hin]
  rw [registerAt, wordOffset_toNat i k hk]
  split
  iterate 7 omega
  rw [if_neg (by simp only [Config.nslot_eq]; omega), if_pos (by simp only [Config.nw_eq]; omega),
    hwindow]

theorem wordOffset_aligned (i : WordIdx) (k : Nat) (hk : k < 0x800) :
    (wordOffset i k).toNat % 4 = k % 4 := by
  rw [wordOffset_toNat i k hk]
  omega

theorem reaches_cell (i : WordIdx) (j : Fin Config.nmax) :
    Reaches (wordOffset i (4 * j.val)) (.cell i j) := by
  have hj := cellIdx_lt j
  have hidx : Fin.ofNat Config.nmax (4 * j.val / 4) = j :=
    Fin.ext (by simp only [Fin.ofNat, Config.nmax_eq]; omega)
  rw [reaches_iff, wordOffset_aligned i _ (by omega), registerAt_wordOffset i _ (by omega), hidx,
    if_pos (by simp only [Config.nmax_eq]; omega)]
  exact ⟨by omega, rfl⟩

theorem reaches_len (i : WordIdx) : Reaches (wordOffset i 0x400) (.len i) := by
  rw [reaches_iff, wordOffset_aligned i _ (by omega), registerAt_wordOffset i _ (by omega)]
  exact ⟨rfl, rfl⟩

/-- Above LEN the window is unmapped or misaligned (10_state.md R40). -/
theorem refused_above_len (s : State) (i : WordIdx) (k : Nat) (hlo : 0x404 ≤ k) (hhi : k ≤ 0x7FC) :
    s.readRefused (wordOffset i k) ∧ ∀ v, s.writeRefused (wordOffset i k) v := by
  refine refused_of_not_mapped (.inr ?_)
  rw [registerAt_wordOffset i k (by omega), if_neg (by simp only [Config.nmax_eq]; omega),
    if_neg (by omega)]

/-- Settles O8: the map sends each offset of the window to its cell, to LEN, or nowhere. -/
theorem wordWindowReadsAndWrites : Obligations.WordWindowReadsAndWrites := by
  intro s i w at_
  refine ⟨fun j => ⟨readsAs_of_reaches (reaches_cell i j), fun v => ⟨fun hv => ?_, fun hv => ?_⟩⟩,
    readsAs_of_reaches (reaches_len i), fun v => ⟨fun hv => ?_, fun hv => ?_⟩,
    fun k hlo hhi => refused_above_len s i k hlo hhi⟩
  · exact writeGives_of_reaches (reaches_cell i j) (by simp) fun p =>
      if_pos (show v.toNat < 2 ^ 8 by omega)
  · exact writeRefused_of_reaches (reaches_cell i j) (by simp) fun _ =>
      if_neg (show ¬ v.toNat < 2 ^ 8 by omega)
  · refine ⟨Fin.ofNat (Config.nmax + 1) v.toNat, Nat.mod_eq_of_lt (Nat.lt_succ_of_le hv), ?_⟩
    exact writeGives_of_reaches (reaches_len i) (by simp) fun p => if_pos hv
  · exact writeRefused_of_reaches (reaches_len i) (by simp) fun _ =>
      if_neg (show ¬ v.toNat ≤ 256 by omega)

end Sys2Proof.Machine


/-! ## Which accesses get AccessError -/

namespace Sys2Proof.Machine

/-! ### The address map, from the register to its offset -/

/-- The offset of a register (20_memory.md R51): the address map read the other way. -/
def WindowReg.offset : WindowReg → Nat
  | .id => 0x0000
  | .cmd => 0x0004
  | .status => 0x0008
  | .cinfo => 0x000C
  | .esticky => 0x0010
  | .feinfo => 0x0014
  | .params => 0x0018
  | .info c k => 0x0040 + 0x10 * c.val + 4 * k.val
  | .cell i j => wordBase i + 4 * j.val
  | .len i => wordBase i + 0x400

theorem reaches_ofNat_offset (r : WindowReg) : Reaches (BitVec.ofNat Config.aw r.offset) r := by
  cases r with
  | id => exact reaches_id
  | cmd => exact reaches_cmd
  | status => exact reaches_status
  | cinfo => exact reaches_cinfo
  | esticky => exact reaches_esticky
  | feinfo => exact reaches_feinfo
  | params => exact reaches_params
  | info c k => exact reaches_info c k
  | cell i j => exact reaches_cell i j
  | len i => exact reaches_len i

theorem infoBlockReg_offset (a : Nat) (r : WindowReg) (hal : a % 4 = 0)
    (hlo : 0x40 ≤ a) (hhi : a < 0x80) (h : infoBlockReg a = some r) : a = r.offset := by
  unfold infoBlockReg at h
  split at h
  · obtain rfl := Option.some.inj h
    simp only [WindowReg.offset, Fin.ofNat, Config.nslot_eq]
    omega
  · cases h

theorem wordWindowReg_offset (a : Nat) (r : WindowReg) (hal : a % 4 = 0)
    (hlo : 0x1000 ≤ a) (hhi : a < 0x3000) (h : wordWindowReg a = some r) : a = r.offset := by
  simp only [wordWindowReg, Config.nmax_eq] at h
  split at h
  · obtain rfl := Option.some.inj h
    simp only [WindowReg.offset, wordBase, Fin.ofNat, Config.nw_eq]
    omega
  · split at h
    · obtain rfl := Option.some.inj h
      simp only [WindowReg.offset, wordBase, Fin.ofNat, Config.nw_eq]
      omega
    · cases h

/-- The map sends no aligned offset but a register's own to it. -/
theorem registerAt_offset (off : Offset) (r : WindowReg) (hal : off.toNat % 4 = 0)
    (h : registerAt off = some r) : off.toNat = r.offset := by
  unfold registerAt at h
  split at h
  iterate 7
    · obtain rfl := Option.some.inj h
      assumption
  split at h
  · rename_i hrange
    exact infoBlockReg_offset _ r hal hrange.1 hrange.2 h
  · split at h
    · rename_i hrange
      exact wordWindowReg_offset _ r hal hrange.1 hrange.2 h
    · cases h

/-- An access reaches a register exactly at its offset (20_memory.md R51). -/
theorem reaches_iff_offset (off : Offset) (r : WindowReg) :
    Reaches off r ↔ off.toNat = r.offset := by
  constructor
  · intro h
    obtain ⟨hal, hreg⟩ := (reaches_iff off r).1 h
    exact registerAt_offset off r hal hreg
  · intro h
    have hoff : off = BitVec.ofNat Config.aw r.offset := by simp [← h]
    rw [hoff]
    exact reaches_ofNat_offset r

section
variable {off : Offset} {r : WindowReg} (h : Reaches off r)
include h

theorem Reaches.offset_eq_iff (r' : WindowReg) : off.toNat = r'.offset ↔ r = r' := by
  rw [← reaches_iff_offset]
  constructor
  · intro h'
    exact Except.ok.inj (h.symm.trans h')
  · rintro rfl
    exact h

/-! ### The statements' address map is the model's -/

theorem Reaches.isCellOffset_iff : IsCellOffset off.toNat ↔ ∃ i j, r = .cell i j :=
  exists₂_congr fun i j => h.offset_eq_iff (.cell i j)

theorem Reaches.isLenOffset_iff : IsLenOffset off.toNat ↔ ∃ i, r = .len i :=
  exists_congr fun i => h.offset_eq_iff (.len i)

theorem Reaches.isReadOnlyOffset_iff : IsReadOnlyOffset off.toNat ↔
    r = .id ∨ r = .status ∨ r = .cinfo ∨ r = .feinfo ∨ r = .params ∨ ∃ c k, r = .info c k :=
  or_congr (h.offset_eq_iff .id) <| or_congr (h.offset_eq_iff .status) <|
    or_congr (h.offset_eq_iff .cinfo) <| or_congr (h.offset_eq_iff .feinfo) <|
    or_congr (h.offset_eq_iff .params) <| exists₂_congr fun c k => h.offset_eq_iff (.info c k)

end

/-- The mapped offsets are those of the registers (20_memory.md R51). -/
theorem isMappedOffset_iff (off : Offset) : IsMappedOffset off.toNat ↔ ∃ r, Reaches off r := by
  simp only [reaches_iff_offset]
  constructor
  · rintro ((h | h | h | h | h | ⟨c, k, h⟩) | h | h | ⟨i, j, h⟩ | ⟨i, h⟩)
    exacts [⟨.id, h⟩, ⟨.status, h⟩, ⟨.cinfo, h⟩, ⟨.feinfo, h⟩, ⟨.params, h⟩, ⟨.info c k, h⟩,
      ⟨.cmd, h⟩, ⟨.esticky, h⟩, ⟨.cell i j, h⟩, ⟨.len i, h⟩]
  · rintro ⟨r, h⟩
    cases r with
    | id => exact .inl (.inl h)
    | status => exact .inl (.inr (.inl h))
    | cinfo => exact .inl (.inr (.inr (.inl h)))
    | feinfo => exact .inl (.inr (.inr (.inr (.inl h))))
    | params => exact .inl (.inr (.inr (.inr (.inr (.inl h)))))
    | info c k => exact .inl (.inr (.inr (.inr (.inr (.inr ⟨c, k, h⟩)))))
    | cmd => exact .inr (.inl h)
    | esticky => exact .inr (.inr (.inl h))
    | cell i j => exact .inr (.inr (.inr (.inl ⟨i, j, h⟩)))
    | len i => exact .inr (.inr (.inr (.inr ⟨i, h⟩)))

/-- An access is admitted when it is 32 bits wide, aligned and mapped (20_memory.md R54). -/
theorem accessTarget_ok_iff_mapped (off : Offset) (width : AccessWidth) :
    (∃ r, accessTarget off width = .ok r) ↔
      width = .bits32 ∧ off.toNat % 4 = 0 ∧ IsMappedOffset off.toNat := by
  simp only [isMappedOffset_iff, reaches_iff, accessTarget_ok_iff, exists_and_left,
    and_self_left]

/-- A range test on a write answers a state exactly when it holds. -/
theorem exists_guarded_ok_iff {α : Type} (p : Prop) [Decidable p] (e : AccessError) (x : α) :
    (∃ t, (if p then Except.ok x else Except.error e) = Except.ok t) ↔ p := by
  by_cases hp : p <;> simp [hp]

/-- A register takes a value when it is writable and the value is in its range (20_memory.md R56). -/
theorem writeReg_ok_iff {off : Offset} {r : WindowReg} (h : Reaches off r) (v : RegVal) (s : State) :
    (∃ t, writeReg r v s = .ok t) ↔
      ¬ IsReadOnlyOffset off.toNat ∧ (IsCellOffset off.toNat → v.toNat ≤ 255)
        ∧ (IsLenOffset off.toNat → v.toNat ≤ 256) := by
  rw [h.isReadOnlyOffset_iff, h.isCellOffset_iff, h.isLenOffset_iff]
  cases r with
  | id | status | cinfo | feinfo | params | info => simp [writeReg]
  | cmd | esticky => simp [writeReg]
  | cell i j =>
    have hrange : v.toNat < 256 ↔ v.toNat ≤ 255 := Nat.lt_succ_iff
    simp [writeReg, exists_guarded_ok_iff, hrange]
  | len i => simp [writeReg, exists_guarded_ok_iff]

/-- A write is admitted on top of its access when its register takes the value (20_memory.md R54,
R56). -/
theorem write_admitted_iff (off : Offset) (width : AccessWidth) (v : RegVal) (s : State) :
    (∃ r, accessTarget off width = .ok r ∧ ∃ t, writeReg r v s = .ok t) ↔
      width = .bits32 ∧ off.toNat % 4 = 0 ∧ IsMappedOffset off.toNat
        ∧ ¬ IsReadOnlyOffset off.toNat ∧ (IsCellOffset off.toNat → v.toNat ≤ 255)
        ∧ (IsLenOffset off.toNat → v.toNat ≤ 256) := by
  constructor
  · rintro ⟨r, htarget, hwrite⟩
    obtain ⟨rfl, hal, hmapped⟩ := (accessTarget_ok_iff_mapped off width).1 ⟨r, htarget⟩
    exact ⟨rfl, hal, hmapped, (writeReg_ok_iff htarget v s).1 hwrite⟩
  · rintro ⟨rfl, hal, hmapped, hvalue⟩
    obtain ⟨r, htarget⟩ := (isMappedOffset_iff off).1 hmapped
    exact ⟨r, htarget, (writeReg_ok_iff htarget v s).2 hvalue⟩

/-! ### The step that serves an access -/

/-- A read is refused exactly when it reaches no register (20_memory.md R55). -/
theorem serveRead_refused_iff (off : Offset) (width : AccessWidth) (rest : List BusRequest)
    (s : State) :
    (∃ e, serveRead off width rest s = .refused (.accessError e)) ↔
      ¬ ∃ r, accessTarget off width = .ok r := by
  unfold serveRead
  cases accessTarget off width <;> simp

/-- A write is refused exactly when it reaches no register that takes the value; CMD takes every word
(20_memory.md R56). -/
theorem serveWrite_refused_iff (off : Offset) (width : AccessWidth) (v : RegVal)
    (rest : List BusRequest) (s : State) :
    (∃ e, serveWrite off width v rest s = .refused (.accessError e)) ↔
      ¬ ∃ r, accessTarget off width = .ok r ∧ ∃ t, writeReg r v s = .ok t := by
  unfold serveWrite
  cases accessTarget off width with
  | error e => simp
  | ok r =>
    by_cases hr : r = .cmd
    · obtain ⟨t, hrun, -, -⟩ := runCommand_next v (s.answer rest .writeDone)
      simp [hr, hrun, writeReg]
    · cases hw : writeReg r v s <;> simp [hw]

/-- Settles O9: an access is served exactly when it reaches a register, and on a write the register
takes the value. -/
theorem accessErrorExactlyOnInadmissibleAccess :
    Obligations.AccessErrorExactlyOnInadmissibleAccess := by
  intro s off width rest
  refine ⟨fun hport => ?_, fun v hport => ?_⟩
  · simp only [step, hport]
    rw [serveRead_refused_iff, accessTarget_ok_iff_mapped]
  · simp only [step, hport]
    rw [serveWrite_refused_iff, write_admitted_iff]

/-- Settles O10: a read looks at neither the port nor the last answer, so it repeats. -/
theorem admittedReadChangesNothing : Obligations.AdmittedReadChangesNothing := by
  intro s t off width rest hport hstep
  simp only [step, hport] at hstep
  obtain ⟨r, htarget, rfl⟩ := serveRead_next off width rest s t hstep
  refine ⟨readReg r s, rfl, ?_⟩
  obtain ⟨rfl, -, -⟩ := (accessTarget_ok_iff off width r).1 htarget
  have hsame : readReg r (s.answer rest (.readData (readReg r s))) = readReg r s :=
    readReg_outside r s rest _ s.draws
  have hread := readsAs_of_reaches (s := s.answer rest (.readData (readReg r s))) htarget
  rw [hsame] at hread
  exact hread

end Sys2Proof.Machine


/-! ## The decoder and the encoder

A word is its fields side by side, so decode and encode invert each other format by format. A row of
the opcode table fixes the opcode and the must-be-0 fields of a word, which is all that the decoder
tests. -/

namespace Sys2Proof.Machine

/-! ### Fields of a word -/

/-- A field of a word given as a number, whatever stands above the word. -/
theorem field_ofNat_mod (n hi lo : Nat) :
    field (BitVec.ofNat Config.xlen n) hi lo = n % 2 ^ 32 / 2 ^ lo % 2 ^ (hi + 1 - lo) := by
  rw [field, BitVec.toNat_ofNat, Config.xlen_eq]

theorem wordField_val (v : RegVal) (lo : Nat) : (wordField v lo).val = field v (lo + 1) lo := by
  have h := field_lt v (lo + 1) lo
  rw [show lo + 1 + 1 - lo = 2 by omega] at h
  exact Nat.mod_eq_of_lt h

theorem slotField_val (v : RegVal) (lo : Nat) : (slotField v lo).val = field v (lo + 1) lo :=
  wordField_val v lo

/-! ### The fields of the word of a format -/

section
variable (opcode : Nat) (cs : SlotIdx) (wd ws : WordIdx)

/-- Format N (30_encoding.md R72); the must-be-0 bits of GOL.NEW are p2 and p3 as one field. -/
theorem fields_formatN {p1 p2 p3 : Nat} (h1 : p1 < 256) (h2 : p2 < 256) (h3 : p3 < 256) :
    field (formatN opcode cs p1 p2 p3) 25 24 = cs.val
      ∧ field (formatN opcode cs p1 p2 p3) 23 16 = p1
      ∧ field (formatN opcode cs p1 p2 p3) 15 8 = p2
      ∧ field (formatN opcode cs p1 p2 p3) 7 0 = p3
      ∧ field (formatN opcode cs p1 p2 p3) 15 0 = p2 * 2 ^ 8 + p3 := by
  have hcs := slotIdx_lt cs
  simp only [formatN, field_ofNat_mod]
  omega

/-- Format W (30_encoding.md R73). -/
theorem fields_formatW :
    field (formatW opcode cs wd ws) 25 24 = cs.val ∧ field (formatW opcode cs wd ws) 23 22 = wd.val
      ∧ field (formatW opcode cs wd ws) 21 20 = ws.val
      ∧ field (formatW opcode cs wd ws) 19 0 = 0 := by
  have hcs := slotIdx_lt cs
  have hwd := wordIdx_lt wd
  have hws := wordIdx_lt ws
  simp only [formatW, field_ofNat_mod]
  omega

/-- Format X (30_encoding.md R74). -/
theorem fields_formatX :
    field (formatX opcode wd ws) 25 24 = 0 ∧ field (formatX opcode wd ws) 23 22 = wd.val
      ∧ field (formatX opcode wd ws) 21 20 = ws.val ∧ field (formatX opcode wd ws) 19 0 = 0 := by
  have hwd := wordIdx_lt wd
  have hws := wordIdx_lt ws
  simp only [formatX, field_ofNat_mod]
  omega

/-- Format F (30_encoding.md R75). -/
theorem fields_formatF {h mb pb : Nat} (hh : h < 2) (hmb : mb < 1024) (hpb : pb < 1024) :
    field (formatF opcode cs h mb pb) 25 24 = cs.val ∧ field (formatF opcode cs h mb pb) 23 23 = h
      ∧ field (formatF opcode cs h mb pb) 22 20 = 0 ∧ field (formatF opcode cs h mb pb) 19 10 = mb
      ∧ field (formatF opcode cs h mb pb) 9 0 = pb := by
  have hcs := slotIdx_lt cs
  simp only [formatF, field_ofNat_mod]
  omega

/-- Format H (30_encoding.md R75). -/
theorem fields_formatH {sel : Nat} (hsel : sel < 2) :
    field (formatH opcode wd sel) 25 24 = 0 ∧ field (formatH opcode wd sel) 23 22 = wd.val
      ∧ field (formatH opcode wd sel) 21 21 = 0 ∧ field (formatH opcode wd sel) 20 20 = sel
      ∧ field (formatH opcode wd sel) 19 0 = 0 := by
  have hwd := wordIdx_lt wd
  simp only [formatH, field_ofNat_mod]
  omega

end

/-! ### Decoding an encoded command -/

/-- Bits [31:26] of a well-formed command's word are its opcode (30_encoding.md R71). -/
theorem opcode_encode (i : Instr) (h : i.wellFormed = true) :
    field (encode i) 31 26 = opcodeOf i := by
  cases i with
  | hamNew cs r q => exact Laws.OpcodeField.hamNew cs r q h
  | bchNew cs q d c => exact Laws.OpcodeField.bchNew cs q d c h
  | golNew cs n => exact Laws.OpcodeField.golNew cs n h
  | rmNew cs r m => exact Laws.OpcodeField.rmNew cs r m h
  | enc wd ws cs => exact Laws.OpcodeField.enc wd ws cs h
  | dec wd ws cs => exact Laws.OpcodeField.dec wd ws cs h
  | decm wd ws cs => exact Laws.OpcodeField.decm wd ws cs h
  | feNew cs mb pb b => exact Laws.OpcodeField.feNew cs mb pb b h
  | feGen wd ws => exact Laws.OpcodeField.feGen wd ws h
  | feRep wd ws => exact Laws.OpcodeField.feRep wd ws h
  | feHdrd wd sel => exact Laws.OpcodeField.feHdrd wd sel h

/-- Settles O13: the opcode of the word selects the command's own format, and each field of the
format reads back its operand. -/
theorem decodeInvertsEncode : Obligations.DecodeInvertsEncode := by
  intro i hwf
  unfold decode
  rw [opcode_encode i hwf]
  cases i with
  | hamNew cs r q =>
    obtain ⟨hr, hq⟩ : r < 256 ∧ q < 256 := by simpa [Instr.wellFormed, fitsParam] using hwf
    have hfields := fields_formatN 0x01 cs hr hq (show 0 < 256 by decide)
    simp [opcodeOf, encode, requireZero_ok_iff, Fin.ext_iff, slotField_val, hfields]
  | bchNew cs q d c =>
    obtain ⟨⟨hq, hd⟩, hc⟩ : (q < 256 ∧ d < 256) ∧ c < 256 := by
      simpa [Instr.wellFormed, fitsParam] using hwf
    have hfields := fields_formatN 0x02 cs hq hd hc
    simp [opcodeOf, encode, Fin.ext_iff, slotField_val, hfields]
  | golNew cs n =>
    have hn : n < 256 := by simpa [Instr.wellFormed, fitsParam] using hwf
    have hfields := fields_formatN 0x03 cs hn (show 0 < 256 by decide) (show 0 < 256 by decide)
    simp [opcodeOf, encode, requireZero_ok_iff, Fin.ext_iff, slotField_val, hfields]
  | rmNew cs r m =>
    obtain ⟨hr, hm⟩ : r < 256 ∧ m < 256 := by simpa [Instr.wellFormed, fitsParam] using hwf
    have hfields := fields_formatN 0x04 cs hr hm (show 0 < 256 by decide)
    simp [opcodeOf, encode, requireZero_ok_iff, Fin.ext_iff, slotField_val, hfields]
  | enc wd ws cs | dec wd ws cs | decm wd ws cs =>
    simp [opcodeOf, encode, requireZero_ok_iff, Fin.ext_iff, slotField_val, wordField_val,
      fields_formatW]
  | feNew cs mb pb h =>
    obtain ⟨hmb, hpb⟩ : mb < 1024 ∧ pb < 1024 := by
      simpa [Instr.wellFormed, fitsBitCount] using hwf
    have hfields := fields_formatF 0x10 cs h.toNat_lt hmb hpb
    simp [opcodeOf, encode, requireZero_ok_iff, Fin.ext_iff, slotField_val, hfields]
  | feGen wd ws | feRep wd ws =>
    simp [opcodeOf, encode, requireZero_ok_iff, Fin.ext_iff, wordField_val, fields_formatX]
  | feHdrd wd sel =>
    cases sel <;>
      simp [opcodeOf, encode, requireZero_ok_iff, Fin.ext_iff, wordField_val, selBit,
        fields_formatH]

/-! ### Encoding a decoded command -/

theorem ofNat_eq_of_toNat {n : Nat} {v : RegVal} (h : n = v.toNat) :
    BitVec.ofNat Config.xlen n = v := by
  rw [h, BitVec.ofNat_toNat, BitVec.setWidth_eq]

/-! The fields of a format, must-be-0 bits with them, cover the word. -/

section
variable {opcode : Nat} {v : RegVal} (hop : field v 31 26 = opcode)
include hop

theorem formatN_of_fields {p3 : Nat} (h3 : field v 7 0 = p3) :
    formatN opcode (slotField v 24) (field v 23 16) (field v 15 8) p3 = v := by
  refine ofNat_eq_of_toNat ?_
  have hv := regVal_lt v
  simp only [slotField_val, field] at *
  omega

/-- GOL.NEW, whose p2 and p3 are must-be-0. -/
theorem formatN_of_fields_zero (hz : field v 15 0 = 0) :
    formatN opcode (slotField v 24) (field v 23 16) 0 0 = v := by
  refine ofNat_eq_of_toNat ?_
  have hv := regVal_lt v
  simp only [slotField_val, field] at *
  omega

theorem formatW_of_fields (hz : field v 19 0 = 0) :
    formatW opcode (slotField v 24) (wordField v 22) (wordField v 20) = v := by
  refine ofNat_eq_of_toNat ?_
  have hv := regVal_lt v
  simp only [slotField_val, wordField_val, field] at *
  omega

theorem formatX_of_fields (hz : field v 25 24 + field v 19 0 = 0) :
    formatX opcode (wordField v 22) (wordField v 20) = v := by
  refine ofNat_eq_of_toNat ?_
  have hv := regVal_lt v
  simp only [wordField_val, field] at *
  omega

theorem formatF_of_fields (hz : field v 22 20 = 0) :
    formatF opcode (slotField v 24) (field v 23 23) (field v 19 10) (field v 9 0) = v := by
  refine ofNat_eq_of_toNat ?_
  have hv := regVal_lt v
  simp only [slotField_val, field] at *
  omega

theorem formatH_of_fields (hz : field v 25 24 + field v 21 21 + field v 19 0 = 0) :
    formatH opcode (wordField v 22) (field v 20 20) = v := by
  obtain ⟨⟨hslot, hupper⟩, hlow⟩ : (field v 25 24 = 0 ∧ field v 21 21 = 0) ∧ field v 19 0 = 0 := by
    simpa only [Nat.add_eq_zero_iff] using hz
  refine ofNat_eq_of_toNat ?_
  have hv := regVal_lt v
  simp only [wordField_val, field] at *
  omega

end

theorem field_bit_cases (v : RegVal) (b : Nat) : field v b b = 0 ∨ field v b b = 1 := by
  have h := field_lt v b b
  rw [Nat.add_sub_cancel_left] at h
  omega

/-- The bit h, read as a truth value and written again (30_encoding.md R75). -/
theorem toNat_field_beq_one (v : RegVal) (b : Nat) : (field v b b == 1).toNat = field v b b := by
  rcases field_bit_cases v b with h | h <;> simp [h]

/-- The bit sel, read as a half of the helper data and written again (30_encoding.md R75). -/
theorem selBit_field (v : RegVal) (b : Nat) :
    selBit (if field v b b = 0 then .s else .x) = field v b b := by
  rcases field_bit_cases v b with h | h <;> simp [h, selBit]

/-- An accepted word is the word of its command, format by format in the order of `decode`: the
fields read and the must-be-0 fields are all of its bits (30_encoding.md R78). -/
theorem encode_of_decode (v : RegVal) (i : Instr) (h : decode v = .ok i) : encode i = v := by
  unfold decode at h
  split at h <;> simp only [requireZero_ok_iff, Except.ok.injEq, reduceCtorEq] at h
  -- BCH.NEW alone has no must-be-0 bit
  case h_2 hop =>
    subst h
    exact formatN_of_fields hop rfl
  all_goals obtain ⟨hz, rfl⟩ := h
  case h_1 hop | h_4 hop => exact formatN_of_fields hop hz
  case h_3 hop => exact formatN_of_fields_zero hop hz
  case h_5 hop | h_6 hop | h_7 hop => exact formatW_of_fields hop hz
  case h_8 hop =>
    rw [encode, toNat_field_beq_one]
    exact formatF_of_fields hop hz
  case h_9 hop | h_10 hop => exact formatX_of_fields hop hz
  case h_11 hop =>
    rw [encode, selBit_field]
    exact formatH_of_fields hop hz

/-- Settles O14: `wellFormed_of_decode` bounds the operands. -/
theorem encodeInvertsDecode : Obligations.EncodeInvertsDecode :=
  fun v i h => ⟨wellFormed_of_decode v i h, encode_of_decode v i h⟩

/-! ### The opcode table -/

/-- A row of the opcode table as the decoder takes it: the opcode, and the must-be-0 fields as the
bounds `hi`, `lo` of each (30_encoding.md R71, R78). -/
structure CommandRow where
  opcode : Nat
  mustBeZero : List (Nat × Nat)

/-- The eleven rows, in the order of 30_encoding.md R77. -/
def commandRows : List CommandRow :=
  [⟨0x01, [(7, 0)]⟩, ⟨0x02, []⟩, ⟨0x03, [(15, 0)]⟩, ⟨0x04, [(7, 0)]⟩, ⟨0x08, [(19, 0)]⟩,
   ⟨0x09, [(19, 0)]⟩, ⟨0x0A, [(19, 0)]⟩, ⟨0x10, [(22, 20)]⟩, ⟨0x11, [(25, 24), (19, 0)]⟩,
   ⟨0x12, [(25, 24), (19, 0)]⟩, ⟨0x13, [(25, 24), (21, 21), (19, 0)]⟩]

/-- The word has the opcode of the row and 0 in its must-be-0 fields. -/
def CommandRow.Admits (row : CommandRow) (v : RegVal) : Prop :=
  field v 31 26 = row.opcode ∧ ∀ f ∈ row.mustBeZero, field v f.1 f.2 = 0

/-- The decoder accepts exactly the words that some row admits. -/
theorem decode_ok_iff_admits (v : RegVal) :
    (∃ i, decode v = .ok i) ↔ ∃ row ∈ commandRows, row.Admits v := by
  simp only [commandRows, CommandRow.Admits, List.exists_mem_cons_iff, List.forall_mem_cons,
    List.not_mem_nil]
  unfold decode
  split
  -- a reserved opcode is in no row
  case h_12 => simp_all
  -- a listed one is in a single row, of the must-be-0 fields that `requireZero` adds up
  all_goals
    rename_i hop
    simp [hop, requireZero_ok_iff, and_assoc]

/-- The mask of a field: 1 in the bits `hi` down to `lo`. -/
def fieldMask (hi lo : Nat) : RegVal := BitVec.ofNat Config.xlen ((2 ^ (hi + 1 - lo) - 1) * 2 ^ lo)

/-- The `match` column: the opcode in its place, 0 elsewhere. -/
def CommandRow.matchWord (row : CommandRow) : RegVal :=
  BitVec.ofNat Config.xlen (row.opcode * 2 ^ 26)

/-- The mask of the opcode and of the fields given. -/
def maskOf (fields : List (Nat × Nat)) : RegVal :=
  fields.foldr (fun f mask => fieldMask f.1 f.2 ||| mask) (fieldMask 31 26)

/-- The opcode table is the `match` and `mask` columns of the rows. -/
theorem opcodeTable_eq :
    opcodeTable = commandRows.map fun row => (row.matchWord, maskOf row.mustBeZero) := by
  decide

/-- A mask of `w` ones at `lo` cuts out the `w` bits there. -/
theorem and_ones_mul_two_pow (x w lo : Nat) :
    x &&& (2 ^ w - 1) * 2 ^ lo = x / 2 ^ lo % 2 ^ w * 2 ^ lo := by
  apply Nat.eq_of_testBit_eq
  intro b
  by_cases hb : lo ≤ b
  · simp [Nat.testBit_mul_two_pow, Nat.testBit_div_two_pow, hb, Bool.and_comm]
  · simp [Nat.testBit_mul_two_pow, hb]

theorem and_fieldMask (v : RegVal) (hi lo : Nat) :
    v &&& fieldMask hi lo = BitVec.ofNat Config.xlen (field v hi lo * 2 ^ lo) := by
  rw [field, ← and_ones_mul_two_pow, BitVec.ofNat_and, ofNat_eq_of_toNat rfl, fieldMask]

/-- A field stays below 2^32 in its place, as it is a part of the word. -/
theorem field_mul_lt (v : RegVal) (hi lo : Nat) : field v hi lo * 2 ^ lo < 2 ^ 32 :=
  calc field v hi lo * 2 ^ lo
      ≤ v.toNat / 2 ^ lo * 2 ^ lo := Nat.mul_le_mul_right _ (Nat.mod_le _ _)
    _ ≤ v.toNat := Nat.div_mul_le_self _ _
    _ < 2 ^ 32 := regVal_lt v

/-- Under the mask of a field a word shows the value of the field, in its place. -/
theorem and_fieldMask_eq_iff (v : RegVal) (hi lo x : Nat) (hx : x * 2 ^ lo < 2 ^ 32) :
    v &&& fieldMask hi lo = BitVec.ofNat Config.xlen (x * 2 ^ lo) ↔ field v hi lo = x := by
  rw [and_fieldMask, ← BitVec.toNat_inj, BitVec.toNat_ofNat, BitVec.toNat_ofNat, Config.xlen_eq,
    Nat.mod_eq_of_lt (field_mul_lt v hi lo), Nat.mod_eq_of_lt hx,
    Nat.mul_left_inj (Nat.two_pow_pos lo).ne']

theorem and_fieldMask_eq_zero_iff (v : RegVal) (hi lo : Nat) :
    v &&& fieldMask hi lo = 0 ↔ field v hi lo = 0 := by
  simpa using and_fieldMask_eq_iff v hi lo 0 (by simp)

/-- A match under a mask of two parts, when the pattern is 0 in the first. -/
theorem and_or_eq_iff (v a b m : RegVal) (hm : m &&& a = 0) :
    v &&& (a ||| b) = m ↔ v &&& a = 0 ∧ v &&& b = m := by
  constructor
  · intro h
    have hkeep : v &&& a = v &&& (a ||| b) &&& a := by
      ext k hk
      cases ha : a[k] <;> simp [ha]
    have hzero : v &&& a = 0 := by rw [hkeep, h, hm]
    exact ⟨hzero, by simpa [BitVec.and_or_distrib_left, hzero] using h⟩
  · rintro ⟨ha, hb⟩
    simp [BitVec.and_or_distrib_left, ha, hb]

/-- A word matches under a mask exactly when its opcode does and the other fields are 0. -/
theorem and_maskOf_eq_iff (v m : RegVal) (fields : List (Nat × Nat))
    (hm : ∀ f ∈ fields, field m f.1 f.2 = 0) :
    v &&& maskOf fields = m ↔
      v &&& fieldMask 31 26 = m ∧ ∀ f ∈ fields, field v f.1 f.2 = 0 := by
  induction fields with
  | nil => simp [maskOf]
  | cons f fields ih =>
    rw [List.forall_mem_cons] at hm ⊢
    have hf : m &&& fieldMask f.1 f.2 = 0 := (and_fieldMask_eq_zero_iff m f.1 f.2).2 hm.1
    rw [show maskOf (f :: fields) = fieldMask f.1 f.2 ||| maskOf fields from rfl,
      and_or_eq_iff v _ _ m hf, ih hm.2, and_fieldMask_eq_zero_iff]
    exact and_left_comm

/-- A word matches a row of the opcode table exactly when the row admits it. -/
theorem and_mask_eq_match_iff (v : RegVal) (row : CommandRow) (hrow : row ∈ commandRows) :
    v &&& maskOf row.mustBeZero = row.matchWord ↔ row.Admits v := by
  have hop : ∀ row ∈ commandRows, row.opcode * 2 ^ 26 < 2 ^ 32 := by decide
  have hzero : ∀ row ∈ commandRows, ∀ f ∈ row.mustBeZero, field row.matchWord f.1 f.2 = 0 := by
    decide
  rw [and_maskOf_eq_iff v _ _ (hzero row hrow), CommandRow.matchWord,
    and_fieldMask_eq_iff v 31 26 _ (hop row hrow), CommandRow.Admits]

/-- The opcodes of two rows differ. -/
theorem commandRows_pairwise_opcode_ne : commandRows.Pairwise fun a b => a.opcode ≠ b.opcode := by
  decide

/-- Settles O15: each row is matched by the words that it admits, all rows together admit those that the
decoder accepts, and the opcodes of two rows differ. -/
theorem decoderAgreesWithOpcodeTable : Obligations.DecoderAgreesWithOpcodeTable := by
  unfold Obligations.DecoderAgreesWithOpcodeTable
  rw [opcodeTable_eq]
  refine ⟨fun v => ?_, ?_⟩
  · simp only [decode_ok_iff_admits, List.mem_map, exists_exists_and_eq_and]
    exact exists_congr fun row => and_congr_right fun hrow =>
      (and_mask_eq_match_iff v row hrow).symm
  · rw [List.pairwise_map]
    refine commandRows_pairwise_opcode_ne.imp_of_mem fun {a b} ha hb hne v => ?_
    rw [and_mask_eq_match_iff v a ha, and_mask_eq_match_iff v b hb]
    rintro ⟨⟨hopa, -⟩, hopb, -⟩
    exact hne (hopa.symm.trans hopb)

end Sys2Proof.Machine


/-! ## ENC, DEC and DECM: their ends -/

namespace Sys2Proof.Machine

/-! ### The two ends of a command, from its body -/

theorem exec_of_body_ok {i : Instr} {s t : State} (h : commandBody i s = .ok t) :
    exec i s = .next t.reportsSuccess := by
  rw [exec_eq_finish, h]
  rfl

theorem exec_of_body_error {i : Instr} {s : State} {e : Trap} (h : commandBody i s = .error e) :
    exec i s = .next (s.raised e.code e.sub) := by
  rw [exec_eq_finish, h]
  rfl

/-! ### The operand checks -/

section
variable {s : State} {cs : SlotIdx} (wd ws : WordIdx)

theorem encodeCommand_eq {c : Code} (hslot : s.slot cs = some c) :
    encodeCommand wd ws cs s
      = (checkOperand (s.word ws) c.k c.q).map fun w => s.setWord wd (encodeWord c w) := by
  simp only [encodeCommand, (slotOperand_ok_iff s cs c).2 hslot]
  cases checkOperand (s.word ws) c.k c.q <;> rfl

theorem decodeOperand_eq {c : Code} (hslot : s.slot cs = some c) :
    decodeOperand ws cs s = (checkOperand (s.word ws) c.n c.q).bind (decodeWord c) := by
  simp only [decodeOperand, (slotOperand_ok_iff s cs c).2 hslot]
  cases checkOperand (s.word ws) c.n c.q <;> rfl

/-- A check of the operand that fails ends ENC with its exception (41_linear_code.md R126). -/
theorem exec_enc_of_check_error {c : Code} {e : Trap} (hslot : s.slot cs = some c)
    (h : checkOperand (s.word ws) c.k c.q = .error e) :
    exec (.enc wd ws cs) s = .next (s.raised e.code e.sub) :=
  exec_of_body_error (by simp only [commandBody, encodeCommand_eq wd ws hslot, h]; rfl)

/-- An exception of the part that DEC and DECM share ends both (41_linear_code.md R127, R128). -/
theorem exec_dec_decm_of_error {e : Trap} (h : decodeOperand ws cs s = .error e) :
    exec (.dec wd ws cs) s = .next (s.raised e.code e.sub)
      ∧ exec (.decm wd ws cs) s = .next (s.raised e.code e.sub) :=
  ⟨exec_of_body_error (by simp only [commandBody, h]; rfl),
    exec_of_body_error (by simp only [commandBody, h]; rfl)⟩

theorem exec_dec_decm_of_check_error {c : Code} {e : Trap} (hslot : s.slot cs = some c)
    (h : checkOperand (s.word ws) c.n c.q = .error e) :
    exec (.dec wd ws cs) s = .next (s.raised e.code e.sub)
      ∧ exec (.decm wd ws cs) s = .next (s.raised e.code e.sub) :=
  exec_dec_decm_of_error wd ws (by rw [decodeOperand_eq ws hslot, h]; rfl)

end

/-! ### The codeword is a word over GF(q) (41_linear_code.md R124) -/

theorem Code.ok_two_le_q {c : Code} (hc : c.ok = true) : 2 ≤ c.q := by
  cases hkind : c.kind with
  | ham r => exact two_le_of_isPrime (Code.ok_ham hc hkind).1
  | bch m off f a => exact two_le_of_isPrime (Code.ok_bch hc hkind).1
  | gol =>
    have hrow := (golParams_eq_some_iff _ _ _ _).1 (Code.ok_gol hc hkind)
    simp only [List.mem_cons, Prod.mk.injEq, List.not_mem_nil, or_false] at hrow
    omega
  | rm r m => exact (Code.ok_rm hc hkind).1.ge

theorem Code.ok_q_pos {c : Code} (hc : c.ok = true) : 0 < c.q :=
  Nat.zero_lt_of_lt (Code.ok_two_le_q hc)

theorem encodeWord_wordOver {c : Code} {w : Word} (hc : c.ok = true) (hw : WordOver c.q c.k w) :
    WordOver c.q c.n (encodeWord c w) := by
  have hq := Code.ok_q_pos hc
  refine ⟨encodeWord_length c w hc hw.1, ?_⟩
  unfold encodeWord
  cases hkind : c.kind with
  | ham r => exact vecMat_lt c.q _ w _ hq
  | bch m off f a =>
    intro x hx
    obtain hmsg | hrem := List.mem_append.1 hx
    · exact hw.2 x hmsg
    · obtain ⟨y, -, rfl⟩ := List.mem_map.1 hrem
      exact gfNeg_lt c.q y hq
  | gol => exact vecMat_lt c.q _ w _ hq
  | rm r m =>
    rw [(Code.ok_rm hc hkind).1]
    exact vecMat_lt 2 _ w _ (by omega)

/-- Settles O36: an empty slot fails the first check, a wrong length or symbol the second. -/
theorem dataCommandsRaiseInOrder : Obligations.DataCommandsRaiseInOrder := by
  intro s wd ws cs
  refine ⟨fun hempty => ?_, fun c hslot => ⟨fun hlen => ?_, fun hlen hsym => ?_, fun hlen => ?_,
    fun hlen hsym => ?_⟩⟩
  · have hop := (slotOperand_error_iff s cs .iiSlotEmpty).2 ⟨hempty, rfl⟩
    have henc : commandBody (.enc wd ws cs) s = .error .iiSlotEmpty := by
      simp only [commandBody, encodeCommand, hop]
    have hdec : decodeOperand ws cs s = .error .iiSlotEmpty := by simp only [decodeOperand, hop]
    exact ⟨exec_of_body_error henc, exec_dec_decm_of_error wd ws hdec⟩
  · exact exec_enc_of_check_error wd ws hslot
      ((checkOperand_error_iff _ _ _ .iiLength).2 (.inl ⟨hlen, rfl⟩))
  · exact exec_enc_of_check_error wd ws hslot
      ((checkOperand_error_iff _ _ _ .iiSymbol).2 (.inr ⟨hlen, hsym, rfl⟩))
  · exact exec_dec_decm_of_check_error wd ws hslot
      ((checkOperand_error_iff _ _ _ .iiLength).2 (.inl ⟨hlen, rfl⟩))
  · exact exec_dec_decm_of_check_error wd ws hslot
      ((checkOperand_error_iff _ _ _ .iiSymbol).2 (.inr ⟨hlen, hsym, rfl⟩))

end Sys2Proof.Machine


/-! ## Words and matrices over GF(q) as vectors and matrices over `ZMod q`

A word of symbols below q is determined by its vector over `ZMod q`; the operations of 00_scope.md R8 are
Mathlib's there, so that sums of products are reasoned about with Mathlib's algebra. -/

namespace Sys2Proof.Machine

/-! ### Words over GF(q) -/

theorem wordOver_take {q n b : Nat} {w : Word} (hw : WordOver q n w) (hb : b ≤ n) :
    WordOver q b (w.take b) :=
  ⟨by rw [List.length_take, hw.1, Nat.min_eq_left hb], fun x hx => hw.2 x (List.mem_of_mem_take hx)⟩

theorem wordOver_drop {q n b r : Nat} {w : Word} (hw : WordOver q n w) (hn : n = b + r) :
    WordOver q r (w.drop b) :=
  ⟨by rw [List.length_drop, hw.1, hn, Nat.add_sub_cancel_left],
    fun x hx => hw.2 x (List.mem_of_mem_drop hx)⟩

theorem wordOver_append {q a b : Nat} {u v : Word} (hu : WordOver q a u) (hv : WordOver q b v) :
    WordOver q (a + b) (u ++ v) :=
  ⟨by rw [List.length_append, hu.1, hv.1], List.forall_mem_append.2 ⟨hu.2, hv.2⟩⟩

theorem wordOver_reverse {q n : Nat} {u : Word} (hu : WordOver q n u) : WordOver q n u.reverse :=
  ⟨by simp [hu.1], by simpa using hu.2⟩

section
variable {q : Nat} (hq : 0 < q) (n : Nat) {u v : Word}
include hq

theorem zeros_wordOver : WordOver q n (zeros n) := ⟨zeros_length n, zeros_lt q n hq⟩

variable {n}

theorem wordOver_wAdd (hu : u.length = n) (hv : v.length = n) : WordOver q n (wAdd q u v) :=
  ⟨by simp [hu, hv], wAdd_lt q u v hq⟩

theorem wordOver_wSub (hu : u.length = n) (hv : v.length = n) : WordOver q n (wSub q u v) :=
  ⟨by simp [hu, hv], wSub_lt q u v hq⟩

theorem wordOver_wScale (b : Nat) (hu : u.length = n) : WordOver q n (wScale q b u) :=
  ⟨by simp [hu], wScale_lt q b u hq⟩

theorem wordOver_map_gfNeg (hu : u.length = n) : WordOver q n (u.map (gfNeg q)) :=
  ⟨by simp [hu], by simp [gfNeg_lt q _ hq]⟩

end

/-! ### Symbols (40_field_arithmetic.md R92, R93) -/

section
variable (q a b : Nat)

@[simp] theorem natCast_gfAdd : (gfAdd q a b : ZMod q) = a + b := by simp [gfAdd]

@[simp] theorem natCast_gfMul : (gfMul q a b : ZMod q) = a * b := by simp [gfMul]

@[simp] theorem natCast_gfNeg [NeZero q] : (gfNeg q a : ZMod q) = -a := by
  have hle : a % q ≤ q := (Nat.mod_lt a (NeZero.pos q)).le
  simp [gfNeg, Nat.cast_sub hle]

@[simp] theorem natCast_gfSub [NeZero q] : (gfSub q a b : ZMod q) = a - b := by
  have hle : b % q ≤ q := (Nat.mod_lt b (NeZero.pos q)).le
  simp [gfSub, Nat.cast_sub hle, sub_eq_add_neg]

end

/-- A symbol is the one number below q of its class. -/
theorem eq_of_natCast_eq {q a b : Nat} (ha : a < q) (hb : b < q) (h : (a : ZMod q) = b) : a = b := by
  rwa [ZMod.natCast_eq_natCast_iff', Nat.mod_eq_of_lt ha, Nat.mod_eq_of_lt hb] at h

/-! ### Vectors and matrices -/

/-- The first n symbols of a word, over `ZMod q`. -/
def symbolVec (q n : Nat) (w : Word) : Fin n → ZMod q := fun j => (w.getD j 0 : Nat)

/-- The first k rows of a matrix, n columns each, over `ZMod q`. -/
def symbolMat (q k n : Nat) (M : Matrix) := Matrix.of fun i : Fin k => symbolVec q n (M.getD i [])

theorem symbolMat_apply (q k n : Nat) (M : Matrix) (i : Fin k) (j : Fin n) :
    symbolMat q k n M i j = ((M.getD i []).getD j 0 : Nat) := rfl

/-- Words over GF(q) with the same vector are equal. -/
theorem wordOver_ext {q n : Nat} {u v : Word} (hu : WordOver q n u) (hv : WordOver q n v)
    (h : symbolVec q n u = symbolVec q n v) : u = v := by
  refine List.ext_getElem (hu.1.trans hv.1.symm) fun i hi hi' => ?_
  have hcast : (u.getD i 0 : ZMod q) = (v.getD i 0 : Nat) := congrFun h ⟨i, hu.1 ▸ hi⟩
  rw [List.getD_eq_getElem _ _ hi, List.getD_eq_getElem _ _ hi'] at hcast
  exact eq_of_natCast_eq (hu.2 _ (List.getElem_mem hi)) (hv.2 _ (List.getElem_mem hi')) hcast

section
variable (q n : Nat)

/-- An operation on symbols that is g over `ZMod q`, symbol by symbol. -/
theorem symbolVec_zipWith (f : Nat → Nat → Nat) (g : ZMod q → ZMod q → ZMod q) (hzero : g 0 0 = 0)
    (hf : ∀ a b : Nat, (f a b : ZMod q) = g a b) {u v : Word} (h : u.length = v.length) :
    symbolVec q n (List.zipWith f u v) = fun j => g (symbolVec q n u j) (symbolVec q n v j) := by
  funext j
  by_cases hj : j.val < u.length
  · have hj' : j.val < v.length := h ▸ hj
    simp [symbolVec, hf, hj, hj']
  · have hj' : ¬ j.val < v.length := h ▸ hj
    simp [symbolVec, hzero, hj, hj']

theorem symbolVec_wAdd {u v : Word} (h : u.length = v.length) :
    symbolVec q n (wAdd q u v) = symbolVec q n u + symbolVec q n v :=
  symbolVec_zipWith q n (gfAdd q) (· + ·) (add_zero 0) (natCast_gfAdd q) h

theorem symbolVec_wSub [NeZero q] {u v : Word} (h : u.length = v.length) :
    symbolVec q n (wSub q u v) = symbolVec q n u - symbolVec q n v :=
  symbolVec_zipWith q n (gfSub q) (· - ·) (sub_zero 0) (fun a b => natCast_gfSub q a b) h

theorem symbolVec_wScale (b : Nat) (u : Word) :
    symbolVec q n (wScale q b u) = (b : ZMod q) • symbolVec q n u := by
  funext j
  by_cases hj : j.val < u.length <;> simp [symbolVec, wScale, hj]

theorem symbolVec_map_gfNeg [NeZero q] (u : Word) :
    symbolVec q n (u.map (gfNeg q)) = -symbolVec q n u := by
  funext j
  by_cases hj : j.val < u.length <;> simp [symbolVec, hj]

theorem symbolVec_zeros (k : Nat) : symbolVec q n (zeros k) = 0 := by
  funext j
  by_cases hj : j.val < k <;> simp [symbolVec, zeros, hj]

theorem symbolVec_unit (i : Fin n) : symbolVec q n (unit n i) = Pi.single i 1 := by
  funext j
  simp [symbolVec, unit, Pi.single_apply, Fin.ext_iff]

theorem symbolMat_identity : symbolMat q n n (identity n) = 1 := by
  ext i j
  rw [symbolMat_apply, identity, List.getD_eq_getElem _ _ (by simp)]
  have h := congrFun (symbolVec_unit q n i) j
  simpa [symbolVec, Matrix.one_apply, Pi.single_apply, eq_comm] using h

theorem symbolMat_matNeg [NeZero q] (k : Nat) (M : Matrix) :
    symbolMat q k n (matNeg q M) = -symbolMat q k n M := by
  ext i j
  have h := congrFun (symbolVec_map_gfNeg q n (M.getD i [])) j
  by_cases hi : i.val < M.length <;> simp_all [symbolMat_apply, symbolVec, matNeg]

theorem symbolMat_transpose (k : Nat) (M : Matrix) :
    symbolMat q n k (transpose n M) = (symbolMat q k n M).transpose := by
  ext j i
  by_cases hi : i.val < M.length <;> simp [symbolMat_apply, transpose, hi]

end

/-! ### Sums of words -/

theorem zeros_wAdd {q n : Nat} {w : Word} (hw : WordOver q n w) : wAdd q (zeros n) w = w := by
  refine List.ext_getElem (by simp [hw.1]) fun i hi hi' => ?_
  simpa [wAdd, zeros, gfAdd] using Nat.mod_eq_of_lt (hw.2 _ (List.getElem_mem hi'))

theorem wAdd_assoc (q : Nat) (u v w : Word) :
    wAdd q (wAdd q u v) w = wAdd q u (wAdd q v w) := by
  refine List.ext_getElem (by simp [min_assoc]) fun i _ _ => ?_
  simp [wAdd, gfAdd, Nat.add_assoc]

/-! ### w * M and M * w^T -/

theorem vecMat_nil (q n : Nat) (w : Word) : vecMat q n w [] = zeros n := by simp [vecMat]

theorem vecMat_cons (q n a : Nat) (w row : Word) (M : Matrix) :
    vecMat q n (a :: w) (row :: M) = wAdd q (wScale q a row) (vecMat q n w M) := rfl

theorem vecMat_wordOver {q n : Nat} (hq : 0 < q) (w : Word) {M : Matrix}
    (hM : ∀ row ∈ M, row.length = n) : WordOver q n (vecMat q n w M) :=
  ⟨vecMat_length q n w M hM, vecMat_lt q n w M hq⟩

theorem symbolVec_vecMat (q : Nat) {n k : Nat} {w : Word} {M : Matrix} (hw : w.length = k)
    (hM : ∀ row ∈ M, row.length = n) :
    symbolVec q n (vecMat q n w M) = Matrix.vecMul (symbolVec q k w) (symbolMat q k n M) := by
  induction w generalizing M k with
  | nil =>
    obtain rfl : 0 = k := hw
    funext j
    have h := congrFun (symbolVec_zeros q n n) j
    simpa [vecMat, Matrix.vecMul, dotProduct] using h
  | cons a w ih =>
    obtain ⟨k, rfl⟩ : ∃ k', k = k' + 1 := ⟨w.length, hw.symm⟩
    cases M with
    | nil =>
      funext j
      have h := congrFun (symbolVec_zeros q n n) j
      simpa [vecMat_nil, Matrix.vecMul, dotProduct, symbolMat_apply] using h
    | cons row M =>
      have hrest : ∀ r ∈ M, r.length = n := fun r hr => hM r (.tail _ hr)
      have hlen : (wScale q a row).length = (vecMat q n w M).length := by
        rw [wScale_length, hM row (.head _), vecMat_length q n w M hrest]
      rw [vecMat_cons, symbolVec_wAdd q n hlen, symbolVec_wScale, ih (by simpa using hw) hrest]
      funext j
      simp [Matrix.vecMul, dotProduct, Fin.sum_univ_succ, symbolMat_apply, symbolVec]

theorem natCast_dot (q n : Nat) {u v : Word} (hu : u.length = n) :
    (dot q u v : ZMod q) = dotProduct (symbolVec q n u) (symbolVec q n v) := by
  induction u generalizing v n with
  | nil =>
    obtain rfl : 0 = n := hu
    simp [dot]
  | cons a u ih =>
    obtain ⟨n, rfl⟩ : ∃ n', n = n' + 1 := ⟨u.length, hu.symm⟩
    cases v with
    | nil => simp [dot, symbolVec, dotProduct]
    | cons b v =>
      have h := ih n (v := v) (by simpa using hu)
      simp only [dot, ZMod.natCast_mod] at h
      simp only [dot, ZMod.natCast_mod, List.zipWith_cons_cons, List.sum_cons, Nat.cast_add,
        Nat.cast_mul, h]
      simp [dotProduct, Fin.sum_univ_succ, symbolVec]

theorem symbolVec_matVec (q k : Nat) {n : Nat} (w : Word) {M : Matrix}
    (hM : ∀ row ∈ M, row.length = n) :
    symbolVec q k (matVec q M w) = Matrix.mulVec (symbolMat q k n M) (symbolVec q n w) := by
  funext i
  change ((matVec q M w).getD i 0 : ZMod q)
    = dotProduct (symbolVec q n (M.getD i [])) (symbolVec q n w)
  by_cases hi : i.val < M.length
  · rw [List.getD_eq_getElem _ _ (by simpa using hi), List.getD_eq_getElem _ _ hi,
      ← natCast_dot q n (hM _ (List.getElem_mem hi))]
    simp [matVec]
  · rw [List.getD_eq_default _ _ (by simpa using hi), List.getD_eq_default _ _ (by omega)]
    simp [dotProduct, symbolVec]

/-- M^T * w^T is w * M (00_scope.md R8). -/
theorem matVec_transpose {q n : Nat} (hq : 0 < q) {w : Word} {M : Matrix} (hw : w.length = M.length)
    (hM : ∀ row ∈ M, row.length = n) : matVec q (transpose n M) w = vecMat q n w M := by
  refine wordOver_ext (n := n) ⟨by simp, matVec_lt q _ w hq⟩ (vecMat_wordOver hq w hM) ?_
  rw [symbolVec_matVec q n (n := M.length) w (by simp [transpose]), symbolVec_vecMat q hw hM,
    symbolMat_transpose, Matrix.mulVec_transpose]

/-! ### Linearity (41_linear_code.md R123) -/

section
variable {q n : Nat} (hq : 0 < q) {u v : Word} {M : Matrix} (hM : ∀ row ∈ M, row.length = n)
include hq hM

theorem vecMat_wAdd (h : u.length = v.length) :
    vecMat q n (wAdd q u v) M = wAdd q (vecMat q n u M) (vecMat q n v M) := by
  have hlen : (vecMat q n u M).length = (vecMat q n v M).length := by
    rw [vecMat_length q n u M hM, vecMat_length q n v M hM]
  refine wordOver_ext (vecMat_wordOver hq _ hM)
    (wordOver_wAdd hq (vecMat_length q n u M hM) (vecMat_length q n v M hM)) ?_
  rw [symbolVec_wAdd q n hlen, symbolVec_vecMat q (k := v.length) (by simp [h]) hM,
    symbolVec_vecMat q h hM, symbolVec_vecMat q rfl hM, symbolVec_wAdd q _ h, Matrix.add_vecMul]

theorem vecMat_wScale (b : Nat) (u : Word) :
    vecMat q n (wScale q b u) M = wScale q b (vecMat q n u M) := by
  refine wordOver_ext (vecMat_wordOver hq _ hM)
    (wordOver_wScale hq b (vecMat_length q n u M hM)) ?_
  rw [symbolVec_wScale, symbolVec_vecMat q (k := u.length) (by simp) hM, symbolVec_vecMat q rfl hM,
    symbolVec_wScale, Matrix.smul_vecMul]

end

/-! ### Systematic encoders: G = [I_k | B] -/

theorem vecMat_identity {q k : Nat} {w : Word} (hw : WordOver q k w) :
    vecMat q k w (identity k) = w := by
  obtain rfl | hq := Nat.eq_zero_or_pos q
  · obtain rfl : w = [] := List.eq_nil_iff_forall_not_mem.2 fun x hx => by simpa using hw.2 x hx
    obtain rfl : 0 = k := hw.1
    rfl
  · refine wordOver_ext (vecMat_wordOver hq w (identity_row_length k)) hw ?_
    rw [symbolVec_vecMat q hw.1 (identity_row_length k), symbolMat_identity, Matrix.vecMul_one]

theorem vecMat_hconcat (q a b : Nat) (w : Word) {A B : Matrix} (hlen : A.length = B.length)
    (hA : ∀ row ∈ A, row.length = a) (hB : ∀ row ∈ B, row.length = b) :
    vecMat q (a + b) w (hconcat A B) = vecMat q a w A ++ vecMat q b w B := by
  induction w generalizing A B with
  | nil => simp [vecMat, zeros]
  | cons x w ih =>
    cases A with
    | nil =>
      obtain rfl : B = [] := List.eq_nil_of_length_eq_zero hlen.symm
      simp [hconcat, vecMat_nil, zeros]
    | cons row A =>
      cases B with
      | nil => simp at hlen
      | cons row' B =>
        rw [List.forall_mem_cons] at hA hB
        have hih := ih (by simpa using hlen) hA.2 hB.2
        have hrow : (wScale q x row).length = (vecMat q a w A).length := by
          rw [wScale_length, hA.1, vecMat_length q a w A hA.2]
        rw [show hconcat (row :: A) (row' :: B) = (row ++ row') :: hconcat A B from rfl]
        rw [vecMat_cons, vecMat_cons, vecMat_cons, hih]
        rw [show wScale q x (row ++ row') = wScale q x row ++ wScale q x row' from List.map_append]
        exact List.zipWith_append hrow

/-- Encoding with [I_k | B] is the message followed by the message times B (41_linear_code.md R121,
R123). -/
theorem linEncode_systematic {q k r n : Nat} {w : Word} {B : Matrix} (hw : WordOver q k w)
    (hB : ∀ row ∈ B, row.length = r) (hlen : B.length = k) (hn : n = k + r) :
    linEncode q n (hconcat (identity k) B) w = w ++ vecMat q r w B := by
  rw [linEncode, hn, vecMat_hconcat q k r w (by simp [hlen]) (identity_row_length k) hB,
    vecMat_identity hw]

/-- A product with a matrix is the sum of the products with its upper and its lower rows. -/
theorem vecMat_append {q n : Nat} (hq : 0 < q) {u v : Word} {A B : Matrix}
    (hlen : u.length = A.length) (hA : ∀ row ∈ A, row.length = n) (hB : ∀ row ∈ B, row.length = n) :
    vecMat q n (u ++ v) (A ++ B) = wAdd q (vecMat q n u A) (vecMat q n v B) := by
  induction u generalizing A with
  | nil =>
    obtain rfl : A = [] := List.eq_nil_of_length_eq_zero hlen.symm
    exact (zeros_wAdd (vecMat_wordOver hq v hB)).symm
  | cons x u ih =>
    cases A with
    | nil => simp at hlen
    | cons row A =>
      rw [List.forall_mem_cons] at hA
      rw [List.cons_append, List.cons_append, vecMat_cons, vecMat_cons, ih (by simpa using hlen) hA.2,
        wAdd_assoc]

end Sys2Proof.Machine


/-! ## The columns of the Hamming check matrix (42_hamming.md R141 to R143), and the Hamming encoder -/

namespace Sys2Proof.Machine

/-! ### The enumeration of tuples (40_field_arithmetic.md R96) -/

theorem tuples_succ (q r : Nat) :
    tuples q (r + 1) = (List.range q).flatMap fun x => (tuples q r).map (x :: ·) := rfl

theorem mem_tuples_iff (q r : Nat) (u : Word) : u ∈ tuples q r ↔ WordOver q r u := by
  induction r generalizing u with
  | zero =>
    simp only [tuples, List.mem_singleton]
    exact ⟨fun h => h ▸ ⟨rfl, by simp⟩, fun h => List.eq_nil_of_length_eq_zero h.1⟩
  | succ r ih =>
    cases u with
    | nil => simp [tuples_succ]
    | cons x u => simp [tuples_succ, ih, WordOver, and_left_comm]

theorem length_tuples (q r : Nat) : (tuples q r).length = q ^ r := by
  induction r with
  | zero => rfl
  | succ r ih => simp [tuples_succ, List.length_flatMap, ih, pow_succ']

theorem wt_cons (x : Symbol) (u : Word) : wt (x :: u) = wt u + if x = 0 then 0 else 1 := by
  by_cases hx : x = 0 <;> simp [wt, hx]

theorem wt_le_length (u : Word) : wt u ≤ u.length := List.countP_le_length

/-- The symbols of GF(q) begin with 0 and 1. -/
theorem range_eq_zero_one_cons {q : Nat} (hq : 2 ≤ q) :
    List.range q = 0 :: 1 :: (List.range (q - 2)).map (· + 2) := by
  obtain ⟨p, rfl⟩ : ∃ p, q = p + 2 := ⟨q - 2, by omega⟩
  simp [List.range_succ_eq_map]

/-- The zero tuple is the one of weight 0. -/
theorem filter_wt_zero_tuples {q : Nat} (hq : 2 ≤ q) (r : Nat) :
    (tuples q r).filter (fun u => wt u == 0) = [zeros r] := by
  induction r with
  | zero => rfl
  | succ r ih =>
    simp only [tuples_succ, range_eq_zero_one_cons hq, List.flatMap_cons, List.filter_append,
      List.filter_map, List.flatMap_map, List.filter_flatMap]
    simp [Function.comp_def, wt_cons, ih, zeros, List.replicate_succ]

/-! ### The kept tuples (42_hamming.md R141) -/

/-- A kept tuple begins with 0 and its rest is kept, or begins with 1. -/
theorem hamKept_succ {q : Nat} (hq : 2 ≤ q) (r : Nat) :
    hamKept q (r + 1) = (hamKept q r).map (0 :: ·) ++ (tuples q r).map (1 :: ·) := by
  simp only [hamKept, tuples_succ, range_eq_zero_one_cons hq, List.flatMap_cons,
    List.filter_append, List.filter_map, List.flatMap_map, List.filter_flatMap]
  simp [Function.comp_def]

theorem mem_hamKept_wordOver {q r : Nat} {u : Word} (h : u ∈ hamKept q r) : WordOver q r u :=
  (mem_tuples_iff q r u).1 (List.mem_of_mem_filter h)

/-- There are 1 + q + ... + q^(r-1) kept tuples. -/
theorem length_hamKept {q : Nat} (hq : 2 ≤ q) (r : Nat) :
    (hamKept q r).length = hamLength q r := by
  rw [hamLength_eq_sum q r hq]
  induction r with
  | zero => rfl
  | succ r ih => simp [hamKept_succ hq, ih, length_tuples, Finset.sum_range_succ]

theorem filter_wt_zero_hamKept (q r : Nat) : (hamKept q r).filter (fun u => wt u == 0) = [] := by
  refine List.filter_eq_nil_iff.2 fun u hu => ?_
  simp only [hamKept, List.mem_filter, beq_iff_eq] at hu
  have hpos : 0 < wt u := List.countP_pos_iff.2 ⟨1, List.mem_of_find?_eq_some hu.2, rfl⟩
  simpa using hpos.ne'

/-- The kept tuples of weight 1, last first, are the unit words. -/
theorem reverse_filter_wt_one_hamKept {q : Nat} (hq : 2 ≤ q) (r : Nat) :
    ((hamKept q r).filter fun u => wt u == 1).reverse = identity r := by
  induction r with
  | zero => rfl
  | succ r ih =>
    have hrest : (tuples q r).filter (fun u => wt u + 1 == 1) = [zeros r] := by
      simpa using filter_wt_zero_tuples hq r
    rw [hamKept_succ hq, List.filter_append, List.filter_map, List.filter_map, List.reverse_append]
    simp only [Function.comp_def, wt_cons, if_true, Nat.add_zero, one_ne_zero, if_false, hrest,
      ← List.map_reverse, ih]
    simp [identity, unit, zeros, List.range_succ_eq_map, Function.comp_def]

/-! ### The columns (42_hamming.md R142, R143) -/

/-- The classes of the values below N of a function cover a list on which it is bounded by N. -/
theorem length_flatMap_filter_range {α : Type} (f : α → Nat) (N : Nat) (l : List α)
    (h : ∀ x ∈ l, f x < N) :
    ((List.range N).flatMap fun w => l.filter fun x => f x == w).length = l.length := by
  have hsum : ((List.range N).flatMap fun w => l.filter fun x => f x == w).length
      = ∑ w ∈ Finset.range N, l.countP fun x => f x == w := by
    rw [List.length_flatMap]
    simp only [← List.countP_eq_length_filter]
    rfl
  rw [hsum]
  clear hsum
  induction l with
  | nil => simp
  | cons x l ih =>
    rw [List.forall_mem_cons] at h
    have hone : ∑ w ∈ Finset.range N, (if f x == w then 1 else 0) = 1 := by simp [h.1]
    simp only [List.countP_cons, Finset.sum_add_distrib, hone, List.length_cons, ih h.2]

theorem length_hamColumns {q : Nat} (hq : 2 ≤ q) (r : Nat) :
    (hamColumns q r).length = hamLength q r := by
  rw [hamColumns, List.length_reverse, length_flatMap_filter_range wt, length_hamKept hq]
  intro u hu
  have hle := wt_le_length u
  have hlen := (mem_hamKept_wordOver hu).1
  omega

theorem mem_hamColumns_wordOver {q r : Nat} {u : Word} (h : u ∈ hamColumns q r) :
    WordOver q r u := by
  simp only [hamColumns, List.mem_reverse, List.mem_flatMap] at h
  obtain ⟨w, -, hu⟩ := h
  exact mem_hamKept_wordOver (List.mem_of_mem_filter hu)

/-- The last r columns are the unit words: H = [P | I_r] (42_hamming.md R143). -/
theorem drop_hamColumns {q r : Nat} (hq : 2 ≤ q) (hr : 1 ≤ r) :
    (hamColumns q r).drop (hamLength q r - r) = identity r := by
  obtain ⟨heavy, hsplit⟩ : ∃ heavy, hamColumns q r = heavy ++ identity r := by
    obtain ⟨p, rfl⟩ : ∃ p, r = p + 1 := ⟨r - 1, by omega⟩
    rw [hamColumns, range_eq_zero_one_cons (by omega), List.flatMap_cons, List.flatMap_cons,
      filter_wt_zero_hamKept, List.nil_append, List.reverse_append,
      reverse_filter_wt_one_hamKept hq]
    exact ⟨_, rfl⟩
  have hlen := length_hamColumns hq r
  rw [hsplit, List.length_append, identity_length] at hlen
  rw [hsplit, ← hlen, Nat.add_sub_cancel, List.drop_left]

/-! ### The Hamming encoder and the syndrome (42_hamming.md R144 to R146) -/

theorem transpose_transpose {k r : Nat} {M : Matrix} (hk : k ≤ M.length)
    (hM : ∀ row ∈ M, row.length = r) : transpose k (transpose r M) = M.take k := by
  refine List.ext_getElem (by simp [hk]) fun j hj _ => ?_
  have hjM : j < M.length := by
    rw [transpose_length] at hj
    omega
  have hrow := hM _ (List.getElem_mem hjM)
  refine List.ext_getElem (by simp [transpose, hrow]) fun i hi hi' => ?_
  simp [transpose, hjM, hrow, show i < r by simpa [transpose] using hi]

theorem matNeg_row_length {q r : Nat} {B : Matrix} (hB : ∀ row ∈ B, row.length = r) :
    ∀ row ∈ matNeg q B, row.length = r := by
  intro row hrow
  obtain ⟨row', hrow', rfl⟩ := List.mem_map.1 hrow
  rw [List.length_map, hB row' hrow']

theorem vecMat_matNeg {q r : Nat} (hq : 0 < q) (w : Word) {B : Matrix}
    (hB : ∀ row ∈ B, row.length = r) :
    vecMat q r w (matNeg q B) = (vecMat q r w B).map (gfNeg q) := by
  have : NeZero q := ⟨hq.ne'⟩
  have hneg : ∀ row ∈ matNeg q B, row.length = r := matNeg_row_length hB
  refine wordOver_ext (vecMat_wordOver hq w hneg)
    (wordOver_map_gfNeg hq (vecMat_length q r w B hB)) ?_
  rw [symbolVec_map_gfNeg, symbolVec_vecMat q rfl hneg, symbolVec_vecMat q rfl hB, symbolMat_matNeg,
    Matrix.vecMul_neg]

/-- Two words cancel exactly when the one is the other negated. -/
theorem wAdd_eq_zeros_iff {q n : Nat} (hq : 0 < q) {u v : Word} (hu : WordOver q n u)
    (hv : WordOver q n v) : wAdd q u v = zeros n ↔ v = u.map (gfNeg q) := by
  have : NeZero q := ⟨hq.ne'⟩
  have hneg := wordOver_map_gfNeg hq hu.1
  have hsum := wordOver_wAdd hq hu.1 hv.1
  have hlen : u.length = v.length := hu.1.trans hv.1.symm
  have hl : symbolVec q n (wAdd q u v) = symbolVec q n (zeros n)
      ↔ symbolVec q n v = symbolVec q n (u.map (gfNeg q)) := by
    rw [symbolVec_wAdd q n hlen, symbolVec_zeros, symbolVec_map_gfNeg, add_comm,
      eq_neg_iff_add_eq_zero]
  exact ⟨fun h => wordOver_ext hv hneg (hl.1 (congrArg _ h)),
    fun h => wordOver_ext hsum (zeros_wordOver hq n) (hl.2 (congrArg _ h))⟩

/-- The parity part of a message: what its symbols multiply in P (42_hamming.md R144). -/
def hamParity (c : Code) (r : Nat) (w : Word) : Word :=
  vecMat c.q r w ((hamColumns c.q r).take c.k)

theorem mem_take_hamColumns_length (c : Code) (r : Nat) :
    ∀ row ∈ (hamColumns c.q r).take c.k, row.length = r :=
  fun _ h => (mem_hamColumns_wordOver (List.mem_of_mem_take h)).1

theorem hamParity_wordOver {c : Code} (hc : c.ok = true) (r : Nat) (w : Word) :
    WordOver c.q r (hamParity c r w) := by
  exact vecMat_wordOver (Code.ok_q_pos hc) w (mem_take_hamColumns_length c r)

section
variable {c : Code} {r : Nat} (hc : c.ok = true) (hkind : c.kind = .ham r)
include hc hkind

theorem ham_n_eq : c.n = c.k + r := by
  obtain ⟨hq, hr, hn, hk, -⟩ := Code.ok_ham hc hkind
  have hlt := lt_hamLength c.q r (two_le_of_isPrime hq) hr
  omega

theorem ham_columns_length : (hamColumns c.q r).length = c.n := by
  obtain ⟨hq, -, hn, -, -⟩ := Code.ok_ham hc hkind
  rw [length_hamColumns (two_le_of_isPrime hq), hn]

/-- The columns are the k of P and the unit words. -/
theorem ham_columns_drop : (hamColumns c.q r).drop c.k = identity r := by
  obtain ⟨hq, hr, hn, hk, -⟩ := Code.ok_ham hc hkind
  rw [hk, hn, drop_hamColumns (two_le_of_isPrime hq) (by omega)]

/-- A Hamming codeword is the message followed by its negated parity part. -/
theorem encodeWord_ham {w : Word} (hw : WordOver c.q c.k w) :
    encodeWord c w = w ++ (hamParity c r w).map (gfNeg c.q) := by
  have hq := Code.ok_q_pos hc
  have hn := ham_n_eq hc hkind
  have hlen := ham_columns_length hc hkind
  have hrows := mem_take_hamColumns_length c r
  have hP : transpose c.k (hamCheck c.q r) = (hamColumns c.q r).take c.k :=
    transpose_transpose (by omega) fun row h => (mem_hamColumns_wordOver h).1
  simp only [encodeWord, hkind, hamEncode, hamGen, genMat, hP]
  rw [linEncode_systematic hw (r := r) (matNeg_row_length hrows) (by simp [matNeg]; omega) hn,
    vecMat_matNeg hq w hrows, hamParity]

/-- The syndrome of a word is its symbols times the columns (42_hamming.md R146). -/
theorem hamSyndrome_eq_vecMat {x : Word} (hx : x.length = c.n) :
    hamSyndrome c r x = vecMat c.q r x (hamColumns c.q r) := by
  have hq := Code.ok_q_pos hc
  exact matVec_transpose hq (hx.trans (ham_columns_length hc hkind).symm)
    fun row h => (mem_hamColumns_wordOver h).1

/-- With H = [P | I_r] the syndrome is the parity part of the first k symbols plus the last r. -/
theorem hamSyndrome_eq_wAdd {x : Word} (hx : WordOver c.q c.n x) :
    hamSyndrome c r x = wAdd c.q (hamParity c r (x.take c.k)) (x.drop c.k) := by
  have hq := Code.ok_q_pos hc
  have hlen := ham_columns_length hc hkind
  have hdrop := wordOver_drop hx (ham_n_eq hc hkind)
  rw [hamSyndrome_eq_vecMat hc hkind hx.1]
  conv_lhs => rw [← List.take_append_drop c.k x, ← List.take_append_drop c.k (hamColumns c.q r)]
  rw [vecMat_append hq (by simp [hx.1, hlen]) (mem_take_hamColumns_length c r)
    fun row h => (mem_hamColumns_wordOver (List.mem_of_mem_drop h)).1]
  rw [ham_columns_drop hc hkind, vecMat_identity hdrop, hamParity]

/-- The words of syndrome zero are the codewords of their first k symbols. -/
theorem hamSyndrome_eq_zeros_iff {x : Word} (hx : WordOver c.q c.n x) :
    hamSyndrome c r x = zeros r ↔ x = encodeWord c (x.take c.k) := by
  have hq := Code.ok_q_pos hc
  have htake := wordOver_take hx (Code.ok_bounds hc).2.1
  have hdrop := wordOver_drop hx (ham_n_eq hc hkind)
  rw [hamSyndrome_eq_wAdd hc hkind hx,
    wAdd_eq_zeros_iff hq (hamParity_wordOver hc r _) hdrop, encodeWord_ham hc hkind htake]
  conv_rhs => lhs; rw [← List.take_append_drop c.k x]
  rw [List.append_right_inj]

end

/-- Settles O41: the parity part of the codeword cancels that of the message in the syndrome. -/
theorem hamEncodeIsASystematicCodeword : Obligations.HamEncodeIsASystematicCodeword := by
  intro c r w hc hkind hw
  have htake : (encodeWord c w).take c.k = w := by
    rw [encodeWord_ham hc hkind hw, ← hw.1, List.take_left]
  refine ⟨htake, (hamSyndrome_eq_zeros_iff hc hkind (encodeWord_wordOver hc hw)).2 ?_⟩
  rw [htake]

end Sys2Proof.Machine


/-! ## Lists of coefficients as polynomials, and the BCH encoder (43_bch.md R158, R161)

The codewords of a BCH code are the words whose polynomial over `ZMod q` is a multiple of the generator
polynomial; the first k symbols of such a word determine it. -/

namespace Sys2Proof.Machine

open Polynomial

/-! ### Coefficient lists, that of x^j at index j (40_field_arithmetic.md R104) -/

section
variable {A R : Type} [CommRing R] (φ : A → R)

/-- The polynomial of a list of coefficients, each read in R by φ. -/
noncomputable def coeffPoly : List A → R[X]
  | [] => 0
  | c :: p => C (φ c) + X * coeffPoly p

theorem coeffPoly_append (p r : List A) :
    coeffPoly φ (p ++ r) = coeffPoly φ p + X ^ p.length * coeffPoly φ r := by
  induction p with
  | nil => simp [coeffPoly]
  | cons c p ih =>
    simp only [List.cons_append, coeffPoly, ih, List.length_cons]
    ring

theorem coeff_coeffPoly (p : List A) (j : Nat) : (coeffPoly φ p).coeff j = (p[j]?).elim 0 φ := by
  induction p generalizing j with
  | nil => simp [coeffPoly]
  | cons c p ih => cases j <;> simp [coeffPoly, coeff_C, ih]

theorem degree_coeffPoly_lt (p : List A) : (coeffPoly φ p).degree < p.length := by
  refine (degree_lt_iff_coeff_zero _ _).2 fun j hj => ?_
  rw [coeff_coeffPoly, List.getElem?_eq_none (by exact_mod_cast hj), Option.elim_none]

/-- A list operation that adds the multiple by x coefficient by coefficient. -/
theorem coeffPoly_zipWith (f : A → A → A) (x : R) {p r : List A} (hlen : p.length = r.length)
    (hf : ∀ a ∈ p, ∀ b ∈ r, φ (f a b) = φ a + x * φ b) :
    coeffPoly φ (List.zipWith f p r) = coeffPoly φ p + C x * coeffPoly φ r := by
  induction p generalizing r with
  | nil =>
    obtain rfl : r = [] := List.eq_nil_of_length_eq_zero hlen.symm
    simp [coeffPoly]
  | cons a p ih =>
    cases r with
    | nil => simp at hlen
    | cons b r =>
      have hhead := hf a (.head _) b (.head _)
      have hrest := ih (by simpa using hlen) fun a ha b hb => hf a (.tail _ ha) b (.tail _ hb)
      simp only [List.zipWith_cons_cons, coeffPoly, hrest, hhead, C_add, C_mul]
      ring

/-- A list operation that multiplies every coefficient by x multiplies the polynomial. -/
theorem coeffPoly_map_mul {B : Type} (ψ : B → R) (f : B → A) (x : R) {p : List B}
    (hf : ∀ a ∈ p, φ (f a) = x * ψ a) : coeffPoly φ (p.map f) = C x * coeffPoly ψ p := by
  induction p with
  | nil => simp [coeffPoly]
  | cons a p ih =>
    have hrest := ih fun a ha => hf a (.tail _ ha)
    simp only [List.map_cons, coeffPoly, hrest, hf a (.head _), C_mul]
    ring

end

/-! ### Polynomials over GF(q), and words as polynomials (00_scope.md R9) -/

/-- The polynomial over `ZMod q` of a list of symbols, that of x^j at index j. -/
noncomputable def symbolPoly (q : Nat) (p : List Symbol) : (ZMod q)[X] :=
  coeffPoly (fun x : Nat => (x : ZMod q)) p

/-- The polynomial over `ZMod q` of a word, highest degree first. -/
noncomputable def codePoly (q : Nat) (w : Word) : (ZMod q)[X] := symbolPoly q w.reverse

section
variable (q : Nat)

theorem coeff_symbolPoly (p : List Symbol) (j : Nat) :
    (symbolPoly q p).coeff j = (p.getD j 0 : Nat) := by
  rw [symbolPoly, coeff_coeffPoly, List.getD_eq_getElem?_getD]
  cases p[j]? <;> simp

/-- The symbols of a word are the coefficients of its polynomial. -/
theorem symbolPoly_inj {n : Nat} {u v : Word} (hu : WordOver q n u) (hv : WordOver q n v)
    (h : symbolPoly q u = symbolPoly q v) : u = v := by
  refine wordOver_ext hu hv (funext fun j => ?_)
  have hj : (symbolPoly q u).coeff j = (symbolPoly q v).coeff j := by rw [h]
  rwa [coeff_symbolPoly, coeff_symbolPoly] at hj

theorem codePoly_inj {n : Nat} {u v : Word} (hu : WordOver q n u) (hv : WordOver q n v)
    (h : codePoly q u = codePoly q v) : u = v :=
  List.reverse_injective (symbolPoly_inj q (wordOver_reverse hu) (wordOver_reverse hv) h)

theorem degree_codePoly_lt (w : Word) : (codePoly q w).degree < w.length := by
  have h := degree_coeffPoly_lt (fun x : Nat => (x : ZMod q)) w.reverse
  rwa [List.length_reverse] at h

theorem codePoly_nil : codePoly q [] = 0 := rfl

theorem codePoly_append (u v : Word) :
    codePoly q (u ++ v) = codePoly q u * X ^ v.length + codePoly q v := by
  simp only [codePoly, symbolPoly, List.reverse_append, coeffPoly_append, List.length_reverse]
  ring

theorem codePoly_cons (x : Symbol) (u : Word) :
    codePoly q (x :: u) = C (x : ZMod q) * X ^ u.length + codePoly q u := by
  have h := codePoly_append q [x] u
  simpa [codePoly, symbolPoly, coeffPoly] using h

theorem symbolPoly_wAdd {u v : Word} (h : u.length = v.length) :
    symbolPoly q (wAdd q u v) = symbolPoly q u + symbolPoly q v := by
  have hadd := coeffPoly_zipWith (fun x : Nat => (x : ZMod q)) (gfAdd q) 1 h fun a _ b _ => by simp
  rwa [C_1, one_mul] at hadd

theorem symbolPoly_wScale (b : Nat) (u : Word) :
    symbolPoly q (wScale q b u) = C (b : ZMod q) * symbolPoly q u :=
  coeffPoly_map_mul _ _ _ _ fun a _ => natCast_gfMul q b a

theorem symbolPoly_map_gfNeg [NeZero q] (u : Word) :
    symbolPoly q (u.map (gfNeg q)) = -symbolPoly q u := by
  rw [symbolPoly, coeffPoly_map_mul _ (fun x : Nat => (x : ZMod q)) _ (-1) fun a _ => by simp]
  simp [symbolPoly]

theorem codePoly_wAdd {u v : Word} (h : u.length = v.length) :
    codePoly q (wAdd q u v) = codePoly q u + codePoly q v := by
  rw [codePoly, wAdd, List.reverse_zipWith h, ← wAdd, symbolPoly_wAdd q (by simp [h]), codePoly,
    codePoly]

theorem codePoly_wScale (b : Nat) (u : Word) :
    codePoly q (wScale q b u) = C (b : ZMod q) * codePoly q u := by
  rw [codePoly, wScale, ← List.map_reverse, ← wScale, symbolPoly_wScale, codePoly]

theorem codePoly_map_gfNeg [NeZero q] (u : Word) :
    codePoly q (u.map (gfNeg q)) = -codePoly q u := by
  rw [codePoly, ← List.map_reverse, symbolPoly_map_gfNeg, codePoly]

theorem codePoly_zeros (n : Nat) : codePoly q (zeros n) = 0 := by
  induction n with
  | zero => rfl
  | succ n ih =>
    rw [zeros, List.replicate_succ, codePoly_cons]
    simpa [zeros] using ih

/-- A word that begins with 1 is a monic polynomial of its length less one. -/
theorem codePoly_monic (g : Word) : (codePoly q (1 :: g)).Monic := by
  rw [codePoly_cons, Nat.cast_one, C_1, one_mul]
  exact monic_X_pow_add (degree_codePoly_lt q g)

/-! ### Long division (40_field_arithmetic.md R108) -/

section
variable [NeZero q]

theorem codePoly_subLeading (h : Nat) {p g : Word} (hlen : g.length ≤ p.length) :
    codePoly q (subLeading q h p g)
      = codePoly q p - C (h : ZMod q) * X ^ (p.length - g.length) * codePoly q g := by
  induction g generalizing p with
  | nil => simp [subLeading, codePoly_nil]
  | cons y g ih =>
    cases p with
    | nil => simp at hlen
    | cons x p =>
      have hle : g.length ≤ p.length := by simpa using hlen
      have hpow : (X : (ZMod q)[X]) ^ p.length = X ^ (p.length - g.length) * X ^ g.length := by
        rw [← pow_add, Nat.sub_add_cancel hle]
      rw [subLeading, codePoly_cons, codePoly_cons, codePoly_cons, ih hle, subLeading_length]
      simp only [natCast_gfSub, natCast_gfMul, C_sub, C_mul, List.length_cons, Nat.add_sub_add_right,
        hpow]
      ring

/-- Dividing subtracts multiples of the monic divisor. -/
theorem dvd_codePoly_sub_divSteps (g : Word) (steps : Nat) {p : Word}
    (hlen : steps + g.length ≤ p.length) :
    codePoly q (1 :: g) ∣ codePoly q p - codePoly q (divSteps q g steps p) := by
  induction steps generalizing p with
  | zero => simp [divSteps]
  | succ k ih =>
    cases p with
    | nil => simp at hlen
    | cons h p =>
      have hle : k + g.length ≤ p.length := by
        rw [List.length_cons] at hlen
        omega
      have hrest := ih (p := subLeading q h p g) (by rwa [subLeading_length])
      have hstep : codePoly q (h :: p) - codePoly q (subLeading q h p g)
          = codePoly q (1 :: g) * (C (h : ZMod q) * X ^ (p.length - g.length)) := by
        have hpow : (X : (ZMod q)[X]) ^ p.length = X ^ (p.length - g.length) * X ^ g.length := by
          rw [← pow_add, Nat.sub_add_cancel (by omega)]
        rw [codePoly_subLeading q h (by omega), codePoly_cons, codePoly_cons, hpow]
        simp only [Nat.cast_one, C_1]
        ring
      rw [divSteps, ← sub_add_sub_cancel _ (codePoly q (subLeading q h p g)), hstep]
      exact dvd_add (dvd_mul_right _ _) hrest

theorem dvd_codePoly_sub_polyRem (g : Word) {p : Word} (hlen : g.length ≤ p.length) :
    codePoly q (1 :: g) ∣ codePoly q p - codePoly q (polyRem q p (1 :: g)) :=
  dvd_codePoly_sub_divSteps q g _ (by simp; omega)

omit [NeZero q] in
theorem polyRem_length (g : Word) {p : Word} (hlen : g.length ≤ p.length) :
    (polyRem q p (1 :: g)).length = g.length := by
  simp [polyRem, divSteps_length]
  omega

end

theorem degree_codePoly_one_cons (hq : 1 < q) (g : Word) :
    (codePoly q (1 :: g)).degree = g.length := by
  have : Fact (1 < q) := ⟨hq⟩
  have hpow : ((X : (ZMod q)[X]) ^ g.length).degree = g.length := degree_X_pow _
  rw [codePoly_cons, Nat.cast_one, C_1, one_mul, ← hpow]
  exact degree_add_eq_left_of_degree_lt (hpow ▸ degree_codePoly_lt q g)

/-- Two words shorter than a monic divisor that are congruent modulo it are equal. -/
theorem eq_of_dvd_codePoly_sub (hq : 1 < q) {g u v : Word} (hu : WordOver q g.length u)
    (hv : WordOver q g.length v) (h : codePoly q (1 :: g) ∣ codePoly q u - codePoly q v) : u = v := by
  have hlt : (codePoly q u - codePoly q v).degree < (codePoly q (1 :: g)).degree := by
    rw [degree_codePoly_one_cons q hq]
    refine (degree_sub_le _ _).trans_lt (max_lt ?_ ?_)
    · exact hu.1 ▸ degree_codePoly_lt q u
    · exact hv.1 ▸ degree_codePoly_lt q v
  refine codePoly_inj q hu hv (sub_eq_zero.1 ?_)
  by_contra hne
  exact (codePoly_monic q g).not_dvd_of_degree_lt hne hlt h

/-- Two multiples of a monic polynomial of degree n - k that agree in the first k of n symbols are
equal. -/
theorem eq_of_dvd_codePoly (hq : 1 < q) {g : Word} {n k : Nat} {u v : Word} (hu : WordOver q n u)
    (hv : WordOver q n v) (hn : n = k + g.length) (htake : u.take k = v.take k)
    (hdu : codePoly q (1 :: g) ∣ codePoly q u) (hdv : codePoly q (1 :: g) ∣ codePoly q v) :
    u = v := by
  have hdrop {w : Word} (hw : WordOver q n w) : WordOver q g.length (w.drop k) :=
    wordOver_drop hw hn
  have hsplit {w : Word} (hw : WordOver q n w) :
      codePoly q w = codePoly q (w.take k) * X ^ g.length + codePoly q (w.drop k) := by
    rw [← (hdrop hw).1, ← codePoly_append, List.take_append_drop]
  have hdiff : codePoly q (1 :: g) ∣ codePoly q (u.drop k) - codePoly q (v.drop k) := by
    have h := dvd_sub hdu hdv
    rwa [hsplit hu, hsplit hv, htake, add_sub_add_left_eq_sub] at h
  rw [← List.take_append_drop k u, ← List.take_append_drop k v, htake,
    eq_of_dvd_codePoly_sub q hq (hdrop hu) (hdrop hv) hdiff]

end

/-! ### The generator polynomial (43_bch.md R158) -/

theorem polyAdd_getLast? (F : ExtField) {p r : Poly} (h : r.length < p.length) :
    (F.polyAdd p r).getLast? = p.getLast? := by
  induction p generalizing r with
  | nil => simp at h
  | cons c p ih =>
    cases r with
    | nil => rfl
    | cons e r =>
      have hlt : r.length < p.length := by simpa using h
      have hrest := ih hlt
      cases p with
      | nil => simp at hlt
      | cons c' p =>
        rw [ExtField.polyAdd, List.getLast?_cons, hrest]
        simp [List.getLast?_cons]

/-- A product of x - v has leading coefficient one (40_field_arithmetic.md R109). -/
theorem linearProduct_getLast? (F : ExtField) (vs : List Elem) :
    (F.linearProduct vs).getLast? = some F.one := by
  have hfold : ∀ p : Poly, p.getLast? = some F.one →
      (vs.foldl F.mulLinear p).getLast? = some F.one := by
    induction vs with
    | nil => exact fun p hp => hp
    | cons v vs ih =>
      intro p hp
      refine ih _ ?_
      rw [ExtField.mulLinear, polyAdd_getLast? F (by simp), List.getLast?_cons, hp]
      rfl
  exact hfold _ rfl

theorem bchGenPoly_head? (F : ExtField) (off d : Nat) : (bchGenPoly F off d).head? = some 1 := by
  simp [bchGenPoly, basePoly, ExtField.rootProduct, linearProduct_getLast?, ExtField.one,
    ExtField.emb, base]

theorem polyTrim_of_getLast? {K : Type} [DecidableEq K] {zero e : K} {p : List K}
    (h : p.getLast? = some e) (he : e ≠ zero) : polyTrim zero p = p := by
  induction p with
  | nil => rfl
  | cons c p ih =>
    cases p with
    | nil =>
      obtain rfl : c = e := by simpa using h
      simp [polyTrim, he]
    | cons c' p =>
      have hp := ih (by simpa [List.getLast?_cons] using h)
      rw [polyTrim, hp]

/-- A list that does not end with zero has its length less one as degree. -/
theorem polyDeg_of_getLast? {K : Type} [DecidableEq K] {zero e : K} {p : List K}
    (h : p.getLast? = some e) (he : e ≠ zero) : polyDeg zero p = some (p.length - 1) := by
  rw [polyDeg, polyTrim_of_getLast? h he]
  cases p with
  | nil => simp at h
  | cons c p => rfl

section
variable {c : Code} {m off : Nat} {f a : List Symbol} (hc : c.ok = true)
  (hkind : c.kind = .bch m off f a)
include hc hkind

theorem bchField_m : (bchField c.q c.n f a).m = m := by
  obtain ⟨-, -, hf, -⟩ := Code.ok_bch hc hkind
  simp [bchField, ExtField.m, hf.1]

/-- The generator polynomial is monic of degree n - k. -/
theorem bchGenPoly_eq_one_cons : ∃ g : Word, bchGenPoly (bchField c.q c.n f a) off c.d = 1 :: g
    ∧ c.n = c.k + g.length := by
  obtain ⟨-, -, -, -, -, -, hk, -⟩ := Code.ok_bch hc hkind
  have hlen := bchGenPoly_length (bchField c.q c.n f a) off c.d
  rw [bchField_m hc hkind] at hlen
  have hle := rootExponents_length_le c.q m c.n off c.d
  obtain ⟨g, hg⟩ := List.head?_eq_some_iff.1 (bchGenPoly_head? (bchField c.q c.n f a) off c.d)
  refine ⟨g, hg, ?_⟩
  rw [hg, List.length_cons, Nat.add_left_inj] at hlen
  rw [hlen, hk]
  exact (Nat.sub_add_cancel hle).symm

/-! ### The BCH encoder (43_bch.md R161) -/

omit hc in
theorem take_encodeWord_bch {w : Word} (hw : w.length = c.k) : (encodeWord c w).take c.k = w := by
  simp only [encodeWord, hkind, bchEncode, ← hw, List.take_left]

/-- A codeword is a multiple of the generator polynomial. -/
theorem dvd_codePoly_encodeWord (w : Word) :
    codePoly c.q (bchGenPoly (bchField c.q c.n f a) off c.d) ∣ codePoly c.q (encodeWord c w) := by
  have : NeZero c.q := ⟨(Code.ok_q_pos hc).ne'⟩
  obtain ⟨g, hg, hn⟩ := bchGenPoly_eq_one_cons hc hkind
  have hdeg : c.n - c.k = g.length := by omega
  have hlen : g.length ≤ (w ++ zeros g.length).length := by simp
  simp only [encodeWord, hkind, bchEncode, hg, hdeg, codePoly_append, codePoly_map_gfNeg,
    List.length_map, polyRem_length c.q g hlen, ← sub_eq_add_neg]
  have hdvd := dvd_codePoly_sub_polyRem c.q g hlen
  rwa [codePoly_append, codePoly_zeros, add_zero, zeros_length] at hdvd

/-- A word whose polynomial is a multiple of the generator polynomial is the codeword of its first k
symbols. -/
theorem eq_encodeWord_of_dvd {x : Word} (hx : WordOver c.q c.n x)
    (hdvd : codePoly c.q (bchGenPoly (bchField c.q c.n f a) off c.d) ∣ codePoly c.q x) :
    x = encodeWord c (x.take c.k) := by
  obtain ⟨g, hg, hn⟩ := bchGenPoly_eq_one_cons hc hkind
  have hmsg := wordOver_take hx (Code.ok_bounds hc).2.1
  have henc := dvd_codePoly_encodeWord hc hkind (x.take c.k)
  rw [hg] at hdvd henc
  exact eq_of_dvd_codePoly c.q (Code.ok_two_le_q hc) hx (encodeWord_wordOver hc hmsg) hn
    (take_encodeWord_bch hkind hmsg.1).symm hdvd henc

end

end Sys2Proof.Machine


/-! ## Encode is linear (41_linear_code.md R124) -/

namespace Sys2Proof.Machine

theorem rmGen_row_length (r m : Nat) : ∀ row ∈ rmGen r m, row.length = 2 ^ m := by
  intro row hrow
  obtain ⟨T, -, rfl⟩ := List.mem_map.1 hrow
  simp [rmRow]

section
variable {c : Code} (hc : c.ok = true)
include hc

/-- The Hamming, Golay and Reed–Muller codes are encoded with a generator matrix of n columns
(41_linear_code.md R123). -/
theorem exists_generator_matrix (hkind : ∀ m off f a, c.kind ≠ .bch m off f a) :
    ∃ G : Matrix, (∀ row ∈ G, row.length = c.n) ∧ ∀ w, encodeWord c w = vecMat c.q c.n w G := by
  cases hfam : c.kind with
  | ham r =>
    refine ⟨hamGen c r, fun row hrow => ?_, fun w => by simp only [encodeWord, hfam]; rfl⟩
    rw [genMat_row_length _ _ _ row hrow, hamCheck, transpose_length, ham_n_eq hc hfam]
  | bch m off f a => exact absurd hfam (hkind m off f a)
  | gol =>
    refine ⟨golGen Config.params c.n c.k, fun row hrow => ?_,
      fun w => by simp only [encodeWord, hfam]; rfl⟩
    obtain ⟨-, hkn, -⟩ := Code.ok_bounds hc
    rw [hconcat_row_length _ _ _ _ (identity_row_length c.k)
      (golHalf_row_length c (Code.ok_gol hc hfam)) row hrow]
    omega
  | rm r m =>
    obtain ⟨hq, -, -, hn, -⟩ := Code.ok_rm hc hfam
    refine ⟨rmGen r m, fun row hrow => ?_, fun w => by simp only [encodeWord, hfam, hq, hn]; rfl⟩
    rw [rmGen_row_length r m row hrow, hn]

/-- The sum of two codewords and the multiple of one are words that the generator polynomial divides,
so they are the codewords of their first k symbols. -/
theorem encodeWord_bch_linear {m off : Nat} {f a : List Symbol} (hkind : c.kind = .bch m off f a)
    {u v : Word} (hu : WordOver c.q c.k u) (hv : WordOver c.q c.k v) (b : Nat) :
    encodeWord c (wAdd c.q u v) = wAdd c.q (encodeWord c u) (encodeWord c v)
      ∧ encodeWord c (wScale c.q b u) = wScale c.q b (encodeWord c u) := by
  have hq := Code.ok_q_pos hc
  have heu := encodeWord_wordOver hc hu
  have hev := encodeWord_wordOver hc hv
  have hdu := dvd_codePoly_encodeWord hc hkind u
  have hdv := dvd_codePoly_encodeWord hc hkind v
  have htake : (wAdd c.q (encodeWord c u) (encodeWord c v)).take c.k = wAdd c.q u v := by
    rw [wAdd, List.take_zipWith, take_encodeWord_bch hkind hu.1, take_encodeWord_bch hkind hv.1, wAdd]
  have htake' : (wScale c.q b (encodeWord c u)).take c.k = wScale c.q b u := by
    rw [wScale, ← List.map_take, take_encodeWord_bch hkind hu.1, wScale]
  have hsum := eq_encodeWord_of_dvd hc hkind (x := wAdd c.q (encodeWord c u) (encodeWord c v))
    (wordOver_wAdd hq heu.1 hev.1)
    (by rw [codePoly_wAdd c.q (heu.1.trans hev.1.symm)]; exact dvd_add hdu hdv)
  have hmul := eq_encodeWord_of_dvd hc hkind (x := wScale c.q b (encodeWord c u))
    (wordOver_wScale hq b heu.1)
    (by rw [codePoly_wScale]; exact dvd_mul_of_dvd_right hdu _)
  rw [htake] at hsum
  rw [htake'] at hmul
  exact ⟨hsum.symm, hmul.symm⟩

end

/-- Settles O38: a product with a generator matrix is linear, and so are the multiples of a generator
polynomial. -/
theorem encodeIsLinear : Obligations.EncodeIsLinear := by
  intro c u v b hc hu hv
  by_cases hkind : ∀ m off f a, c.kind ≠ .bch m off f a
  · obtain ⟨G, hG, henc⟩ := exists_generator_matrix hc hkind
    rw [henc, henc, henc, henc]
    exact ⟨vecMat_wAdd (Code.ok_q_pos hc) hG (hu.1.trans hv.1.symm),
      vecMat_wScale (Code.ok_q_pos hc) hG b u⟩
  · simp only [ne_eq, not_forall, not_not] at hkind
    obtain ⟨m, off, f, a, hkind⟩ := hkind
    exact encodeWord_bch_linear hc hkind hu hv b

end Sys2Proof.Machine


/-! ## The extension field (40_field_arithmetic.md R97 to R103)

An element of the extension is the class of its polynomial in alpha, in `AdjoinRoot` of the modulus; the
model's operations are those of that ring. A primitive element makes the ring a domain. -/

namespace Sys2Proof.Machine

open Polynomial

/-! ### The value of an element -/

/-- The modulus: x^m + f_{m-1} x^(m-1) + ... + f_0, without the leading 1 in `F.f` (R97). -/
noncomputable def ExtField.modulus (F : ExtField) : (ZMod F.q)[X] := codePoly F.q (1 :: F.f.reverse)

/-- The extension as a quotient of the polynomials over `ZMod q`. -/
abbrev ExtField.Value (F : ExtField) : Type := AdjoinRoot F.modulus

/-- The class of u_0 + u_1 alpha + ... . -/
noncomputable def ExtField.value (F : ExtField) (u : Elem) : F.Value :=
  AdjoinRoot.mk F.modulus (symbolPoly F.q u)

/-- An m-tuple over GF(q) (R97). -/
abbrev ExtField.IsElem (F : ExtField) (u : Elem) : Prop := WordOver F.q F.m u

section
variable (F : ExtField)

theorem modulus_monic : F.modulus.Monic := codePoly_monic F.q F.f.reverse

theorem modulus_eq : F.modulus = X ^ F.m + symbolPoly F.q F.f := by
  rw [ExtField.modulus, codePoly_cons, codePoly, List.reverse_reverse, List.length_reverse]
  simp [ExtField.m]

theorem degree_modulus (hq : 1 < F.q) : F.modulus.degree = F.m := by
  rw [ExtField.modulus, degree_codePoly_one_cons F.q hq, List.length_reverse, ExtField.m]

/-- Different elements have different values (R97). -/
theorem value_inj (hq : 1 < F.q) {u v : Elem} (hu : F.IsElem u) (hv : F.IsElem v)
    (h : F.value u = F.value v) : u = v := by
  have hdvd : F.modulus ∣ symbolPoly F.q u - symbolPoly F.q v := AdjoinRoot.mk_eq_mk.1 h
  have hlt : (symbolPoly F.q u - symbolPoly F.q v).degree < F.modulus.degree := by
    rw [degree_modulus F hq]
    refine (degree_sub_le _ _).trans_lt (max_lt ?_ ?_)
    · exact hu.1 ▸ degree_coeffPoly_lt _ u
    · exact hv.1 ▸ degree_coeffPoly_lt _ v
  refine symbolPoly_inj F.q hu hv (sub_eq_zero.1 ?_)
  by_contra hne
  exact (modulus_monic F).not_dvd_of_degree_lt hne hlt hdvd

theorem value_nil : F.value [] = 0 := map_zero _

theorem value_cons (c : Symbol) (u : Elem) :
    F.value (c :: u) = algebraMap (ZMod F.q) F.Value c + AdjoinRoot.root F.modulus * F.value u := by
  simp [ExtField.value, symbolPoly, coeffPoly, AdjoinRoot.algebraMap_eq]

theorem value_add {u v : Elem} (h : u.length = v.length) :
    F.value (F.add u v) = F.value u + F.value v := by
  rw [ExtField.value, show F.add u v = wAdd F.q u v from rfl, symbolPoly_wAdd F.q h, map_add]
  rfl

theorem value_wScale (c : Symbol) (u : Elem) :
    F.value (wScale F.q c u) = algebraMap (ZMod F.q) F.Value c * F.value u := by
  rw [ExtField.value, symbolPoly_wScale, map_mul, AdjoinRoot.mk_C]
  rfl

theorem value_neg [NeZero F.q] (u : Elem) : F.value (F.neg u) = -F.value u := by
  rw [ExtField.value, ExtField.neg, symbolPoly_map_gfNeg, map_neg]
  rfl

theorem value_replicate_zero (k : Nat) : F.value (List.replicate k 0) = 0 := by
  have h := codePoly_zeros F.q k
  rw [codePoly, zeros, List.reverse_replicate] at h
  rw [ExtField.value, h, map_zero]

theorem value_zero : F.value F.zero = 0 := value_replicate_zero F F.m

theorem value_emb (c : Symbol) : F.value (F.emb c) = algebraMap (ZMod F.q) F.Value c := by
  rw [ExtField.emb, value_cons, value_replicate_zero, mul_zero, add_zero]

theorem value_one : F.value F.one = 1 := by
  rw [ExtField.one, value_emb, Nat.cast_one, map_one]

/-! ### The operations answer elements -/

section
variable (hq : 0 < F.q) (hm : 1 ≤ F.m)
include hq hm

theorem emb_isElem {c : Symbol} (hc : c < F.q) : F.IsElem (F.emb c) := by
  refine ⟨by simp [ExtField.emb]; omega, fun x hx => ?_⟩
  obtain rfl | hx := List.mem_cons.1 hx
  · exact hc
  · rwa [List.eq_of_mem_replicate hx]

theorem mulAlpha_isElem {u : Elem} (hu : F.IsElem u) : F.IsElem (F.mulAlpha u) := by
  have hlen : u.length - 1 + 1 = F.f.length := (Nat.sub_add_cancel (hm.trans_eq hu.1.symm)).trans hu.1
  refine ⟨by simp [ExtField.mulAlpha, ExtField.m, hlen], fun x hx => ?_⟩
  obtain ⟨i, hi, rfl⟩ := List.getElem_of_mem hx
  simp only [ExtField.mulAlpha, List.getElem_zipWith]
  exact gfSub_lt F.q _ _ hq

omit hm in
theorem zero_isElem : F.IsElem F.zero := zeros_wordOver hq F.m

omit hm in
theorem add_isElem {u v : Elem} (hu : F.IsElem u) (hv : F.IsElem v) : F.IsElem (F.add u v) :=
  wordOver_wAdd hq hu.1 hv.1

omit hm in
theorem neg_isElem {u : Elem} (hu : F.IsElem u) : F.IsElem (F.neg u) :=
  wordOver_map_gfNeg hq hu.1

theorem mul_isElem (u : Elem) {v : Elem} (hv : F.IsElem v) : F.IsElem (F.mul u v) := by
  induction u with
  | nil => exact zero_isElem F hq
  | cons c u ih =>
    exact add_isElem F hq (wordOver_wScale hq c hv.1) (mulAlpha_isElem F hq hm ih)

theorem pow_isElem (hq' : 1 < F.q) {u : Elem} (hu : F.IsElem u) (e : Nat) :
    F.IsElem (F.pow u e) := by
  cases e with
  | zero => exact emb_isElem F hq hm hq'
  | succ e => exact mul_isElem F hq hm _ hu

end

/-! ### The operations are those of the ring -/

section
variable (hq : 1 < F.q) (hm : 1 ≤ F.m)
include hq hm

/-- Multiplying by alpha replaces alpha^m by its remainder (R99). -/
theorem value_mulAlpha {u : Elem} (hu : F.IsElem u) :
    F.value (F.mulAlpha u) = AdjoinRoot.root F.modulus * F.value u := by
  have : NeZero F.q := ⟨by omega⟩
  obtain rfl | ⟨v, t, rfl⟩ := List.eq_nil_or_concat u
  · have := hu.1
    simp at this
    omega
  · have hlen : v.length + 1 = F.m := by simpa using hu.1
    have hpoly : symbolPoly F.q (F.mulAlpha (v.concat t))
        = X * symbolPoly F.q v - C (t : ZMod F.q) * symbolPoly F.q F.f := by
      have hzip := coeffPoly_zipWith (fun x : Nat => (x : ZMod F.q))
        (fun s fj => gfSub F.q s (gfMul F.q t fj)) (-(t : ZMod F.q)) (p := 0 :: v) (r := F.f)
        hlen fun a _ b _ => by simp [sub_eq_add_neg]
      simp [symbolPoly, ExtField.mulAlpha, hzip, coeffPoly, sub_eq_add_neg]
    have hsplit : symbolPoly F.q (v.concat t)
        = symbolPoly F.q v + X ^ v.length * C (t : ZMod F.q) := by
      simp [symbolPoly, coeffPoly_append, coeffPoly]
    rw [ExtField.value, ExtField.value, hpoly, hsplit, ← AdjoinRoot.mk_X, ← map_mul,
      AdjoinRoot.mk_eq_mk]
    refine ⟨-C (t : ZMod F.q), ?_⟩
    rw [modulus_eq, ← hlen]
    ring

theorem value_mul (u : Elem) {v : Elem} (hv : F.IsElem v) :
    F.value (F.mul u v) = F.value u * F.value v := by
  induction u with
  | nil => rw [ExtField.mul, List.foldr_nil, value_zero, value_nil, zero_mul]
  | cons c u ih =>
    have hu := mul_isElem F (by omega) hm u hv
    have hlen : (wScale F.q c v).length = (F.mulAlpha (F.mul u v)).length := by
      rw [wScale_length, hv.1, (mulAlpha_isElem F (by omega) hm hu).1]
    rw [show F.mul (c :: u) v = F.add (wScale F.q c v) (F.mulAlpha (F.mul u v)) from rfl,
      value_add F hlen, value_wScale, value_mulAlpha F hq hm hu, ih, value_cons]
    ring

theorem value_pow {u : Elem} (hu : F.IsElem u) (e : Nat) : F.value (F.pow u e) = F.value u ^ e := by
  induction e with
  | zero => rw [ExtField.pow, value_one, pow_zero]
  | succ e ih => rw [ExtField.pow, value_mul F hq hm _ hu, ih, pow_succ]

end

end

end Sys2Proof.Machine


/-! ## The field of a primitive element (40_field_arithmetic.md R101), and its polynomials (R104 to R110) -/

namespace Sys2Proof.Machine

open Polynomial

/-- The field of a code that BCH.NEW admits: q is prime, a is an element of order n = q^m - 1
(43_bch.md R155, R156). -/
structure ExtField.Primitive (F : ExtField) : Prop where
  prime : F.q.Prime
  m_pos : 1 ≤ F.m
  n_eq : F.n = F.q ^ F.m - 1
  a_elem : F.IsElem F.a
  order : F.isPrimitive = true

theorem bchField_primitive {c : Code} {m off : Nat} {f a : List Symbol} (hc : c.ok = true)
    (hkind : c.kind = .bch m off f a) : (bchField c.q c.n f a).Primitive := by
  obtain ⟨hq, ⟨hm, -⟩, -, -, ha, hn, -, hprim⟩ := Code.ok_bch hc hkind
  have hFm := bchField_m hc hkind
  exact ⟨((isPrime_iff _).1 hq).1, by rwa [hFm], by rwa [hFm], by rwa [ExtField.IsElem, hFm], hprim⟩

section
variable {F : ExtField} (hF : F.Primitive)
include hF

theorem ExtField.Primitive.one_lt_q : 1 < F.q := hF.prime.one_lt

theorem ExtField.Primitive.n_pos : 0 < F.n := by
  have h := Nat.one_lt_pow (Nat.one_le_iff_ne_zero.1 hF.m_pos) hF.one_lt_q
  rw [hF.n_eq]
  omega

/-- The value of a has multiplicative order n (R101). -/
theorem ExtField.Primitive.orderOf_value : orderOf (F.value F.a) = F.n := by
  have hq := hF.one_lt_q
  have hq' : 0 < F.q := by omega
  have hone : F.IsElem F.one := emb_isElem F hq' hF.m_pos hq
  have hpow (j : Nat) : F.value F.a ^ j = 1 ↔ F.pow F.a j = F.one := by
    rw [← value_pow F hq hF.m_pos hF.a_elem, ← value_one F]
    exact ⟨value_inj F hq (pow_isElem F hq' hF.m_pos hq hF.a_elem j) hone, congrArg _⟩
  have hprim := hF.order
  simp only [ExtField.isPrimitive, Bool.and_eq_true, beq_iff_eq, List.all_eq_true, List.mem_range,
    Bool.or_eq_true, bne_iff_ne] at hprim
  obtain ⟨hn, hlt⟩ := hprim
  refine (orderOf_eq_iff hF.n_pos).2 ⟨(hpow _).2 hn, fun j hj hpos h => ?_⟩
  exact (hlt j hj).elim (by omega) fun hne => hne ((hpow j).1 h)

theorem ExtField.Primitive.card_value [Fact F.q.Prime] [Fintype F.Value] :
    Fintype.card F.Value = F.n + 1 := by
  have hdim : Module.finrank (ZMod F.q) F.Value = F.m := by
    rw [(AdjoinRoot.powerBasis' (modulus_monic F)).finrank, AdjoinRoot.powerBasis'_dim]
    exact natDegree_eq_of_degree_eq_some (degree_modulus F hF.one_lt_q)
  have hpos := hF.n_pos
  have hn := hF.n_eq
  rw [Module.card_eq_pow_finrank (K := ZMod F.q), hdim, ZMod.card]
  omega

omit hF in
theorem finite_value [Fact F.q.Prime] : Finite F.Value := by
  have : Module.Finite (ZMod F.q) F.Value := (modulus_monic F).finite_adjoinRoot
  exact Module.finite_of_finite (ZMod F.q)

theorem ExtField.Primitive.nontrivial_value : Nontrivial F.Value := by
  have : Fact F.q.Prime := ⟨hF.prime⟩
  refine AdjoinRoot.nontrivial _ ?_
  rw [degree_modulus F hF.one_lt_q]
  exact_mod_cast Nat.one_le_iff_ne_zero.1 hF.m_pos

theorem ExtField.Primitive.isUnit_value : IsUnit (F.value F.a) :=
  IsUnit.of_pow_eq_one (hF.orderOf_value ▸ pow_orderOf_eq_one _) hF.n_pos.ne'

/-- Every nonzero value is a power of the primitive element: the powers are n = q^m - 1 values. -/
theorem ExtField.Primitive.exists_pow_eq {x : F.Value} (hx : x ≠ 0) :
    ∃ i, F.value F.a ^ i = x := by
  classical
  have : Fact F.q.Prime := ⟨hF.prime⟩
  have := finite_value (F := F)
  have := Fintype.ofFinite F.Value
  have := hF.nontrivial_value
  have hinj : Set.InjOn (fun i => F.value F.a ^ i) (Finset.range F.n : Set Nat) := by
    have h := pow_injOn_Iio_orderOf (x := F.value F.a)
    rwa [hF.orderOf_value, ← Finset.coe_range] at h
  have hsub : (Finset.range F.n).image (fun i => F.value F.a ^ i) ⊆ Finset.univ.erase 0 := by
    intro y hy
    obtain ⟨i, -, rfl⟩ := Finset.mem_image.1 hy
    exact Finset.mem_erase.2 ⟨(hF.isUnit_value.pow i).ne_zero, Finset.mem_univ _⟩
  have heq := Finset.eq_of_subset_of_card_le hsub (by
    rw [Finset.card_image_of_injOn hinj, Finset.card_range,
      Finset.card_erase_of_mem (Finset.mem_univ _), Finset.card_univ, hF.card_value]
    rfl)
  have hmem : x ∈ Finset.univ.erase 0 := Finset.mem_erase.2 ⟨hx, Finset.mem_univ _⟩
  obtain ⟨i, -, hi⟩ := Finset.mem_image.1 (heq ▸ hmem)
  exact ⟨i, hi⟩

/-- A primitive element makes the extension a domain: every nonzero value is a unit. -/
theorem ExtField.Primitive.isDomain : IsDomain F.Value := by
  have := hF.nontrivial_value
  have : NoZeroDivisors F.Value := ⟨fun {x y} hxy => or_iff_not_imp_left.2 fun hx => by
    obtain ⟨i, rfl⟩ := hF.exists_pow_eq hx
    exact ((hF.isUnit_value.pow i).mul_right_eq_zero).1 hxy⟩
  exact NoZeroDivisors.to_isDomain _

theorem ExtField.Primitive.value_apow (j : Nat) :
    F.value (F.apow j) = F.value F.a ^ j := by
  have hmod : ((j : Int) % (F.n : Int)).toNat = j % F.n := by omega
  rw [ExtField.apow, hmod, value_pow F hF.one_lt_q hF.m_pos hF.a_elem, ← hF.orderOf_value,
    pow_mod_orderOf]

theorem ExtField.Primitive.apow_isElem (j : Int) : F.IsElem (F.apow j) :=
  pow_isElem F hF.prime.pos hF.m_pos hF.one_lt_q hF.a_elem _

/-! ### Polynomials over the extension -/

theorem ExtField.Primitive.value_polyEval {p : Poly} (hp : ∀ c ∈ p, F.IsElem c) (u : Elem) :
    F.IsElem (F.polyEval p u)
      ∧ F.value (F.polyEval p u) = (coeffPoly F.value p).eval (F.value u) := by
  have hq := hF.prime.pos
  induction p with
  | nil => exact ⟨zero_isElem F hq, by simp [ExtField.polyEval, value_zero, coeffPoly]⟩
  | cons c p ih =>
    rw [List.forall_mem_cons] at hp
    obtain ⟨hc, hp⟩ := hp
    obtain ⟨hrest, hval⟩ := ih hp
    have hmul := mul_isElem F hq hF.m_pos u hrest
    rw [show F.polyEval (c :: p) u = F.add c (F.mul u (F.polyEval p u)) from rfl]
    refine ⟨add_isElem F hq hc hmul, ?_⟩
    rw [value_add F (hc.1.trans hmul.1.symm), value_mul F hF.one_lt_q hF.m_pos u hrest, hval]
    simp [coeffPoly]

theorem ExtField.Primitive.coeffPoly_polyAdd {p r : Poly} (hp : ∀ c ∈ p, F.IsElem c)
    (hr : ∀ c ∈ r, F.IsElem c) : (∀ c ∈ F.polyAdd p r, F.IsElem c)
      ∧ coeffPoly F.value (F.polyAdd p r) = coeffPoly F.value p + coeffPoly F.value r := by
  induction p generalizing r with
  | nil => exact ⟨by simpa [ExtField.polyAdd] using hr, by simp [ExtField.polyAdd, coeffPoly]⟩
  | cons c p ih =>
    cases r with
    | nil => exact ⟨by simpa [ExtField.polyAdd] using hp, by simp [ExtField.polyAdd, coeffPoly]⟩
    | cons e r =>
      rw [List.forall_mem_cons] at hp hr
      obtain ⟨hc, hp⟩ := hp
      obtain ⟨he, hr⟩ := hr
      obtain ⟨hrest, hval⟩ := ih hp hr
      refine ⟨List.forall_mem_cons.2 ⟨add_isElem F hF.prime.pos hc he, hrest⟩, ?_⟩
      simp only [ExtField.polyAdd, coeffPoly, value_add F (hc.1.trans he.1.symm), hval, C_add]
      ring

theorem ExtField.Primitive.coeffPoly_mulLinear {p : Poly} (hp : ∀ c ∈ p, F.IsElem c) {v : Elem} :
    (∀ c ∈ F.mulLinear p v, F.IsElem c)
      ∧ coeffPoly F.value (F.mulLinear p v) = coeffPoly F.value p * (X - C (F.value v)) := by
  have : NeZero F.q := ⟨hF.prime.ne_zero⟩
  have hq := hF.prime.pos
  have hzero : ∀ c ∈ F.zero :: p, F.IsElem c := List.forall_mem_cons.2 ⟨zero_isElem F hq, hp⟩
  have hneg : ∀ c ∈ p.map fun c => F.neg (F.mul v c), F.IsElem c := by
    intro c hc
    obtain ⟨e, he, rfl⟩ := List.mem_map.1 hc
    exact neg_isElem F hq (mul_isElem F hq hF.m_pos v (hp e he))
  have hmul : coeffPoly F.value (p.map fun c => F.neg (F.mul v c))
      = C (-F.value v) * coeffPoly F.value p :=
    coeffPoly_map_mul _ _ _ _ fun c hc => by
      rw [value_neg, value_mul F hF.one_lt_q hF.m_pos v (hp c hc), neg_mul]
  obtain ⟨helem, hsum⟩ := hF.coeffPoly_polyAdd hzero hneg
  refine ⟨helem, ?_⟩
  rw [ExtField.mulLinear, hsum, hmul, coeffPoly, value_zero, C_0, C_neg]
  ring

/-- A product of factors x - v (R109). -/
theorem ExtField.Primitive.coeffPoly_linearProduct (vs : List Elem) :
    (∀ c ∈ F.linearProduct vs, F.IsElem c)
      ∧ coeffPoly F.value (F.linearProduct vs) = (vs.map fun v => X - C (F.value v)).prod := by
  have hfold : ∀ p : Poly, (∀ c ∈ p, F.IsElem c) → (∀ c ∈ vs.foldl F.mulLinear p, F.IsElem c)
      ∧ coeffPoly F.value (vs.foldl F.mulLinear p)
        = coeffPoly F.value p * (vs.map fun v => X - C (F.value v)).prod := by
    induction vs with
    | nil => exact fun p hp => ⟨hp, by simp⟩
    | cons v vs ih =>
      intro p hp
      obtain ⟨hstep, hval⟩ := hF.coeffPoly_mulLinear hp (v := v)
      obtain ⟨hrest, hprod⟩ := ih _ hstep
      refine ⟨hrest, ?_⟩
      rw [List.foldl_cons, hprod, hval, List.map_cons, List.prod_cons, mul_assoc]
  have hone : ∀ c ∈ [F.one], F.IsElem c :=
    List.forall_mem_singleton.2 (emb_isElem F hF.prime.pos hF.m_pos hF.one_lt_q)
  obtain ⟨helem, hprod⟩ := hfold [F.one] hone
  exact ⟨helem, by simpa [ExtField.linearProduct, coeffPoly, value_one] using hprod⟩

end

end Sys2Proof.Machine


/-! ## The roots of the BCH generator polynomial (43_bch.md R158, R163)

The root exponents are closed under multiplication by q, so the generator polynomial is fixed by the
Frobenius map and has its coefficients in GF(q); the words it divides are those with zero syndromes. -/

namespace Sys2Proof.Machine

open Polynomial

/-! ### Lists of coefficients under maps -/

section
variable {A B R S : Type} [CommRing R] [CommRing S]

theorem coeffPoly_congr {φ ψ : A → R} {p : List A} (h : ∀ c ∈ p, φ c = ψ c) :
    coeffPoly φ p = coeffPoly ψ p := by
  induction p with
  | nil => rfl
  | cons c p ih =>
    rw [List.forall_mem_cons] at h
    simp only [coeffPoly, h.1, ih h.2]

theorem coeffPoly_map (φ : B → R) (g : A → B) (p : List A) :
    coeffPoly φ (p.map g) = coeffPoly (fun c => φ (g c)) p := by
  induction p with
  | nil => rfl
  | cons c p ih => simp only [List.map_cons, coeffPoly, ih]

theorem map_coeffPoly (h : R →+* S) (φ : A → R) (p : List A) :
    (coeffPoly φ p).map h = coeffPoly (fun c => h (φ c)) p := by
  induction p with
  | nil => simp [coeffPoly]
  | cons c p ih => simp [coeffPoly, ih]

end

/-! ### The root exponents -/

theorem mem_rootExponents_iff (q m n c d e : Nat) :
    e ∈ rootExponents q m n c d
      ↔ e < n ∧ ∃ j, j + 1 < d ∧ ∃ i < m, (c + j) % n * q ^ i % n = e := by
  simp only [rootExponents, cyclotomicCoset, List.mem_filter, List.mem_range, List.any_eq_true,
    List.contains_iff_mem, List.mem_map, Nat.lt_sub_iff_add_lt]

theorem rootExponents_nodup (q m n c d : Nat) : (rootExponents q m n c d).Nodup :=
  List.nodup_range.filter _

section
variable {F : ExtField} (hF : F.Primitive)
include hF

/-- The root exponents are closed under multiplication by q, because q^m is 1 modulo n. -/
theorem ExtField.Primitive.mul_q_mem_rootExponents {c d e : Nat}
    (he : e ∈ rootExponents F.q F.m F.n c d) :
    e * F.q % F.n ∈ rootExponents F.q F.m F.n c d := by
  obtain ⟨-, j, hj, i, hi, rfl⟩ := (mem_rootExponents_iff _ _ _ _ _ _).1 he
  refine (mem_rootExponents_iff _ _ _ _ _ _).2 ⟨Nat.mod_lt _ hF.n_pos, j, hj, ?_⟩
  have hstep : (c + j) % F.n * F.q ^ i % F.n * F.q % F.n
      = (c + j) % F.n * F.q ^ (i + 1) % F.n := by
    rw [Nat.mod_mul_mod, mul_assoc, ← pow_succ]
  rw [hstep]
  by_cases hlast : i + 1 < F.m
  · exact ⟨i + 1, hlast, rfl⟩
  · have hm : i + 1 = F.m := by omega
    have hpow : F.q ^ F.m = F.n + 1 := by
      have hpos := hF.n_pos
      have hn := hF.n_eq
      omega
    refine ⟨0, hF.m_pos, ?_⟩
    rw [hm, hpow, pow_zero, mul_one, mul_add, mul_one, Nat.mul_add_mod_self_right]

/-! ### The roots -/

/-- The values of a to the root exponents. -/
noncomputable def ExtField.rootValues (F : ExtField) (c d : Nat) : List F.Value :=
  (rootExponents F.q F.m F.n c d).map fun e => F.value F.a ^ e

theorem ExtField.Primitive.rootValues_nodup (c d : Nat) : (F.rootValues c d).Nodup := by
  refine (rootExponents_nodup F.q F.m F.n c d).map_on fun e he e' he' h => ?_
  have hlt {e : Nat} (he : e ∈ rootExponents F.q F.m F.n c d) : e < orderOf (F.value F.a) :=
    hF.orderOf_value ▸ ((mem_rootExponents_iff _ _ _ _ _ _).1 he).1
  exact pow_injOn_Iio_orderOf (hlt he) (hlt he') h

/-- The roots are the powers a^((c + j) * q^i) (43_bch.md R158). -/
theorem ExtField.Primitive.mem_rootValues_iff (c d : Nat) (x : F.Value) :
    x ∈ F.rootValues c d
      ↔ ∃ j, j + 1 < d ∧ ∃ i < F.m, (F.value F.a ^ (c + j)) ^ F.q ^ i = x := by
  have hpow (j i : Nat) : F.value F.a ^ ((c + j) % F.n * F.q ^ i % F.n)
      = (F.value F.a ^ (c + j)) ^ F.q ^ i := by
    rw [← hF.orderOf_value, pow_mod_orderOf, pow_mul, pow_mod_orderOf]
  simp only [ExtField.rootValues, List.mem_map, mem_rootExponents_iff]
  constructor
  · rintro ⟨e, ⟨-, j, hj, i, hi, rfl⟩, rfl⟩
    exact ⟨j, hj, i, hi, (hpow j i).symm⟩
  · rintro ⟨j, hj, i, hi, rfl⟩
    exact ⟨_, ⟨Nat.mod_lt _ hF.n_pos, j, hj, i, hi, rfl⟩, hpow j i⟩

omit hF in
/-- In `rootProduct` the exponents are first cast to integers, as a list. -/
theorem rootProduct_eq (es : List Nat) :
    F.rootProduct es = F.linearProduct (es.map fun e : Nat => F.apow e) := by
  have hcast : (do let e ← es; pure (e : Int)) = es.map fun e : Nat => (e : Int) := by
    rw [bind_pure_comp, List.map_eq_map]
  rw [ExtField.rootProduct, hcast, List.map_map]
  rfl

/-- The generator polynomial, over the extension: the product of x - a^e over the root exponents. -/
theorem ExtField.Primitive.coeffPoly_rootProduct (c d : Nat) :
    (∀ u ∈ F.rootProduct (rootExponents F.q F.m F.n c d), F.IsElem u)
      ∧ coeffPoly F.value (F.rootProduct (rootExponents F.q F.m F.n c d))
        = ((F.rootValues c d).map fun x => X - C x).prod := by
  obtain ⟨helem, hprod⟩ := hF.coeffPoly_linearProduct
    ((rootExponents F.q F.m F.n c d).map fun e : Nat => F.apow e)
  rw [rootProduct_eq]
  refine ⟨helem, ?_⟩
  rw [hprod, ExtField.rootValues, List.map_map, List.map_map]
  simp only [Function.comp_def, hF.value_apow]

end

/-! ### The Frobenius map -/

section
variable {q : Nat} [Fact q.Prime] {K : Type} [CommRing K] [Algebra (ZMod q) K]

/-- u to u^q, over `ZMod q`. -/
noncomputable def frob (q : Nat) [Fact q.Prime] (K : Type) [CommRing K] [Algebra (ZMod q) K] :
    K →ₐ[ZMod q] K := FiniteField.frobeniusAlgHom (ZMod q) K

theorem frob_apply (x : K) : frob q K x = x ^ q := by simp [frob, ZMod.card]

/-- A root of a polynomial over GF(q) gives the roots x^(q^i). -/
theorem aeval_pow_eq_zero {P : (ZMod q)[X]} {x : K} (h : aeval x P = 0) (i : Nat) :
    aeval (x ^ q ^ i) P = 0 := by
  induction i with
  | zero => simpa using h
  | succ i ih => rw [pow_succ, pow_mul, ← frob_apply, aeval_algHom_apply, ih, map_zero]

variable [IsDomain K]

theorem frob_injective : Function.Injective (frob q K) := by
  refine (injective_iff_map_eq_zero _).2 fun x hx => ?_
  rw [frob_apply] at hx
  exact pow_eq_zero_iff (Fact.out : q.Prime).ne_zero |>.1 hx

/-- GF(q) is what the Frobenius map fixes (40_field_arithmetic.md R103). -/
theorem exists_algebraMap_eq_of_pow_eq [Finite K] {x : K} (h : x ^ q = x) :
    ∃ b : ZMod q, algebraMap (ZMod q) K b = x := by
  classical
  have := Fintype.ofFinite K
  let _ : Field K := Fintype.fieldOfDomain K
  have : CharP K q := charP_of_injective_algebraMap (algebraMap (ZMod q) K).injective q
  have hmem : x ∈ (⊥ : Subfield K) := (Subfield.mem_bot_iff_pow_eq_self K q).2 h
  obtain ⟨z, hz⟩ := (mem_bot_iff_intCast q K).1 hmem
  exact ⟨z, (map_intCast _ z).trans hz⟩

/-- The product of x - v over a list that the Frobenius map keeps has its coefficients in GF(q). -/
theorem map_frob_prod {L : List K} (hnodup : L.Nodup) (hclosed : ∀ x ∈ L, x ^ q ∈ L) :
    ((L.map fun x => X - C x).prod).map (frob q K : K →+* K) = (L.map fun x => X - C x).prod := by
  have hsub : L.map (frob q K) ⊆ L := by
    intro y hy
    obtain ⟨x, hx, rfl⟩ := List.mem_map.1 hy
    exact frob_apply (q := q) x ▸ hclosed x hx
  have hperm : (L.map (frob q K)).Perm L :=
    ((hnodup.map frob_injective).subperm hsub).perm_of_length_le (by simp)
  rw [← coe_mapRingHom, map_list_prod, List.map_map]
  calc (L.map (mapRingHom (frob q K : K →+* K) ∘ fun x => X - C x)).prod
      = ((L.map (frob q K)).map fun x => X - C x).prod := by
        rw [List.map_map]
        congr 1
        exact List.map_congr_left fun x _ => by simp
    _ = (L.map fun x => X - C x).prod := (hperm.map _).prod_eq

end

end Sys2Proof.Machine


/-! ## The generator polynomial over GF(q), and the syndromes (43_bch.md R158, R161, R163) -/

namespace Sys2Proof.Machine

open Polynomial

section
variable {F : ExtField} (hF : F.Primitive)
include hF

/-! ### The coefficients of the generator polynomial lie in GF(q) -/

theorem ExtField.Primitive.rootValues_closed (c d : Nat) :
    ∀ x ∈ F.rootValues c d, x ^ F.q ∈ F.rootValues c d := by
  intro x hx
  obtain ⟨e, he, rfl⟩ := List.mem_map.1 hx
  refine List.mem_map.2 ⟨e * F.q % F.n, hF.mul_q_mem_rootExponents he, ?_⟩
  rw [← hF.orderOf_value, pow_mod_orderOf, pow_mul]

/-- Every coefficient is an embedded symbol (R109, R103). -/
theorem ExtField.Primitive.rootProduct_eq_emb (c d : Nat) :
    ∀ u ∈ F.rootProduct (rootExponents F.q F.m F.n c d), base u < F.q ∧ u = F.emb (base u) := by
  intro u hu
  have : Fact F.q.Prime := ⟨hF.prime⟩
  have := hF.isDomain
  have := finite_value (F := F)
  obtain ⟨helem, hprod⟩ := hF.coeffPoly_rootProduct c d
  have hfixed := map_frob_prod (q := F.q) (hF.rootValues_nodup c d) (hF.rootValues_closed c d)
  rw [← hprod] at hfixed
  obtain ⟨j, hj, hget⟩ := List.getElem_of_mem hu
  have hcoeff : (coeffPoly F.value (F.rootProduct (rootExponents F.q F.m F.n c d))).coeff j
      = F.value u := by
    rw [coeff_coeffPoly, List.getElem?_eq_getElem hj, hget, Option.elim_some]
  have hpow : F.value u ^ F.q = F.value u := by
    have h := congrArg (fun p => coeff p j) hfixed
    simpa only [coeff_map, hcoeff, RingHom.coe_coe, frob_apply] using h
  obtain ⟨b, hb⟩ := exists_algebraMap_eq_of_pow_eq hpow
  have hval : F.value u = F.value (F.emb b.val) := by
    rw [value_emb, ZMod.natCast_zmod_val, hb]
  have hemb : u = F.emb b.val := value_inj F hF.one_lt_q (helem u hu)
    (emb_isElem F hF.prime.pos hF.m_pos (ZMod.val_lt b)) hval
  subst hemb
  exact ⟨ZMod.val_lt b, rfl⟩

theorem ExtField.Primitive.rootProduct_all_inBase (c d : Nat) :
    (F.rootProduct (rootExponents F.q F.m F.n c d)).all inBase = true := by
  refine List.all_eq_true.2 fun u hu => ?_
  rw [(hF.rootProduct_eq_emb c d u hu).2]
  simp [inBase, ExtField.emb]

/-- The generator polynomial over GF(q) is, over the extension, the product of x - a^e. -/
theorem ExtField.Primitive.map_codePoly_bchGenPoly (c d : Nat) :
    (codePoly F.q (bchGenPoly F c d)).map (algebraMap (ZMod F.q) F.Value)
      = ((F.rootValues c d).map fun x => X - C x).prod := by
  obtain ⟨-, hprod⟩ := hF.coeffPoly_rootProduct c d
  rw [← hprod, codePoly, bchGenPoly, List.reverse_reverse, basePoly, symbolPoly, coeffPoly_map,
    map_coeffPoly]
  refine coeffPoly_congr fun u hu => ?_
  rw [← value_emb, ← (hF.rootProduct_eq_emb c d u hu).2]

/-! ### Syndromes -/

/-- A syndrome is the value of the word's polynomial (R105). -/
theorem ExtField.Primitive.polyEval_wordPoly_eq_zero_iff {w : Word} (hw : ∀ x ∈ w, x < F.q)
    (i : Nat) : F.polyEval (F.wordPoly w) (F.apow i) = F.zero
      ↔ aeval (F.value F.a ^ i) (codePoly F.q w) = 0 := by
  have helem : ∀ u ∈ F.wordPoly w, F.IsElem u := by
    intro u hu
    obtain ⟨x, hx, rfl⟩ := List.mem_map.1 hu
    exact emb_isElem F hF.prime.pos hF.m_pos (hw x (List.mem_reverse.1 hx))
  have hpoly : coeffPoly F.value (F.wordPoly w)
      = (codePoly F.q w).map (algebraMap (ZMod F.q) F.Value) := by
    rw [ExtField.wordPoly, coeffPoly_map, codePoly, symbolPoly, map_coeffPoly]
    simp only [value_emb]
  obtain ⟨hres, hval⟩ := hF.value_polyEval helem (F.apow i)
  rw [hpoly, hF.value_apow, eval_map_algebraMap] at hval
  rw [← hval, ← value_zero F]
  exact ⟨congrArg _, value_inj F hF.one_lt_q hres (zero_isElem F hF.prime.pos)⟩

/-- The generator polynomial divides a polynomial over GF(q) exactly when a^c, ..., a^(c+d-2) are roots
of it: with x every x^(q^i) is a root, and the roots are distinct. -/
theorem ExtField.Primitive.bchGenPoly_dvd_iff (c d : Nat) (P : (ZMod F.q)[X]) :
    codePoly F.q (bchGenPoly F c d) ∣ P
      ↔ ∀ j, j + 1 < d → aeval (F.value F.a ^ (c + j)) P = 0 := by
  have : Fact F.q.Prime := ⟨hF.prime⟩
  have := hF.isDomain
  obtain ⟨g, hg⟩ := List.head?_eq_some_iff.1 (bchGenPoly_head? F c d)
  have hmonic : (codePoly F.q (bchGenPoly F c d)).Monic := hg ▸ codePoly_monic F.q g
  rw [← map_dvd_map _ (algebraMap (ZMod F.q) F.Value).injective hmonic, hF.map_codePoly_bchGenPoly]
  constructor
  · intro hdvd j hj
    have hmem : F.value F.a ^ (c + j) ∈ F.rootValues c d :=
      (hF.mem_rootValues_iff c d _).2 ⟨j, hj, 0, hF.m_pos, by simp⟩
    have hroot := (List.dvd_prod (List.mem_map_of_mem (f := fun x => X - C x) hmem)).trans hdvd
    rw [dvd_iff_isRoot, IsRoot.def, eval_map_algebraMap] at hroot
    exact hroot
  · intro hroots
    by_cases hP : P.map (algebraMap (ZMod F.q) F.Value) = 0
    · rw [hP]
      exact dvd_zero _
    have hle : (F.rootValues c d : Multiset F.Value)
        ≤ (P.map (algebraMap (ZMod F.q) F.Value)).roots := by
      refine (Multiset.le_iff_subset (Multiset.coe_nodup.2 (hF.rootValues_nodup c d))).2
        fun x hx => (mem_roots hP).2 ?_
      obtain ⟨j, hj, i, -, rfl⟩ := (hF.mem_rootValues_iff c d x).1 (Multiset.mem_coe.1 hx)
      rw [IsRoot.def, eval_map_algebraMap]
      exact aeval_pow_eq_zero (hroots j hj) i
    simpa using (Multiset.prod_X_sub_C_dvd_iff_le_roots hP _).2 hle

/-- The words with all syndromes zero are the multiples of the generator polynomial. -/
theorem ExtField.Primitive.syndromes_zero_iff_dvd {w : Word} (hw : ∀ x ∈ w, x < F.q) (c d : Nat) :
    (∀ j, j + 1 < d → F.polyEval (F.wordPoly w) (F.apow ((c + j : Nat) : Int)) = F.zero)
      ↔ codePoly F.q (bchGenPoly F c d) ∣ codePoly F.q w := by
  rw [hF.bchGenPoly_dvd_iff]
  exact forall₂_congr fun j _ => hF.polyEval_wordPoly_eq_zero_iff hw (c + j)

end

end Sys2Proof.Machine


/-! ## ENC -/

namespace Sys2Proof.Machine

/-! ### One symbol of a product with a matrix -/

theorem vecMat_getD {q n k col : Nat} (hq : 0 < q) {w : Word} {M : Matrix} (hw : w.length = k)
    (hM : ∀ row ∈ M, row.length = n) (hcol : col < n) :
    (vecMat q n w M).getD col 0
      = (∑ j ∈ Finset.range k, w.getD j 0 * (M.getD j []).getD col 0) % q := by
  obtain ⟨hlen, hlt⟩ := vecMat_wordOver hq w hM
  have hsym : (vecMat q n w M).getD col 0 < q := by
    rw [List.getD_eq_getElem _ _ (hcol.trans_eq hlen.symm)]
    exact hlt _ (List.getElem_mem _)
  refine eq_of_natCast_eq hsym (Nat.mod_lt _ hq) ?_
  have h := congrFun (symbolVec_vecMat q hw hM) ⟨col, hcol⟩
  rw [ZMod.natCast_mod, Nat.cast_sum, Finset.sum_range]
  simpa [Matrix.vecMul, dotProduct, symbolMat_apply, symbolVec] using h

/-! ### The rows of the Reed–Muller generator matrix (45_reed_muller.md R207 to R209) -/

theorem length_subsets (l : List Nat) (g : Nat) : (subsets l g).length = l.length.choose g := by
  induction l generalizing g with
  | nil => cases g <;> rfl
  | cons x l ih =>
    cases g with
    | zero => simp [subsets]
    | succ g => simp [subsets, ih, Nat.choose_succ_succ]

theorem length_rmDegreeSets (m g : Nat) : (rmDegreeSets m g).length = m.choose g := by
  rw [rmDegreeSets, length_subsets, List.length_range]

/-- The generator matrix has `bound(r + 1)` rows (45_reed_muller.md R208). -/
theorem length_rmRowSets (r m : Nat) : (rmRowSets r m).length = rmBound m (r + 1) := by
  rw [rmRowSets, List.length_flatMap, rmBound]
  simp only [length_rmDegreeSets]

/-- Every symbol of a Reed–Muller codeword is the sum of the message bits times the rows. -/
theorem encodeWord_rm_getD {c : Code} {r m col : Nat} {w : Word} (hc : c.ok = true)
    (hkind : c.kind = .rm r m) (hw : w.length = c.k) (hcol : col < 2 ^ m) :
    (encodeWord c w).getD col 0
      = (∑ j ∈ Finset.range c.k, w.getD j 0
          * (rmRow m ((rmRowSets r m).getD j [])).getD col 0) % 2 := by
  obtain ⟨-, -, -, -, hk, -⟩ := Code.ok_rm hc hkind
  simp only [encodeWord, hkind, rmEncode, linEncode]
  rw [vecMat_getD (by omega) hw (rmGen_row_length r m) hcol]
  congr 1
  refine Finset.sum_congr rfl fun j hj => ?_
  have hj' : j < (rmRowSets r m).length := by
    rw [length_rmRowSets, ← hk]
    exact Finset.mem_range.1 hj
  have hrow : (rmGen r m).getD j [] = rmRow m ((rmRowSets r m).getD j []) := by
    rw [rmGen, List.getD_eq_getElem _ _ (by simpa using hj'), List.getElem_map,
      List.getD_eq_getElem _ _ hj']
  rw [hrow]

/-! ### BCH codewords (43_bch.md R158, R161) -/

section
variable {c : Code} {m off : Nat} {f a : List Symbol} (hc : c.ok = true)
  (hkind : c.kind = .bch m off f a)
include hc hkind

/-- The codewords are the words with all syndromes zero (43_bch.md R164). -/
theorem bch_syndromes_zero_iff {x : Word} (hx : WordOver c.q c.n x) :
    (∀ j, j + 1 < c.d → (bchField c.q c.n f a).polyEval ((bchField c.q c.n f a).wordPoly x)
        ((bchField c.q c.n f a).apow ((off + j : Nat) : Int)) = (bchField c.q c.n f a).zero)
      ↔ x = encodeWord c (x.take c.k) := by
  refine ((bchField_primitive hc hkind).syndromes_zero_iff_dvd hx.2 off c.d).trans
    ⟨eq_encodeWord_of_dvd hc hkind hx, fun h => ?_⟩
  rw [h]
  exact dvd_codePoly_encodeWord hc hkind _

theorem polyDeg_bchGenPoly :
    polyDeg 0 (bchGenPoly (bchField c.q c.n f a) off c.d).reverse = some (c.n - c.k) := by
  obtain ⟨g, hg, hn⟩ := bchGenPoly_eq_one_cons hc hkind
  rw [hg, polyDeg_of_getLast? (e := 1) (by simp) one_ne_zero]
  simp
  omega

end

/-- Settles O35: the end of ENC, and the codeword by family. -/
theorem encWritesTheCodeword : Obligations.EncWritesTheCodeword := by
  intro s wd ws cs c hslot hc hw
  have hcode := encodeWord_wordOver hc hw
  refine ⟨exec_of_body_ok ((encodeCommand_ok_iff wd ws cs s _).2 ⟨c, hslot, hw, rfl⟩), hcode,
    fun m off f a hkind => ?_, fun r m col hkind => encodeWord_rm_getD hc hkind hw.1⟩
  have htake := take_encodeWord_bch hkind hw.1
  refine ⟨htake, (bch_syndromes_zero_iff hc hkind hcode).2 (by rw [htake]),
    polyDeg_bchGenPoly hc hkind, bchGenPoly_head? _ _ _,
    (bchField_primitive hc hkind).rootProduct_all_inBase off c.d⟩

end Sys2Proof.Machine


/-! ## Every decoder answers a codeword and its message (41_linear_code.md R125) -/

namespace Sys2Proof.Machine

/-- The pair that a decoder of the code can answer: a codeword, and the message it encodes. -/
structure IsDecoded (c : Code) (x msg : Word) : Prop where
  codeword : WordOver c.q c.n x
  message : WordOver c.q c.k msg
  eq_encode : x = encodeWord c msg

theorem withMessage_ok_iff (k : Nat) (decoded : Except Trap Word) (x msg : Word) :
    withMessage k decoded = .ok (x, msg) ↔ decoded = .ok x ∧ msg = x.take k := by
  cases decoded with
  | error e => simp [withMessage]
  | ok y =>
    simp only [withMessage, Except.ok.injEq, Prod.mk.injEq]
    exact and_congr_right fun h => by rw [h, eq_comm]

theorem withMessage_error_iff (k : Nat) (decoded : Except Trap Word) (e : Trap) :
    withMessage k decoded = .error e ↔ decoded = .error e := by
  cases decoded <;> simp [withMessage]

/-- A codeword of a systematic code and its first k symbols. -/
theorem isDecoded_take {c : Code} {x : Word} (hc : c.ok = true) (hx : WordOver c.q c.n x)
    (henc : x = encodeWord c (x.take c.k)) : IsDecoded c x (x.take c.k) := by
  obtain ⟨-, hkn, -⟩ := Code.ok_bounds hc
  exact ⟨hx, wordOver_take hx hkn, henc⟩

/-! ### Hamming (42_hamming.md R146) -/

/-- What the scan finds: a column of which S is the multiple by b. -/
theorem hamScan_some {q : Nat} {S : Word} {cols : List Word} {start i b : Nat}
    (h : hamScan q S start cols = some (i, b)) :
    ∃ j, i = start + j ∧ ∃ hj : j < cols.length, wScale q b cols[j] = S := by
  induction cols generalizing start with
  | nil => simp [hamScan] at h
  | cons col cols ih =>
    unfold hamScan at h
    split at h
    · rename_i b' hfind
      obtain ⟨rfl, rfl⟩ : start = i ∧ b' = b := by simpa using h
      exact ⟨0, rfl, by simp, by simpa using List.find?_some hfind⟩
    · obtain ⟨j, rfl, hj, hcol⟩ := ih h
      exact ⟨j + 1, by omega, by simpa using hj, by simpa using hcol⟩

section
variable {c : Code} {r : Nat} (hc : c.ok = true) (hkind : c.kind = .ham r)
include hc hkind

theorem symbolVec_hamSyndrome {x : Word} (hx : x.length = c.n) :
    symbolVec c.q r (hamSyndrome c r x)
      = Matrix.vecMul (symbolVec c.q c.n x) (symbolMat c.q c.n r (hamColumns c.q r)) := by
  rw [hamSyndrome_eq_vecMat hc hkind hx,
    symbolVec_vecMat c.q hx fun row h => (mem_hamColumns_wordOver h).1]

omit hkind in
theorem hamSyndrome_wordOver (x : Word) : WordOver c.q r (hamSyndrome c r x) :=
  ⟨by simp [hamSyndrome, hamCheck], matVec_lt c.q _ x (Code.ok_q_pos hc)⟩

/-- Subtracting b from the symbol at a column of which the syndrome is the multiple by b leaves
syndrome zero. -/
theorem hamSyndrome_corrected {w : Word} {i b : Nat} (hw : WordOver c.q c.n w)
    (hi : i < (hamColumns c.q r).length)
    (hcol : wScale c.q b (hamColumns c.q r)[i] = hamSyndrome c r w) :
    hamSyndrome c r (wSub c.q w (wScale c.q b (unit c.n i))) = zeros r := by
  have hq := Code.ok_q_pos hc
  have : NeZero c.q := ⟨hq.ne'⟩
  have hn := ham_columns_length hc hkind
  have hlen : w.length = (wScale c.q b (unit c.n i)).length := by simp [hw.1]
  have hrow : symbolMat c.q c.n r (hamColumns c.q r) ⟨i, hn ▸ hi⟩
      = symbolVec c.q r (hamColumns c.q r)[i] :=
    congrArg (symbolVec c.q r) (List.getD_eq_getElem _ _ hi)
  have hunit : symbolVec c.q c.n (unit c.n i) = Pi.single ⟨i, hn ▸ hi⟩ 1 :=
    symbolVec_unit c.q c.n ⟨i, hn ▸ hi⟩
  refine wordOver_ext (hamSyndrome_wordOver hc _) (zeros_wordOver hq r) ?_
  rw [symbolVec_hamSyndrome hc hkind (by simp [hw.1]), symbolVec_wSub c.q c.n hlen, symbolVec_wScale,
    hunit, Matrix.sub_vecMul, Matrix.smul_vecMul, Matrix.single_one_vecMul, Matrix.row, hrow,
    ← symbolVec_hamSyndrome hc hkind hw.1, ← symbolVec_wScale, hcol, sub_self, symbolVec_zeros]

theorem hamDecode_isDecoded {w x : Word} (hw : WordOver c.q c.n w) (h : hamDecode c r w = .ok x) :
    IsDecoded c x (x.take c.k) := by
  have hzero : WordOver c.q c.n x ∧ hamSyndrome c r x = zeros r := by
    unfold hamDecode at h
    split at h
    · rename_i hS
      obtain rfl : w = x := by simpa using h
      exact ⟨hw, hS⟩
    · split at h
      · rename_i i b hscan
        obtain rfl : wSub c.q w (wScale c.q b (unit c.n i)) = x := by simpa using h
        obtain ⟨j, hij, hj, hcol⟩ := hamScan_some hscan
        obtain rfl : i = j := by omega
        exact ⟨wordOver_wSub (Code.ok_q_pos hc) hw.1 (by simp),
          hamSyndrome_corrected hc hkind hw hj hcol⟩
      · simp at h
  exact isDecoded_take hc hzero.1 ((hamSyndrome_eq_zeros_iff hc hkind hzero.1).1 hzero.2)

end

/-! ### BCH (43_bch.md R172) -/

/-- The correction keeps the length, and writes symbols. -/
theorem correctRoots_wordOver {F : ExtField} {off n : Nat} {locator omega : Poly} (hq : 0 < F.q)
    {roots : List Nat} {w x : Word} (hw : WordOver F.q n w)
    (h : correctRoots F off locator omega roots w = .ok x) : WordOver F.q n x := by
  induction roots generalizing w with
  | nil =>
    obtain rfl : w = x := by simpa [correctRoots] using h
    exact hw
  | cons i roots ih =>
    unfold correctRoots at h
    split at h
    · simp at h
    · refine ih ⟨by simp [hw.1], fun y hy => ?_⟩ h
      obtain ⟨j, hj, rfl⟩ := List.getElem_of_mem hy
      rw [List.getElem_modify]
      split
      · exact gfSub_lt F.q _ _ hq
      · exact hw.2 _ (List.getElem_mem _)

theorem allZero_bchSyndromes_iff (F : ExtField) (off d : Nat) (x : Word) :
    allZero F (bchSyndromes F off d x) = true
      ↔ ∀ j, j + 1 < d → F.polyEval (F.wordPoly x) (F.apow ((off + j : Nat) : Int)) = F.zero := by
  simp [allZero, bchSyndromes, Nat.lt_sub_iff_add_lt]

/-- What the decoder answers has been tested: its syndromes are zero. -/
theorem bchDecode_ok {F : ExtField} {off d n : Nat} {w x : Word} (hq : 0 < F.q)
    (hw : WordOver F.q n w) (h : bchDecode F off d w = .ok x) :
    WordOver F.q n x ∧ allZero F (bchSyndromes F off d x) = true := by
  unfold bchDecode at h
  dsimp only at h
  split at h
  · rename_i hS
    obtain rfl : w = x := by simpa using h
    exact ⟨hw, hS⟩
  · split at h
    · simp at h
    · split at h
      · simp at h
      · split at h
        · simp at h
        · rename_i out hcorrect
          split at h
          · rename_i hS
            obtain rfl : out = x := by simpa using h
            exact ⟨correctRoots_wordOver hq hw hcorrect, hS⟩
          · simp at h

theorem bchDecode_isDecoded {c : Code} {m off : Nat} {f a : List Symbol} (hc : c.ok = true)
    (hkind : c.kind = .bch m off f a) {w x : Word} (hw : WordOver c.q c.n w)
    (h : bchDecode (bchField c.q c.n f a) off c.d w = .ok x) : IsDecoded c x (x.take c.k) := by
  obtain ⟨hx, hS⟩ := bchDecode_ok (F := bchField c.q c.n f a) (Code.ok_q_pos hc) hw h
  exact isDecoded_take hc hx
    ((bch_syndromes_zero_iff hc hkind hx).1 ((allZero_bchSyndromes_iff _ _ _ _).1 hS))

/-! ### Reed–Muller (45_reed_muller.md R212) -/

theorem rmDecide_lt {m : Nat} {y : Word} {T : List Nat} {b : Symbol} (h : rmDecide m y T = .ok b) :
    b < 2 := by
  unfold rmDecide at h
  dsimp only at h
  split_ifs at h
  · obtain rfl : 1 = b := by simpa using h
    exact Nat.one_lt_two
  · obtain rfl : 0 = b := by simpa using h
    exact Nat.two_pos

theorem rmDecideAll_wordOver {m : Nat} {y : Word} {Ts : List (List Nat)} {bits : Word}
    (h : rmDecideAll m y Ts = .ok bits) : WordOver 2 Ts.length bits := by
  induction Ts generalizing bits with
  | nil =>
    obtain rfl : [] = bits := by simpa [rmDecideAll] using h
    exact ⟨rfl, by simp⟩
  | cons T Ts ih =>
    unfold rmDecideAll at h
    split at h
    · simp at h
    · rename_i b hb
      split at h
      · simp at h
      · rename_i bs hbs
        obtain rfl : b :: bs = bits := by simpa using h
        obtain ⟨hlen, hlt⟩ := ih hbs
        exact ⟨by simp [hlen], List.forall_mem_cons.2 ⟨rmDecide_lt hb, hlt⟩⟩

theorem rmBound_succ (m g : Nat) : rmBound m (g + 1) = rmBound m g + m.choose g := by
  rw [rmBound_eq_sum, rmBound_eq_sum, Finset.sum_range_succ]

/-- The votes below degree g decide `bound(g)` bits. -/
theorem rmVote_wordOver {m g : Nat} {y msg : Word} (h : rmVote m g y = .ok msg) :
    WordOver 2 (rmBound m g) msg := by
  induction g generalizing y msg with
  | zero =>
    obtain rfl : [] = msg := by simpa [rmVote] using h
    exact ⟨rfl, by simp⟩
  | succ g ih =>
    unfold rmVote at h
    split at h
    · simp at h
    · rename_i bits hbits
      split at h
      · simp at h
      · rename_i lower hlower
        obtain rfl : lower ++ bits = msg := by simpa using h
        obtain ⟨hlen, hlt⟩ := ih hlower
        obtain ⟨hlen', hlt'⟩ := rmDecideAll_wordOver hbits
        exact ⟨by rw [List.length_append, hlen, hlen', length_rmDegreeSets, rmBound_succ],
          List.forall_mem_append.2 ⟨hlt, hlt'⟩⟩

theorem rmDecode_ok {r m : Nat} {w x msg : Word} (h : rmDecode r m w = .ok (x, msg)) :
    WordOver 2 (rmBound m (r + 1)) msg ∧ x = rmEncode r m msg := by
  unfold rmDecode at h
  split at h
  · simp at h
  · rename_i msg' hvote
    obtain ⟨rfl, rfl⟩ : rmEncode r m msg' = x ∧ msg' = msg := by simpa using h
    exact ⟨rmVote_wordOver hvote, rfl⟩

theorem rmDecode_isDecoded {c : Code} {r m : Nat} (hc : c.ok = true) (hkind : c.kind = .rm r m)
    {w x msg : Word} (h : rmDecode r m w = .ok (x, msg)) : IsDecoded c x msg := by
  obtain ⟨hq, -, -, -, hk, -⟩ := Code.ok_rm hc hkind
  obtain ⟨hmsg, hx⟩ := rmDecode_ok h
  rw [← hk, ← hq] at hmsg
  have henc : encodeWord c msg = rmEncode r m msg := by simp only [encodeWord, hkind]
  rw [← henc] at hx
  exact ⟨hx ▸ encodeWord_wordOver hc hmsg, hmsg, hx⟩

end Sys2Proof.Machine


/-! ## The Golay decoder answers codewords (44_golay.md R191, R192)

A24 is symmetric and its own inverse over GF(2), so that the syndrome w * G^T of a word is zero exactly
for the codewords, and the error pattern of each branch has the syndrome it was found from. -/

namespace Sys2Proof.Machine

/-! ### A24 over GF(2) -/

/-- A24 over `ZMod 2`. -/
def a24Mat := symbolMat 2 12 12 Config.a24

theorem a24_row_length : ∀ row ∈ Config.a24, row.length = 12 := by decide

theorem a24_lt_two : ∀ row ∈ Config.a24, ∀ x ∈ row, x < 2 := by decide

theorem a24Mat_transpose : a24Mat.transpose = a24Mat := by
  rw [a24Mat, ← symbolMat_transpose, show transpose 12 Config.a24 = Config.a24 by decide]

theorem a24Mat_mul_self : a24Mat * a24Mat = 1 := by decide

theorem a24Mat_mulVec_mulVec (v : Fin 12 → ZMod 2) :
    a24Mat.mulVec (a24Mat.mulVec v) = v := by
  rw [Matrix.mulVec_mulVec, a24Mat_mul_self, Matrix.one_mulVec]

theorem a24Mat_vecMul (v : Fin 12 → ZMod 2) : Matrix.vecMul v a24Mat = a24Mat.mulVec v := by
  rw [← Matrix.vecMul_transpose, a24Mat_transpose]

/-- Over GF(2) every vector is its own negative. -/
theorem vec_add_self {n : Nat} (v : Fin n → ZMod 2) : v + v = 0 :=
  funext fun i => CharTwo.add_self_eq_zero (v i)

/-! ### The syndrome (44_golay.md R191) -/

theorem golGen_row_length : ∀ row ∈ golGen Config.params 24 12, row.length = 24 :=
  hconcat_row_length _ _ 12 12 (identity_row_length 12) a24_row_length

/-- A product with [A | B] is the sum of the products with A and B. -/
theorem matVec_hconcat (q : Nat) {A B : Matrix} {u v : Word} (hlen : A.length = B.length)
    (hA : ∀ row ∈ A, row.length = u.length) :
    matVec q (hconcat A B) (u ++ v) = wAdd q (matVec q A u) (matVec q B v) := by
  refine List.ext_getElem (by simp [hconcat]) fun i hi hi' => ?_
  have hiA : i < A.length := by
    rw [matVec_length, hconcat, List.length_zipWith] at hi
    omega
  have hrow := hA _ (List.getElem_mem hiA)
  simp [matVec, hconcat, dot, wAdd, gfAdd, List.zipWith_append hrow]

theorem golSyndrome_wordOver (w : Word) : WordOver 2 12 (golSyndrome Config.params w) :=
  ⟨by simp [golSyndrome, golGen, hconcat, golHalf]; rfl, matVec_lt 2 _ w (by decide)⟩

/-- The syndrome of a word is its first half plus A24 times its second. -/
theorem symbolVec_golSyndrome {u v : Word} (hu : WordOver 2 12 u) :
    symbolVec 2 12 (golSyndrome Config.params (u ++ v))
      = symbolVec 2 12 u + a24Mat.mulVec (symbolVec 2 12 v) := by
  have hI : ∀ row ∈ identity 12, row.length = u.length := by
    rw [hu.1]
    exact identity_row_length 12
  have hsplit : golSyndrome Config.params (u ++ v)
      = wAdd 2 (matVec 2 (identity 12) u) (matVec 2 Config.a24 v) :=
    matVec_hconcat 2 (by decide) hI
  rw [hsplit, symbolVec_wAdd 2 12 (by simp; rfl), symbolVec_matVec 2 12 u (identity_row_length 12),
    symbolVec_matVec 2 12 v a24_row_length, symbolMat_identity, Matrix.one_mulVec, a24Mat]

theorem symbolVec_golSyndrome_wAdd {w e : Word} (h : w.length = e.length) :
    symbolVec 2 12 (golSyndrome Config.params (wAdd 2 w e))
      = symbolVec 2 12 (golSyndrome Config.params w)
        + symbolVec 2 12 (golSyndrome Config.params e) := by
  simp only [golSyndrome, symbolVec_matVec 2 12 _ golGen_row_length, symbolVec_wAdd 2 24 h,
    Matrix.mulVec_add]

/-! ### The four branches (44_golay.md R191) -/

theorem golRowScan_lt {S : Word} {j : Nat} (h : golRowScan Config.params S = some j) : j < 12 :=
  List.mem_range.1 (List.mem_of_find?_eq_some h)

theorem a24Row_wordOver {j : Nat} (hj : j < 12) : WordOver 2 12 (a24Row Config.params j) := by
  have hmem : a24Row Config.params j ∈ Config.a24 := by
    rw [a24Row, Config.params_a24, List.getD_eq_getElem _ _ hj]
    exact List.getElem_mem _
  exact ⟨a24_row_length _ hmem, a24_lt_two _ hmem⟩

/-- Row j of A24 is A24 times the unit vector j. -/
theorem symbolVec_a24Row {j : Nat} (hj : j < 12) :
    symbolVec 2 12 (a24Row Config.params j) = a24Mat.mulVec (symbolVec 2 12 (unit 12 j)) := by
  rw [symbolVec_unit 2 12 ⟨j, hj⟩, ← a24Mat_vecMul, Matrix.single_one_vecMul]
  rfl

theorem unit_wordOver (j : Nat) : WordOver 2 12 (unit 12 j) := by
  refine ⟨unit_length 12 j, fun x hx => ?_⟩
  obtain ⟨i, -, rfl⟩ := List.mem_map.1 hx
  split <;> decide

/-- The error pattern found for S has the syndrome S. -/
theorem golErrorPattern_ok {S e : Word} (hS : WordOver 2 12 S)
    (h : golErrorPattern Config.params S = .ok e) :
    WordOver 2 24 e ∧ symbolVec 2 12 (golSyndrome Config.params e) = symbolVec 2 12 S := by
  have hz := zeros_wordOver (q := 2) (by decide) 12
  have hadd {u v : Word} (hu : WordOver 2 12 u) (hv : WordOver 2 12 v) :
      symbolVec 2 12 (wAdd 2 u v) = symbolVec 2 12 u + symbolVec 2 12 v :=
    symbolVec_wAdd 2 12 (hu.1.trans hv.1.symm)
  unfold golErrorPattern at h
  split at h
  · obtain rfl : S ++ zeros 12 = e := by simpa using h
    refine ⟨wordOver_append hS hz, ?_⟩
    rw [symbolVec_golSyndrome hS, symbolVec_zeros, Matrix.mulVec_zero, add_zero]
  split at h
  · rename_i j hscan
    obtain rfl : wAdd 2 S (a24Row Config.params j) ++ unit 12 j = e := by simpa using h
    have hrow := a24Row_wordOver (golRowScan_lt hscan)
    have hleft := wordOver_wAdd (q := 2) (by decide) hS.1 hrow.1
    refine ⟨wordOver_append hleft (unit_wordOver j), ?_⟩
    rw [symbolVec_golSyndrome hleft, hadd hS hrow, ← symbolVec_a24Row (golRowScan_lt hscan),
      add_assoc, vec_add_self, add_zero]
  dsimp only at h
  have hSA : WordOver 2 12 (vecMat 2 12 S (transpose 12 Config.a24)) :=
    vecMat_wordOver (by decide) S (by decide)
  have hSAvec : a24Mat.mulVec (symbolVec 2 12 (vecMat 2 12 S (transpose 12 Config.a24)))
      = symbolVec 2 12 S := by
    rw [symbolVec_vecMat 2 hS.1 (by decide), symbolMat_transpose, ← a24Mat, a24Mat_transpose,
      a24Mat_vecMul, a24Mat_mulVec_mulVec]
  split at h
  · obtain rfl : zeros 12 ++ vecMat 2 12 S (transpose 12 Config.a24) = e := by simpa using h
    refine ⟨wordOver_append hz hSA, ?_⟩
    rw [symbolVec_golSyndrome hz, symbolVec_zeros, zero_add, hSAvec]
  split at h
  · rename_i j hscan
    obtain rfl : unit 12 j
        ++ wAdd 2 (vecMat 2 12 S (transpose 12 Config.a24)) (a24Row Config.params j) = e := by
      simpa using h
    have hrow := a24Row_wordOver (golRowScan_lt hscan)
    refine ⟨wordOver_append (unit_wordOver j) (wordOver_wAdd (by decide) hSA.1 hrow.1), ?_⟩
    rw [symbolVec_golSyndrome (unit_wordOver j), hadd hSA hrow, Matrix.mulVec_add, hSAvec,
      symbolVec_a24Row (golRowScan_lt hscan), a24Mat_mulVec_mulVec, add_left_comm, vec_add_self,
      add_zero]
  · simp at h

/-! ### The two decoders -/

/-- A word of syndrome zero is the codeword of its first half. -/
theorem eq_golEncode24_of_syndrome {u v : Word} (hu : WordOver 2 12 u) (hv : WordOver 2 12 v)
    (h : symbolVec 2 12 (golSyndrome Config.params (u ++ v)) = 0) :
    u ++ v = linEncode 2 24 (golGen Config.params 24 12) u := by
  have henc : linEncode 2 24 (golGen Config.params 24 12) u = u ++ vecMat 2 12 u Config.a24 :=
    linEncode_systematic hu a24_row_length rfl rfl
  have hparity := vecMat_wordOver (q := 2) (by decide) u a24_row_length
  rw [symbolVec_golSyndrome hu] at h
  have hvec : a24Mat.mulVec (symbolVec 2 12 u) = symbolVec 2 12 v := by
    have hsum := congrArg a24Mat.mulVec h
    rw [Matrix.mulVec_add, a24Mat_mulVec_mulVec, Matrix.mulVec_zero] at hsum
    have hself := vec_add_self (symbolVec 2 12 v)
    exact add_right_cancel (hsum.trans hself.symm)
  rw [henc, List.append_right_inj]
  refine wordOver_ext hv hparity ?_
  rw [symbolVec_vecMat 2 hu.1 a24_row_length, ← a24Mat, a24Mat_vecMul, hvec]

theorem golDecode24_ok {w x : Word} (hw : WordOver 2 24 w)
    (h : golDecode24 Config.params w = .ok x) :
    WordOver 2 24 x ∧ x = linEncode 2 24 (golGen Config.params 24 12) (x.take 12) := by
  unfold golDecode24 at h
  split at h
  · simp at h
  · rename_i e hpattern
    obtain rfl : wAdd 2 w e = x := by simpa using h
    obtain ⟨he, hsyn⟩ := golErrorPattern_ok (golSyndrome_wordOver w) hpattern
    have hx := wordOver_wAdd (q := 2) (by decide) hw.1 he.1
    have hzero : symbolVec 2 12 (golSyndrome Config.params (wAdd 2 w e)) = 0 := by
      rw [symbolVec_golSyndrome_wAdd (hw.1.trans he.1.symm), hsyn, vec_add_self]
    refine ⟨hx, ?_⟩
    conv_lhs => rw [← List.take_append_drop 12 (wAdd 2 w e)]
    refine eq_golEncode24_of_syndrome (wordOver_take hx (by decide)) (wordOver_drop hx rfl) ?_
    rwa [List.take_append_drop]

/-- Dropping columns of a matrix drops symbols of a product. -/
theorem vecMat_map_take {n b : Nat} (q : Nat) (hb : b ≤ n) (w : Word) (M : Matrix) :
    vecMat q b w (M.map (List.take b)) = (vecMat q n w M).take b := by
  induction w generalizing M with
  | nil => simp [vecMat, zeros, hb]
  | cons x w ih =>
    cases M with
    | nil => simp [vecMat, zeros, hb]
    | cons row M =>
      rw [List.map_cons, vecMat_cons, vecMat_cons, ih]
      simp [wAdd, wScale, List.take_zipWith, List.map_take]

/-- The order-23 codeword is the order-24 codeword without its last symbol (44_golay.md R189). -/
theorem golEncode23_eq_take {u : Word} (hu : WordOver 2 12 u) :
    linEncode 2 23 (golGen Config.params 23 12) u
      = (linEncode 2 24 (golGen Config.params 24 12) u).take 23 := by
  have h24 : linEncode 2 24 (golGen Config.params 24 12) u = u ++ vecMat 2 12 u Config.a24 :=
    linEncode_systematic hu a24_row_length rfl rfl
  have h23 : linEncode 2 23 (golGen Config.params 23 12) u
      = u ++ vecMat 2 11 u (Config.a24.map (List.take 11)) :=
    linEncode_systematic hu (by decide) rfl rfl
  rw [h24, h23, vecMat_map_take (n := 12) 2 (by decide), List.take_append, hu.1,
    List.take_of_length_le (l := u) (by rw [hu.1]; decide)]

theorem golDecode23_ok {w x : Word} (hw : WordOver 2 23 w)
    (h : golDecode23 Config.params w = .ok x) :
    WordOver 2 23 x ∧ x = linEncode 2 23 (golGen Config.params 23 12) (x.take 12) := by
  unfold golDecode23 at h
  split at h
  · simp at h
  · rename_i y hdecode
    obtain rfl : y.take 23 = x := by simpa using h
    have hbit : WordOver 2 1 [golParityBit w] :=
      ⟨rfl, List.forall_mem_singleton.2 (Nat.mod_lt _ (by decide))⟩
    obtain ⟨hy, hyenc⟩ := golDecode24_ok (wordOver_append hw hbit) hdecode
    refine ⟨wordOver_take hy (by decide), ?_⟩
    rw [List.take_take, Nat.min_eq_left (by decide), golEncode23_eq_take (wordOver_take hy (by decide)),
      ← hyenc]

theorem golDecode_isDecoded {c : Code} (hc : c.ok = true) (hkind : c.kind = .gol) {w x : Word}
    (hw : WordOver c.q c.n w) (h : golDecode Config.params c w = .ok x) :
    IsDecoded c x (x.take c.k) := by
  have hrow := (golParams_eq_some_iff _ _ _ _).1 (Code.ok_gol hc hkind)
  simp only [List.mem_cons, Prod.mk.injEq, List.not_mem_nil, or_false] at hrow
  have henc (u : Word) : encodeWord c u = linEncode c.q c.n (golGen Config.params c.n c.k) u := by
    simp only [encodeWord, hkind, golEncode]
  unfold golDecode at h
  split_ifs at h with h24 h23
  · obtain ⟨hq, hk⟩ : c.q = 2 ∧ c.k = 12 := by omega
    rw [hq, h24] at hw
    obtain ⟨hx, hxenc⟩ := golDecode24_ok hw h
    refine isDecoded_take hc (by rwa [hq, h24]) ?_
    rwa [henc, hq, h24, hk]
  · obtain ⟨hq, hk⟩ : c.q = 2 ∧ c.k = 12 := by omega
    rw [hq, h23] at hw
    obtain ⟨hx, hxenc⟩ := golDecode23_ok hw h
    refine isDecoded_take hc (by rwa [hq, h23]) ?_
    rwa [henc, hq, h23, hk]

end Sys2Proof.Machine


/-! ## DEC and DECM -/

namespace Sys2Proof.Machine

/-- What a decoder answers for a code that its constructor admits (41_linear_code.md R125). -/
theorem decodeWord_isDecoded {c : Code} {w x msg : Word} (hc : c.ok = true)
    (hw : WordOver c.q c.n w) (h : decodeWord c w = .ok (x, msg)) : IsDecoded c x msg := by
  unfold decodeWord at h
  split at h
  case h_1 r hkind =>
    obtain ⟨hx, rfl⟩ := (withMessage_ok_iff _ _ _ _).1 h
    exact hamDecode_isDecoded hc hkind hw hx
  case h_2 m off f a hkind =>
    obtain ⟨hx, rfl⟩ := (withMessage_ok_iff _ _ _ _).1 h
    exact bchDecode_isDecoded hc hkind hw hx
  case h_3 hkind =>
    obtain ⟨hx, rfl⟩ := (withMessage_ok_iff _ _ _ _).1 h
    exact golDecode_isDecoded hc hkind hw hx
  case h_4 r m hkind => exact rmDecode_isDecoded hc hkind h

/-- The message of a systematic code is the first k symbols, whatever the code. -/
theorem decodeWord_ok_systematic {c : Code} {w x msg : Word} (hkind : ∀ r m, c.kind ≠ .rm r m)
    (h : decodeWord c w = .ok (x, msg)) : msg = x.take c.k := by
  unfold decodeWord at h
  split at h
  case h_4 r m hrm => exact absurd hrm (hkind r m)
  all_goals exact ((withMessage_ok_iff _ _ _ _).1 h).2

theorem decodeWord_ok_rm {c : Code} {r m : Nat} {w x msg : Word} (hkind : c.kind = .rm r m)
    (h : decodeWord c w = .ok (x, msg)) : x = encodeWord c msg := by
  simp only [decodeWord, hkind] at h
  simpa only [encodeWord, hkind] using (rmDecode_ok h).2

/-! ### What the decoders raise (60_exceptions.md R254, R255) -/

theorem hamDecode_error {c : Code} {r : Nat} {w : Word} {e : Trap}
    (h : hamDecode c r w = .error e) : e = .dfHamNomatch := by
  unfold hamDecode at h
  split at h
  · simp at h
  · split at h
    · simp at h
    · simpa [eq_comm] using h

theorem correctRoots_error {F : ExtField} {off : Nat} {locator omega : Poly} {roots : List Nat}
    {w : Word} {e : Trap} (h : correctRoots F off locator omega roots w = .error e) :
    e = .dfBchMagnitude := by
  induction roots generalizing w with
  | nil => simp [correctRoots] at h
  | cons i roots ih =>
    unfold correctRoots at h
    split at h
    · rename_i t hvalue
      obtain rfl : t = e := by simpa using h
      unfold errorValue at hvalue
      split_ifs at hvalue
      simpa [eq_comm] using hvalue
    · exact ih h

theorem bchDecode_error {F : ExtField} {off d : Nat} {w : Word} {e : Trap}
    (h : bchDecode F off d w = .error e) :
    e ∈ [Trap.dfBchSingular, .dfBchRoots, .dfBchMagnitude, .dfBchResidual] := by
  unfold bchDecode at h
  dsimp only at h
  split at h
  · simp at h
  · split at h
    · obtain rfl : Trap.dfBchSingular = e := by simpa using h
      simp
    · split at h
      · obtain rfl : Trap.dfBchRoots = e := by simpa using h
        simp
      · split at h
        · rename_i t hcorrect
          obtain rfl : t = e := by simpa using h
          simp [correctRoots_error hcorrect]
        · split at h
          · simp at h
          · obtain rfl : Trap.dfBchResidual = e := by simpa using h
            simp

theorem golErrorPattern_error {P : Config.Parameters} {S : Word} {e : Trap}
    (h : golErrorPattern P S = .error e) : e = .dfGolNomatch := by
  unfold golErrorPattern at h
  split at h
  · simp at h
  split at h
  · simp at h
  dsimp only at h
  split at h
  · simp at h
  split at h
  · simp at h
  · simpa [eq_comm] using h

theorem golDecode24_error {P : Config.Parameters} {w : Word} {e : Trap}
    (h : golDecode24 P w = .error e) : e = .dfGolNomatch := by
  unfold golDecode24 at h
  split at h
  · rename_i t hpattern
    obtain rfl : t = e := by simpa using h
    exact golErrorPattern_error hpattern
  · simp at h

theorem golDecode_error {P : Config.Parameters} {c : Code} {w : Word} {e : Trap}
    (h : golDecode P c w = .error e) :
    e = .dfGolNomatch ∨ c.n ≠ 24 ∧ c.n ≠ 23 ∧ e = .niGolayTernary := by
  unfold golDecode at h
  split_ifs at h with h24 h23
  · exact .inl (golDecode24_error h)
  · unfold golDecode23 at h
    split at h
    · rename_i t hdecode
      obtain rfl : t = e := by simpa using h
      exact .inl (golDecode24_error hdecode)
    · simp at h
  · exact .inr ⟨h24, h23, by simpa [eq_comm] using h⟩

theorem rmDecideAll_error {m : Nat} {y : Word} {Ts : List (List Nat)} {e : Trap}
    (h : rmDecideAll m y Ts = .error e) : e = .dfRmTie := by
  induction Ts with
  | nil => simp [rmDecideAll] at h
  | cons T Ts ih =>
    unfold rmDecideAll at h
    split at h
    · rename_i t hdecide
      obtain rfl : t = e := by simpa using h
      unfold rmDecide at hdecide
      dsimp only at hdecide
      split_ifs at hdecide
      simpa [eq_comm] using hdecide
    · split at h
      · rename_i t hrest
        obtain rfl : t = e := by simpa using h
        exact ih hrest
      · simp at h

theorem rmVote_error {m g : Nat} {y : Word} {e : Trap} (h : rmVote m g y = .error e) :
    e = .dfRmTie := by
  induction g generalizing y with
  | zero => simp [rmVote] at h
  | succ g ih =>
    unfold rmVote at h
    split at h
    · rename_i t hdecide
      obtain rfl : t = e := by simpa using h
      exact rmDecideAll_error hdecide
    · split at h
      · rename_i t hrest
        obtain rfl : t = e := by simpa using h
        exact ih hrest
      · simp at h

theorem rmDecode_error {r m : Nat} {w : Word} {e : Trap} (h : rmDecode r m w = .error e) :
    e = .dfRmTie := by
  unfold rmDecode at h
  split at h
  · rename_i t hvote
    obtain rfl : t = e := by simpa using h
    exact rmVote_error hvote
  · simp at h

/-- A decoder raises a decode failure of its family, or on a Golay code of another order than 24 and 23
that it is not implemented (60_exceptions.md R257). -/
theorem decodeWord_error {c : Code} {w : Word} {e : Trap} (h : decodeWord c w = .error e) :
    familyRaises c.kind e = true
      ∨ c.kind = .gol ∧ c.n ≠ 24 ∧ c.n ≠ 23 ∧ e = .niGolayTernary := by
  unfold decodeWord at h
  split at h
  case h_1 r hkind =>
    obtain rfl := hamDecode_error ((withMessage_error_iff _ _ _).1 h)
    exact .inl (by rw [hkind]; rfl)
  case h_2 m off f a hkind =>
    have hmem := bchDecode_error ((withMessage_error_iff _ _ _).1 h)
    exact .inl (by rw [hkind]; simpa [familyRaises] using hmem)
  case h_3 hkind =>
    obtain rfl | hternary := golDecode_error ((withMessage_error_iff _ _ _).1 h)
    · exact .inl (by rw [hkind]; rfl)
    · exact .inr ⟨hkind, hternary⟩
  case h_4 r m hkind =>
    obtain rfl := rmDecode_error h
    exact .inl (by rw [hkind]; rfl)

theorem familyRaises_code {kind : CodeKind} {e : Trap} (h : familyRaises kind e = true) :
    e.code = 3 := by
  cases kind with
  | ham r => obtain rfl := beq_iff_eq.1 h; rfl
  | bch m off f a =>
    simp only [familyRaises, List.contains_iff_mem, List.mem_cons, List.not_mem_nil, or_false] at h
    rcases h with rfl | rfl | rfl | rfl <;> rfl
  | gol => obtain rfl := beq_iff_eq.1 h; rfl
  | rm r m => obtain rfl := beq_iff_eq.1 h; rfl

/-- DEC and DECM raise no IllegalCommand. -/
theorem decodeOperand_error_code {s : State} {ws : WordIdx} {cs : SlotIdx} {e : Trap}
    (h : decodeOperand ws cs s = .error e) : e.code ≤ 4 := by
  unfold decodeOperand at h
  split at h
  · rename_i t hslot
    obtain rfl : t = e := by simpa using h
    obtain ⟨-, rfl⟩ := (slotOperand_error_iff s cs t).1 hslot
    decide
  · split at h
    · rename_i t hcheck
      obtain rfl : t = e := by simpa using h
      obtain ⟨-, rfl⟩ | ⟨-, -, rfl⟩ := (checkOperand_error_iff _ _ _ t).1 hcheck <;> decide
    · obtain hfamily | ⟨-, -, -, rfl⟩ := decodeWord_error h
      · rw [familyRaises_code hfamily]
        decide
      · decide

/-- Both deliver a half of what they share (41_linear_code.md R127, R128). -/
theorem exec_dec_decm_of_ok {s : State} (wd : WordIdx) {ws : WordIdx} {cs : SlotIdx} {x msg : Word}
    (h : decodeOperand ws cs s = .ok (x, msg)) :
    exec (.dec wd ws cs) s = .next (s.setWord wd x).reportsSuccess
      ∧ exec (.decm wd ws cs) s = .next (s.setWord wd msg).reportsSuccess :=
  ⟨exec_of_body_ok (by simp only [commandBody, h]; rfl),
    exec_of_body_ok (by simp only [commandBody, h]; rfl)⟩

/-- Settles O37: the two commands share `decodeOperand`, and the decoders answer codewords with their
messages. -/
theorem decAndDecmShareOneDecode : Obligations.DecAndDecmShareOneDecode := by
  intro s wd ws cs
  cases hop : decodeOperand ws cs s with
  | error e =>
    exact .inl ⟨e.code, e.sub, e.code_bounds.1, decodeOperand_error_code hop,
      exec_dec_decm_of_error wd ws hop⟩
  | ok res =>
    obtain ⟨x, msg⟩ := res
    obtain ⟨c, hslot, hlen, hsym, hdecode⟩ := (decodeOperand_ok_iff ws cs s _).1 hop
    obtain ⟨hdec, hdecm⟩ := exec_dec_decm_of_ok wd hop
    refine .inr ⟨c, x, msg, hslot, hdec, hdecm, fun hkind => decodeWord_ok_systematic hkind hdecode,
      fun r m hkind => decodeWord_ok_rm hkind hdecode, fun hc => ?_⟩
    obtain ⟨hx, hmsg, henc⟩ := decodeWord_isDecoded hc ⟨hlen, hsym⟩ hdecode
    exact ⟨hx, hmsg, henc⟩

end Sys2Proof.Machine

/-! ## The constructors of codes: completion and exceptions in order -/

namespace Sys2Proof.Machine

/-- A test of a command ends it exactly when its condition holds. -/
theorem raiseIf_error_iff {α : Type} (p : Prop) [Decidable p] (e t : Trap) (x : Except Trap α) :
    (if p then .error e else x) = .error t ↔ p ∧ t = e ∨ ¬ p ∧ x = .error t := by
  by_cases hp : p <;> simp [hp, eq_comm]

/-- The tests of HAM.NEW in their order (42_hamming.md R140). -/
theorem buildHamming_error_iff (cs : SlotIdx) (r q : Nat) (s : State) (t : Trap) :
    buildHamming cs r q s = .error t ↔
      s.slot cs ≠ none ∧ t = .ceSlotBuilt
        ∨ s.slot cs = none ∧ (¬ (q.Prime ∧ q ≤ 251) ∧ t = .ceQ
          ∨ (q.Prime ∧ q ≤ 251) ∧ (r < 2 ∧ t = .ceParam
            ∨ 2 ≤ r ∧ 256 < hamLength q r ∧ t = .ceSize)) := by
  simp only [buildHamming, raiseIf_error_iff, ← isPrime_iff, Option.isSome_iff_ne_none, not_not]
  simp [Nat.succ_le_iff]

/-- The tests of GOL.NEW in their order (44_golay.md R185, R186). -/
theorem buildGolay_error_iff (cs : SlotIdx) (n : Nat) (s : State) (t : Trap) :
    buildGolay cs n s = .error t ↔
      s.slot cs ≠ none ∧ t = .ceSlotBuilt
        ∨ s.slot cs = none ∧ n ∉ [11, 12, 23, 24] ∧ t = .ceParam := by
  have hparams : n ∉ [11, 12, 23, 24] ↔ golParams n = none := by
    unfold golParams
    split_ifs <;> simp_all
  simp only [buildGolay, raiseIf_error_iff, Option.isSome_iff_ne_none, not_not, hparams]
  cases golParams n <;> simp [eq_comm]

/-- The tests of RM.NEW in their order (45_reed_muller.md R205). -/
theorem buildReedMuller_error_iff (cs : SlotIdx) (r m : Nat) (s : State) (t : Trap) :
    buildReedMuller cs r m s = .error t ↔
      s.slot cs ≠ none ∧ t = .ceSlotBuilt
        ∨ s.slot cs = none ∧ (m < r ∧ t = .ceParam ∨ r ≤ m ∧ 8 < m ∧ t = .ceSize) := by
  simp only [buildReedMuller, raiseIf_error_iff, Option.isSome_iff_ne_none, not_not]
  simp

/-- The first test of BCH.NEW (43_bch.md R155). -/
theorem buildBch_of_built {s : State} {cs : SlotIdx} (h : s.slot cs ≠ none) (q d c : Nat) :
    buildBch cs q d c s = .error .ceSlotBuilt :=
  if_pos (Option.isSome_iff_ne_none.2 h)

/-- Settles O29: every test of HAM.NEW passes, and the length is the sum. -/
theorem hamNewBuildsTheCode : Obligations.HamNewBuildsTheCode := by
  intro s cs r q hslot hprime hq hr hn
  rw [← hamLength_eq_sum q r hprime.two_le] at hn ⊢
  exact exec_of_body_ok (i := .hamNew cs r q) ((buildHamming_ok_iff cs r q s _).2
    ⟨hslot, (isPrime_iff q).2 ⟨hprime, hq⟩, hr, hn, rfl⟩)

/-- Settles O33: the body of each constructor raises at the first test that fails. -/
theorem codeConstructorsRaiseInOrder : Obligations.CodeConstructorsRaiseInOrder := by
  refine fun s cs => ⟨fun hslot p1 p2 p3 => ⟨?_, ?_, ?_, ?_⟩,
    fun hslot => ⟨fun r q hq => ?_, fun r q hp hq hr => ?_, fun r q hp hq hr hn => ?_,
      fun n hn => ?_, fun r m hrm => ?_, fun r m hrm hm => ?_⟩⟩
  · exact exec_of_body_error (e := .ceSlotBuilt)
      ((buildHamming_error_iff cs p1 p2 s _).2 (.inl ⟨hslot, rfl⟩))
  · exact exec_of_body_error (e := .ceSlotBuilt)
      ((buildGolay_error_iff cs p1 s _).2 (.inl ⟨hslot, rfl⟩))
  · exact exec_of_body_error (e := .ceSlotBuilt)
      ((buildReedMuller_error_iff cs p1 p2 s _).2 (.inl ⟨hslot, rfl⟩))
  · exact exec_of_body_error (i := .bchNew cs p1 p2 p3) (buildBch_of_built hslot p1 p2 p3)
  · exact exec_of_body_error (e := .ceQ)
      ((buildHamming_error_iff cs r q s _).2 (.inr ⟨hslot, .inl ⟨hq, rfl⟩⟩))
  · exact exec_of_body_error (e := .ceParam)
      ((buildHamming_error_iff cs r q s _).2 (.inr ⟨hslot, .inr ⟨⟨hp, hq⟩, .inl ⟨hr, rfl⟩⟩⟩))
  · rw [← hamLength_eq_sum q r hp.two_le] at hn
    exact exec_of_body_error (e := .ceSize)
      ((buildHamming_error_iff cs r q s _).2 (.inr ⟨hslot, .inr ⟨⟨hp, hq⟩, .inr ⟨hr, hn, rfl⟩⟩⟩))
  · exact exec_of_body_error (e := .ceParam)
      ((buildGolay_error_iff cs n s _).2 (.inr ⟨hslot, hn, rfl⟩))
  · exact exec_of_body_error (e := .ceParam)
      ((buildReedMuller_error_iff cs r m s _).2 (.inr ⟨hslot, .inl ⟨hrm, rfl⟩⟩))
  · exact exec_of_body_error (e := .ceSize)
      ((buildReedMuller_error_iff cs r m s _).2 (.inr ⟨hslot, .inr ⟨hrm, hm, rfl⟩⟩))

end Sys2Proof.Machine

/-! ## The tuples that the Hamming scan keeps (42_hamming.md R141) -/

namespace Sys2Proof.Machine

/-! ### The enumeration is lexicographic (40_field_arithmetic.md R96) -/

theorem tuples_pairwise (q r : Nat) : (tuples q r).Pairwise TupleLt := by
  induction r with
  | zero => exact List.pairwise_singleton _ _
  | succ r ih =>
    rw [tuples_succ, List.pairwise_flatMap]
    refine ⟨fun x _ => List.pairwise_map.2 (ih.imp .cons), ?_⟩
    refine List.pairwise_lt_range.imp fun hxy u hu v hv => ?_
    obtain ⟨u, -, rfl⟩ := List.mem_map.1 hu
    obtain ⟨v, -, rfl⟩ := List.mem_map.1 hv
    exact .rel hxy

theorem tupleLt_irrefl (u : Word) : ¬ TupleLt u u := List.lex_irrefl Nat.lt_irrefl u

theorem tupleLt_asymm {u v : Word} (h : TupleLt u v) : ¬ TupleLt v u :=
  List.lex_asymm (fun h => Nat.lt_asymm h) h

/-- The members of an ascending list before u are those below u. -/
theorem mem_before_iff {pre suf : List Word} {u v : Word}
    (h : (pre ++ u :: suf).Pairwise TupleLt) :
    v ∈ pre ↔ v ∈ pre ++ u :: suf ∧ TupleLt v u := by
  obtain ⟨-, hsuf, hcross⟩ := List.pairwise_append.1 h
  refine ⟨fun hv => ⟨List.mem_append_left _ hv, hcross v hv u (.head _)⟩, fun ⟨hv, hlt⟩ => ?_⟩
  obtain hpre | hv := List.mem_append.1 hv
  · exact hpre
  · obtain rfl | hv := List.mem_cons.1 hv
    · exact absurd hlt (tupleLt_irrefl v)
    · exact absurd hlt (tupleLt_asymm ((List.pairwise_cons.1 hsuf).1 v hv))

/-! ### The first nonzero component -/

/-- The first nonzero component of a tuple. -/
def lead (u : Word) : Option Symbol := u.find? fun x => x != 0

theorem lead_cons_zero (u : Word) : lead (0 :: u) = lead u := rfl

theorem lead_cons_of_ne {x : Symbol} (hx : x ≠ 0) (u : Word) : lead (x :: u) = some x := by
  simp [lead, hx]

theorem mem_hamKept_iff (q r : Nat) (u : Word) :
    u ∈ hamKept q r ↔ WordOver q r u ∧ lead u = some 1 := by
  simp only [hamKept, List.mem_filter, mem_tuples_iff, beq_iff_eq, lead]

theorem lead_eq_none_iff (u : Word) : lead u = none ↔ wt u = 0 := by
  simp [lead, wt, List.countP_eq_zero]

theorem wt_eq_zero_iff {r : Nat} {u : Word} (hu : u.length = r) : wt u = 0 ↔ u = zeros r := by
  simp [wt, List.countP_eq_zero, zeros, List.eq_replicate_iff, hu]

theorem lead_bounds {q a : Nat} {u : Word} (hu : ∀ x ∈ u, x < q) (h : lead u = some a) :
    1 ≤ a ∧ a < q := by
  have hne : a ≠ 0 := by simpa using List.find?_some h
  exact ⟨Nat.one_le_iff_ne_zero.2 hne, hu a (List.mem_of_find?_eq_some h)⟩

/-! ### Multiples of a tuple -/

theorem wScale_wScale (q a b : Nat) (u : Word) :
    wScale q a (wScale q b u) = wScale q (a * b) u := by
  simp [wScale, gfMul, Function.comp_def, mul_assoc]

theorem wScale_of_mod_eq_one {q b : Nat} (hb : b % q = 1) {u : Word} (hu : ∀ x ∈ u, x < q) :
    wScale q b u = u := by
  refine (List.map_congr_left fun x hx => ?_).trans (List.map_id u)
  rw [gfMul, Nat.mul_mod, hb, one_mul, Nat.mod_mod, Nat.mod_eq_of_lt (hu x hx), id]

section
variable {q : Nat} (hq : q.Prime) {a b : Nat}
include hq

/-- Every nonzero symbol has an inverse (40_field_arithmetic.md R94). -/
theorem exists_symbol_inverse (hb : 1 ≤ b) (hb' : b < q) : ∃ y < q, b * y % q = 1 :=
  Nat.exists_mul_mod_eq_one_of_coprime (Nat.coprime_of_lt_prime (by omega) hb' hq).symm hq.one_lt

theorem wScale_injective {r : Nat} {u v : Word} (hb : 1 ≤ b) (hb' : b < q) (hu : WordOver q r u)
    (hv : WordOver q r v) (h : wScale q b u = wScale q b v) : u = v := by
  obtain ⟨y, -, hy⟩ := exists_symbol_inverse hq hb hb'
  have hy' : y * b % q = 1 := by rwa [mul_comm]
  rw [← wScale_of_mod_eq_one hy' hu.2, ← wScale_wScale, h, wScale_wScale,
    wScale_of_mod_eq_one hy' hv.2]

theorem gfMul_eq_zero_iff {x : Symbol} (hb : 1 ≤ b) (hb' : b < q) (hx : x < q) :
    gfMul q b x = 0 ↔ x = 0 := by
  rw [gfMul, ← Nat.dvd_iff_mod_eq_zero, hq.dvd_mul]
  constructor
  · rintro (h | h)
    · exact absurd (Nat.le_of_dvd hb h) (by omega)
    · exact Nat.eq_zero_of_dvd_of_lt h hx
  · rintro rfl
    exact .inr (dvd_zero q)

theorem lead_wScale (hb : 1 ≤ b) (hb' : b < q) {u : Word} (hu : ∀ x ∈ u, x < q) :
    lead (wScale q b u) = (lead u).map (gfMul q b) := by
  induction u with
  | nil => rfl
  | cons x u ih =>
    rw [List.forall_mem_cons] at hu
    have hzero := gfMul_eq_zero_iff hq hb hb' hu.1
    rw [show wScale q b (x :: u) = gfMul q b x :: wScale q b u from rfl]
    by_cases hx : x = 0
    · rw [hzero.2 hx, hx, lead_cons_zero, lead_cons_zero, ih hu.2]
    · rw [lead_cons_of_ne (mt hzero.1 hx), lead_cons_of_ne hx, Option.map_some]

theorem lead_wScale_normalised (hb : 1 ≤ b) (hb' : b < q) {v : Word} (hv : ∀ x ∈ v, x < q)
    (hlead : lead v = some 1) : lead (wScale q b v) = some b := by
  rw [lead_wScale hq hb hb' hv, hlead, Option.map_some, gfMul, mul_one, Nat.mod_eq_of_lt hb']

/-- A nonzero tuple is the multiple, by its first nonzero component, of a normalised one. -/
theorem exists_normalised {r : Nat} {u : Word} (hu : WordOver q r u) (hlead : lead u = some a) :
    ∃ v, v ∈ hamKept q r ∧ u = wScale q a v := by
  obtain ⟨ha, ha'⟩ := lead_bounds hu.2 hlead
  obtain ⟨y, hy, hinv⟩ := exists_symbol_inverse hq ha ha'
  have hy1 : 1 ≤ y := Nat.one_le_iff_ne_zero.2 fun h => by simp [h] at hinv
  refine ⟨wScale q y u, (mem_hamKept_iff q r _).2 ⟨wordOver_wScale hq.pos y hu.1, ?_⟩, ?_⟩
  · rw [lead_wScale hq hy1 hy hu.2, hlead, Option.map_some, gfMul, mul_comm, hinv]
  · rw [wScale_wScale, wScale_of_mod_eq_one hinv hu.2]

/-- A tuple is the multiple of one normalised tuple at most, and by one symbol. -/
theorem normalised_unique {r a' : Nat} {v v' : Word} (hv : v ∈ hamKept q r) (hv' : v' ∈ hamKept q r)
    (ha : 1 ≤ a ∧ a < q) (ha' : 1 ≤ a' ∧ a' < q) (h : wScale q a v = wScale q a' v') :
    a = a' ∧ v = v' := by
  obtain ⟨hword, hlead⟩ := (mem_hamKept_iff q r v).1 hv
  obtain ⟨hword', hlead'⟩ := (mem_hamKept_iff q r v').1 hv'
  have haa : some a = some a' := by
    rw [← lead_wScale_normalised hq ha.1 ha.2 hword.2 hlead, h,
      lead_wScale_normalised hq ha'.1 ha'.2 hword'.2 hlead']
  obtain rfl := Option.some.inj haa
  exact ⟨rfl, wScale_injective hq ha.1 ha.2 hword hword' h⟩

omit hq in
/-- A normalised tuple lies below its other multiples, so the enumeration meets it first. -/
theorem normalised_tupleLt {v : Word} (ha : 1 < a) (ha' : a < q) (hv : lead v = some 1) :
    TupleLt v (wScale q a v) := by
  induction v with
  | nil => simp [lead] at hv
  | cons x v ih =>
    by_cases hx : x = 0
    · subst hx
      exact .cons (ih hv)
    · obtain rfl : x = 1 := by simpa [lead_cons_of_ne hx] using hv
      have hhead : gfMul q a 1 = a := by rw [gfMul, mul_one, Nat.mod_eq_of_lt ha']
      exact .rel (by rwa [hhead])

end

/-! ### The scan -/

/-- The test of the scan: u is zero or a multiple of a tuple kept before. -/
def skips (q : Nat) (kept : List Word) (u : Word) : Bool :=
  wt u = 0 || kept.any fun v => (List.range' 1 (q - 1)).any fun b => u == wScale q b v

theorem keepByScan_cons (q : Nat) (kept us : List Word) (u : Word) :
    keepByScan q kept (u :: us)
      = keepByScan q (if skips q kept u then kept else kept ++ [u]) us :=
  (apply_ite (fun k => keepByScan q k us) _ _ _).symm

/-- The scalars of the scan are the nonzero symbols. -/
theorem mem_scalars_iff {q b : Nat} (hq : 0 < q) :
    b ∈ List.range' 1 (q - 1) ↔ 1 ≤ b ∧ b < q := by
  rw [List.mem_range'_1]
  omega

theorem skips_iff {q : Nat} (hq : 0 < q) (kept : List Word) (u : Word) :
    skips q kept u = true
      ↔ wt u = 0 ∨ ∃ v ∈ kept, ∃ b, (1 ≤ b ∧ b < q) ∧ u = wScale q b v := by
  simp only [skips, Bool.or_eq_true, decide_eq_true_eq, List.any_eq_true, mem_scalars_iff hq,
    beq_iff_eq]

/-- A scan that skips just the tuples without the property p keeps those that have it. -/
theorem keepByScan_eq_filter (q : Nat) (p : Word → Bool) (l kept : List Word)
    (h : ∀ pre u suf, l = pre ++ u :: suf → skips q (kept ++ pre.filter p) u = !p u) :
    keepByScan q kept l = kept ++ l.filter p := by
  induction l generalizing kept with
  | nil => exact (List.append_nil kept).symm
  | cons u us ih =>
    have hu : skips q kept u = !p u := by simpa using h [] u us rfl
    have hkept : (if skips q kept u then kept else kept ++ [u]) = kept ++ [u].filter p := by
      cases hp : p u <;> simp [hu, hp]
    rw [keepByScan_cons, hkept, ih]
    · rw [List.append_assoc, ← List.filter_append, List.singleton_append]
    · intro pre v suf hus
      rw [List.append_assoc, ← List.filter_append]
      exact h ([u] ++ pre) v suf (by rw [hus]; rfl)

/-- Of the tuples of the enumeration the scan skips those that are not normalised: a normalised tuple is
no multiple of an earlier one, and any other nonzero tuple is the multiple of one. -/
theorem skips_eq_not_normalised {q r : Nat} (hq : q.Prime) {pre suf : List Word} {u : Word}
    (h : tuples q r = pre ++ u :: suf) :
    skips q (pre.filter fun v => lead v == some 1) u = !(lead u == some 1) := by
  have hsorted := h ▸ tuples_pairwise q r
  have hu : WordOver q r u := (mem_tuples_iff q r u).1 (by simp [h])
  have hkept : ∀ v, v ∈ pre.filter (fun v => lead v == some 1)
      ↔ v ∈ hamKept q r ∧ TupleLt v u := by
    intro v
    rw [List.mem_filter, mem_before_iff hsorted, ← h, mem_tuples_iff, mem_hamKept_iff, beq_iff_eq,
      and_right_comm]
  rw [Bool.eq_iff_iff, skips_iff hq.pos, Bool.not_eq_true', beq_eq_false_iff_ne]
  constructor
  · rintro (hzero | ⟨v, hv, b, hb, rfl⟩) hlead
    · simp [(lead_eq_none_iff u).2 hzero] at hlead
    · obtain ⟨hv, hlt⟩ := (hkept v).1 hv
      obtain ⟨hword, hone⟩ := (mem_hamKept_iff q r v).1 hv
      obtain rfl : b = 1 := by
        rw [lead_wScale_normalised hq hb.1 hb.2 hword.2 hone] at hlead
        exact Option.some.inj hlead
      rw [wScale_of_mod_eq_one (Nat.mod_eq_of_lt hq.one_lt) hword.2] at hlt
      exact tupleLt_irrefl v hlt
  · intro hlead
    cases hu' : lead u with
    | none => exact .inl ((lead_eq_none_iff u).1 hu')
    | some a =>
      have ha := lead_bounds hu.2 hu'
      have hlt : 1 < a := lt_of_le_of_ne ha.1 fun h1 => hlead (h1 ▸ hu')
      obtain ⟨v, hv, rfl⟩ := exists_normalised hq hu hu'
      have hbelow := normalised_tupleLt hlt ha.2 ((mem_hamKept_iff q r v).1 hv).2
      exact .inr ⟨v, (hkept v).2 ⟨hv, hbelow⟩, a, ha, rfl⟩

/-- The scan keeps exactly the normalised tuples. -/
theorem keepByScan_tuples {q : Nat} (hq : q.Prime) (r : Nat) :
    keepByScan q [] (tuples q r) = hamKept q r :=
  keepByScan_eq_filter q _ (tuples q r) [] fun _ _ _ h => skips_eq_not_normalised hq h

/-- Settles O39: the enumeration meets the normalised tuple of each direction first. -/
theorem hamKeptTuplesAreNormalised : Obligations.HamKeptTuplesAreNormalised := fun q r hq =>
  ⟨tuples_pairwise q r, mem_tuples_iff q r, keepByScan_tuples hq r, mem_hamKept_iff q r,
    length_hamKept hq.two_le r⟩

end Sys2Proof.Machine

/-! ## The columns of H are sorted and cover every direction (42_hamming.md R142, R143) -/

namespace Sys2Proof.Machine

/-- The order of the columns: by weight, and lexicographically within a weight. -/
def ColumnLt (u v : Word) : Prop := wt u < wt v ∨ (wt u = wt v ∧ TupleLt u v)

theorem columnLt_irrefl (u : Word) : ¬ ColumnLt u u := by
  rintro (h | ⟨-, h⟩)
  · exact lt_irrefl _ h
  · exact tupleLt_irrefl u h

theorem reverse_hamColumns (q r : Nat) :
    (hamColumns q r).reverse
      = (List.range (r + 1)).flatMap fun w => (hamKept q r).filter fun u => wt u == w :=
  List.reverse_reverse _

theorem hamKept_pairwise (q r : Nat) : (hamKept q r).Pairwise TupleLt :=
  (tuples_pairwise q r).filter _

theorem reverse_hamColumns_pairwise (q r : Nat) : (hamColumns q r).reverse.Pairwise ColumnLt := by
  rw [reverse_hamColumns, List.pairwise_flatMap]
  refine ⟨fun w _ => ?_, List.pairwise_lt_range.imp fun hlt u hu v hv => ?_⟩
  · refine List.Pairwise.imp_of_mem (fun hu hv h => ?_) ((hamKept_pairwise q r).filter _)
    simp only [List.mem_filter, beq_iff_eq] at hu hv
    exact .inr ⟨hu.2.trans hv.2.symm, h⟩
  · simp only [List.mem_filter, beq_iff_eq] at hu hv
    exact .inl (by rwa [hu.2, hv.2])

theorem hamKept_nodup (q r : Nat) : (hamKept q r).Nodup :=
  have : Std.Irrefl TupleLt := ⟨tupleLt_irrefl⟩
  (hamKept_pairwise q r).nodup

theorem hamColumns_nodup (q r : Nat) : (hamColumns q r).Nodup :=
  have : Std.Irrefl ColumnLt := ⟨columnLt_irrefl⟩
  List.nodup_reverse.1 (reverse_hamColumns_pairwise q r).nodup

/-- The columns are the kept tuples: each has a weight of at most r. -/
theorem mem_hamColumns_iff (q r : Nat) (u : Word) : u ∈ hamColumns q r ↔ u ∈ hamKept q r := by
  rw [← List.mem_reverse, reverse_hamColumns]
  simp only [List.mem_flatMap, List.mem_filter, List.mem_range, beq_iff_eq]
  refine ⟨fun ⟨_, _, hu, _⟩ => hu, fun hu => ⟨wt u, ?_, hu, rfl⟩⟩
  have hle := wt_le_length u
  rw [(mem_hamKept_wordOver hu).1] at hle
  exact Nat.lt_succ_of_le hle

theorem reverse_hamColumns_perm (q r : Nat) : (hamColumns q r).reverse.Perm (hamKept q r) :=
  (List.perm_ext_iff_of_nodup (List.nodup_reverse.2 (hamColumns_nodup q r)) (hamKept_nodup q r)).2
    fun u => by rw [List.mem_reverse, mem_hamColumns_iff]

theorem hamCheck_getD {q r i j : Nat} (hi : i < r) (hj : j < (hamColumns q r).length) :
    ((hamCheck q r).getD i []).getD j 0 = ((hamColumns q r).getD j []).getD i 0 := by
  simp [hamCheck, transpose, hi, hj]

/-! ### Every direction is covered once -/

section
variable {q r : Nat} (hq : q.Prime)
include hq

/-- A nonzero tuple is a nonzero multiple of some column. -/
theorem exists_hamColumn {u : Word} (hu : WordOver q r u) (hne : u ≠ zeros r) :
    ∃ j, ∃ hj : j < (hamColumns q r).length, ∃ b, (1 ≤ b ∧ b < q)
      ∧ wScale q b (hamColumns q r)[j] = u := by
  cases hlead : lead u with
  | none => exact absurd ((wt_eq_zero_iff hu.1).1 ((lead_eq_none_iff u).1 hlead)) hne
  | some b =>
    obtain ⟨v, hv, rfl⟩ := exists_normalised hq hu hlead
    obtain ⟨j, hj, rfl⟩ := List.getElem_of_mem ((mem_hamColumns_iff q r v).2 hv)
    exact ⟨j, hj, b, lead_bounds hu.2 hlead, rfl⟩

/-- No two columns have a common multiple, nor one column two equal multiples. -/
theorem hamColumn_unique {j j' b b' : Nat} (hj : j < (hamColumns q r).length)
    (hj' : j' < (hamColumns q r).length) (hb : 1 ≤ b ∧ b < q) (hb' : 1 ≤ b' ∧ b' < q)
    (h : wScale q b (hamColumns q r)[j] = wScale q b' (hamColumns q r)[j']) : j = j' ∧ b = b' := by
  have hkept : ∀ {i} (hi : i < (hamColumns q r).length), (hamColumns q r)[i] ∈ hamKept q r :=
    fun hi => (mem_hamColumns_iff q r _).1 (List.getElem_mem hi)
  obtain ⟨rfl, hcol⟩ := normalised_unique hq (hkept hj) (hkept hj') hb hb' h
  exact ⟨(hamColumns_nodup q r).getElem_inj_iff.1 hcol, rfl⟩

/-- "Every nonzero tuple of GF(q)^r is a nonzero scalar multiple of exactly one column of H"
(42_hamming.md R143). -/
theorem existsUnique_hamColumn {u : Word} (hu : WordOver q r u) (hne : u ≠ zeros r) :
    ∃! jb : Nat × Nat, jb.1 < (hamColumns q r).length ∧ 1 ≤ jb.2 ∧ jb.2 < q
      ∧ u = wScale q jb.2 ((hamColumns q r).getD jb.1 []) := by
  obtain ⟨j, hj, b, hb, rfl⟩ := exists_hamColumn hq hu hne
  refine ⟨(j, b), ⟨hj, hb.1, hb.2, by rw [List.getD_eq_getElem _ _ hj]⟩, ?_⟩
  rintro ⟨j', b'⟩ ⟨hj', hb1, hbq, h⟩
  rw [List.getD_eq_getElem _ _ hj'] at h
  obtain ⟨rfl, rfl⟩ := hamColumn_unique hq hj hj' hb ⟨hb1, hbq⟩ h
  rfl

end

/-- The last r columns are the identity, also when there is none at all. -/
theorem drop_length_hamColumns {q : Nat} (hq : 2 ≤ q) (r : Nat) :
    (hamColumns q r).drop ((hamColumns q r).length - r) = identity r := by
  obtain rfl | hr := Nat.eq_zero_or_pos r
  · rfl
  · rw [length_hamColumns hq, drop_hamColumns hq hr]

/-- Settles O40: the columns are the kept tuples, which are the normalised ones, in their order. -/
theorem hamColumnsAreSortedAndCoverEveryDirection :
    Obligations.HamColumnsAreSortedAndCoverEveryDirection := fun q r hq =>
  ⟨keepByScan_tuples hq r ▸ reverse_hamColumns_perm q r, reverse_hamColumns_pairwise q r,
    transpose_length r _, fun _ _ => hamCheck_getD, drop_length_hamColumns hq.two_le r,
    fun _ => existsUnique_hamColumn hq⟩

end Sys2Proof.Machine

/-! ## DEC and DECM on a Hamming slot (42_hamming.md R146, R147) -/

namespace Sys2Proof.Machine

/-! ### One symbol of a word changed -/

/-- A word combined with a multiple of a unit word differs in the symbol at that index alone. -/
theorem zipWith_wScale_unit {q n i : Nat} (f : Nat → Nat → Nat) (hf : ∀ x < q, f x 0 = x) {u : Word}
    (hu : WordOver q n u) (b : Nat) :
    List.zipWith f u (wScale q b (unit n i)) = u.set i (f (u.getD i 0) (b % q)) := by
  refine List.ext_getElem (by simp [hu.1]) fun j hj hj' => ?_
  have hju : j < u.length := by simpa using hj'
  obtain rfl | hij := eq_or_ne i j
  · simp [wScale, unit, gfMul, hju]
  · simp [wScale, unit, gfMul, hij, hij.symm, hf _ (hu.2 _ (List.getElem_mem hju))]

theorem wAdd_wScale_unit {q n : Nat} {u : Word} (hu : WordOver q n u) (b i : Nat) :
    wAdd q u (wScale q b (unit n i)) = u.set i ((u.getD i 0 + b) % q) := by
  have hzero : ∀ x < q, gfAdd q x 0 = x := fun x hx => Nat.mod_eq_of_lt hx
  rw [wAdd, zipWith_wScale_unit _ hzero hu, gfAdd, Nat.add_mod_mod]

theorem wSub_wScale_unit {q n : Nat} {u : Word} (hu : WordOver q n u) (b i : Nat) :
    wSub q u (wScale q b (unit n i)) = u.set i (gfSub q (u.getD i 0) b) := by
  have hzero : ∀ x < q, gfSub q x 0 = x := fun x hx => by simp [gfSub, Nat.mod_eq_of_lt hx]
  rw [wSub, zipWith_wScale_unit _ hzero hu, gfSub, gfSub, Nat.mod_mod]

theorem gfSub_add_cancel {q a b : Nat} (ha : a < q) : gfSub q ((a + b) % q) b = a := by
  have : NeZero q := ⟨by omega⟩
  exact eq_of_natCast_eq (gfSub_lt q _ _ (by omega)) ha (by simp)

theorem distance_cons (x y : Symbol) (u v : Word) :
    distance (x :: u) (y :: v) = distance u v + if x = y then 0 else 1 := by
  by_cases h : x = y <;> simp [distance, h]

theorem distance_self (u : Word) : distance u u = 0 := by
  induction u with
  | nil => rfl
  | cons x u ih => simp [distance_cons, ih]

theorem distance_set_le (u : Word) (i : Nat) (y : Symbol) : distance u (u.set i y) ≤ 1 := by
  induction u generalizing i with
  | nil => exact Nat.zero_le 1
  | cons x u ih =>
    cases i with
    | zero =>
      rw [List.set_cons_zero, distance_cons, distance_self]
      split <;> omega
    | succ i => simpa [List.set_cons_succ, distance_cons] using ih i

/-! ### The scan over the columns -/

/-- The scan fails only when no column matches. -/
theorem ne_of_hamScan_none {q : Nat} {S : Word} {cols : List Word} {start : Nat}
    (h : hamScan q S start cols = none) :
    ∀ col ∈ cols, ∀ b ∈ List.range' 1 (q - 1), wScale q b col ≠ S := by
  induction cols generalizing start with
  | nil => simp
  | cons col cols ih =>
    unfold hamScan at h
    split at h
    · simp at h
    · rename_i hfind
      rw [List.forall_mem_cons]
      exact ⟨by simpa using hfind, ih h⟩

theorem scalar_of_hamScan_some {q : Nat} {S : Word} {cols : List Word} {start i b : Nat}
    (h : hamScan q S start cols = some (i, b)) : b ∈ List.range' 1 (q - 1) := by
  induction cols generalizing start with
  | nil => simp [hamScan] at h
  | cons col cols ih =>
    unfold hamScan at h
    split at h
    · rename_i b' hfind
      obtain ⟨-, rfl⟩ : start = i ∧ b' = b := by simpa using h
      exact List.mem_of_find?_eq_some hfind
    · exact ih h

/-- Over the columns of H the scan finds the one column and scalar that match. -/
theorem hamScan_hamColumns {q r j b : Nat} (hq : q.Prime) {S : Word}
    (hj : j < (hamColumns q r).length) (hb : 1 ≤ b ∧ b < q)
    (h : wScale q b (hamColumns q r)[j] = S) :
    hamScan q S 0 (hamColumns q r) = some (j, b) := by
  cases hscan : hamScan q S 0 (hamColumns q r) with
  | none =>
    exact absurd h (ne_of_hamScan_none hscan _ (List.getElem_mem hj) b ((mem_scalars_iff hq.pos).2 hb))
  | some found =>
    obtain ⟨i, b'⟩ := found
    obtain ⟨j', hij, hj', hcol⟩ := hamScan_some hscan
    have hb' := (mem_scalars_iff hq.pos).1 (scalar_of_hamScan_some hscan)
    obtain ⟨rfl, rfl⟩ := hamColumn_unique hq hj hj' hb hb' (h.trans hcol.symm)
    rw [hij, Nat.zero_add]

/-! ### The decoder -/

theorem hamDecode_of_codeword {c : Code} {r : Nat} {w : Word} (h : hamSyndrome c r w = zeros r) :
    hamDecode c r w = .ok w := if_pos h

/-- A nonzero multiple of a column is not zero. -/
theorem wScale_hamColumn_ne_zeros {q r j b : Nat} (hq : q.Prime)
    (hj : j < (hamColumns q r).length) (hb : 1 ≤ b ∧ b < q) :
    wScale q b (hamColumns q r)[j] ≠ zeros r := by
  obtain ⟨hword, hlead⟩ :=
    (mem_hamKept_iff q r _).1 ((mem_hamColumns_iff q r _).1 (List.getElem_mem hj))
  intro h
  have hnone : lead (wScale q b (hamColumns q r)[j]) = none :=
    (lead_eq_none_iff _).2 ((wt_eq_zero_iff (r := r) (by simp [hword.1])).2 h)
  simp [lead_wScale_normalised hq hb.1 hb.2 hword.2 hlead] at hnone

/-- A product with a unit word is a row. -/
theorem vecMat_unit {q n r i : Nat} (hq : 0 < q) {M : Matrix} (hlen : M.length = n)
    (hM : ∀ row ∈ M, WordOver q r row) (hi : i < M.length) :
    vecMat q r (unit n i) M = M[i] := by
  have hrow : symbolMat q n r M ⟨i, hlen ▸ hi⟩ = symbolVec q r M[i] :=
    congrArg (symbolVec q r) (List.getD_eq_getElem _ _ hi)
  have hunit : symbolVec q n (unit n i) = Pi.single ⟨i, hlen ▸ hi⟩ 1 :=
    symbolVec_unit q n ⟨i, hlen ▸ hi⟩
  refine wordOver_ext (vecMat_wordOver hq _ fun row h => (hM row h).1) (hM _ (List.getElem_mem hi)) ?_
  rw [symbolVec_vecMat q (unit_length n i) fun row h => (hM row h).1, hunit,
    Matrix.single_one_vecMul, Matrix.row, hrow]

section
variable {c : Code} {r : Nat} (hc : c.ok = true) (hkind : c.kind = .ham r)
include hc hkind

theorem ham_prime : c.q.Prime := ((isPrime_iff c.q).1 (Code.ok_ham hc hkind).1).1

/-- Adding b to the symbol at index j of a codeword makes the syndrome b times column j. -/
theorem hamSyndrome_single_error {x : Word} {j : Nat} (b : Nat) (hx : WordOver c.q c.n x)
    (hS : hamSyndrome c r x = zeros r) (hj : j < (hamColumns c.q r).length) :
    hamSyndrome c r (wAdd c.q x (wScale c.q b (unit c.n j)))
      = wScale c.q b (hamColumns c.q r)[j] := by
  have hq := Code.ok_q_pos hc
  have hrows : ∀ row ∈ hamColumns c.q r, row.length = r := fun row h => (mem_hamColumns_wordOver h).1
  have hcol : WordOver c.q r (hamColumns c.q r)[j] := mem_hamColumns_wordOver (List.getElem_mem hj)
  rw [hamSyndrome_eq_vecMat hc hkind hx.1] at hS
  rw [hamSyndrome_eq_vecMat hc hkind (by simp [hx.1]), vecMat_wAdd hq hrows (by simp [hx.1]), hS,
    vecMat_wScale hq hrows, vecMat_unit hq (ham_columns_length hc hkind)
      (fun row h => mem_hamColumns_wordOver h) hj,
    zeros_wAdd (wordOver_wScale hq b hcol.1)]

/-- A word whose syndrome is a nonzero multiple of a column is changed at that index. -/
theorem hamDecode_of_multiple {w : Word} {j b : Nat} (hw : WordOver c.q c.n w)
    (hj : j < (hamColumns c.q r).length) (hb : 1 ≤ b ∧ b < c.q)
    (h : wScale c.q b (hamColumns c.q r)[j] = hamSyndrome c r w) :
    hamDecode c r w = .ok (w.set j (gfSub c.q (w.getD j 0) b)) := by
  have hq := ham_prime hc hkind
  have hne := h ▸ wScale_hamColumn_ne_zeros hq hj hb
  rw [← wSub_wScale_unit hw, hamDecode, if_neg hne, hamScan_hamColumns hq hj hb h]

/-- Every word is decoded, with at most one symbol changed and none of a codeword. -/
theorem hamDecode_complete {w : Word} (hw : WordOver c.q c.n w) :
    ∃ x, hamDecode c r w = .ok x ∧ distance w x ≤ 1
      ∧ (hamSyndrome c r w = zeros r → x = w) := by
  by_cases hS : hamSyndrome c r w = zeros r
  · exact ⟨w, hamDecode_of_codeword hS, by simp [distance_self], fun _ => rfl⟩
  · obtain ⟨j, hj, b, hb, hcol⟩ := exists_hamColumn (ham_prime hc hkind) (hamSyndrome_wordOver hc w) hS
    exact ⟨_, hamDecode_of_multiple hc hkind hw hj hb hcol, distance_set_le w j _, fun h => absurd h hS⟩

/-- A single error of any nonzero magnitude is corrected. -/
theorem hamDecode_single_error {x : Word} {i b : Nat} (hx : WordOver c.q c.n x)
    (hS : hamSyndrome c r x = zeros r) (hi : i < c.n) (hb : 1 ≤ b ∧ b < c.q) :
    hamDecode c r (x.set i ((x.getD i 0 + b) % c.q)) = .ok x := by
  have hj : i < (hamColumns c.q r).length := by rwa [ham_columns_length hc hkind]
  have hix : i < x.length := by rwa [hx.1]
  have hsyn := hamSyndrome_single_error hc hkind b hx hS hj
  have hw : WordOver c.q c.n (wAdd c.q x (wScale c.q b (unit c.n i))) :=
    wordOver_wAdd (Code.ok_q_pos hc) hx.1 (by simp)
  rw [wAdd_wScale_unit hx] at hsyn hw
  rw [hamDecode_of_multiple hc hkind hw hj hb hsyn.symm]
  have hxi : x.getD i 0 < c.q := by
    rw [List.getD_eq_getElem _ _ hix]
    exact hx.2 _ (List.getElem_mem hix)
  have hget : (x.set i ((x.getD i 0 + b) % c.q)).getD i 0 = (x.getD i 0 + b) % c.q := by
    simp [hix]
  rw [hget, gfSub_add_cancel hxi, List.set_set, List.getD_eq_getElem _ _ hix, List.set_getElem_self]

end

/-- What the Hamming decoder answers is what DEC delivers, and DECM its first k symbols. -/
theorem exec_dec_decm_of_hamDecode {s : State} (wd : WordIdx) {ws : WordIdx} {cs : SlotIdx} {c : Code}
    {r : Nat} {x : Word} (hslot : s.slot cs = some c) (hkind : c.kind = .ham r)
    (hw : WordOver c.q c.n (s.word ws)) (h : hamDecode c r (s.word ws) = .ok x) :
    exec (.dec wd ws cs) s = .next (s.setWord wd x).reportsSuccess
      ∧ exec (.decm wd ws cs) s = .next (s.setWord wd (x.take c.k)).reportsSuccess := by
  have hdecode : decodeWord c (s.word ws) = .ok (x, x.take c.k) := by
    simp only [decodeWord, hkind, (withMessage_ok_iff _ _ _ _).2 ⟨h, rfl⟩]
  exact exec_dec_decm_of_ok wd
    ((decodeOperand_ok_iff ws cs s _).2 ⟨c, hslot, hw.1, hw.2, hdecode⟩)

/-- Settles O42: a nonzero syndrome is a multiple of some column, so the scan finds one. -/
theorem hamDecodeCommandsAlwaysComplete : Obligations.HamDecodeCommandsAlwaysComplete := by
  intro s wd ws cs c r hslot hc hkind hw
  obtain ⟨x, hdecode, hdist, hsame⟩ := hamDecode_complete hc hkind hw
  obtain ⟨hx, -, henc⟩ := hamDecode_isDecoded hc hkind hw hdecode
  obtain ⟨hdec, hdecm⟩ := exec_dec_decm_of_hamDecode wd hslot hkind hw hdecode
  exact ⟨x, hdec, hdecm, hx, (hamSyndrome_eq_zeros_iff hc hkind hx).2 henc, hdist, hsame⟩

/-- Settles O43: the syndrome of the word is the multiple of the column at the error. -/
theorem hamDecodeCorrectsEverySingleError : Obligations.HamDecodeCorrectsEverySingleError := by
  intro s wd ws cs c r i b x hslot hc hkind hx hS hi hb hbq hw
  have hword : WordOver c.q c.n (s.word ws) := by
    rw [hw, ← wAdd_wScale_unit hx]
    exact wordOver_wAdd (Code.ok_q_pos hc) hx.1 (by simp)
  have hdecode := hamDecode_single_error hc hkind hx hS hi ⟨hb, hbq⟩
  exact exec_dec_decm_of_hamDecode wd hslot hkind hword (hw ▸ hdecode)

end Sys2Proof.Machine


/-! ## BCH.NEW: completion and exceptions in order (43_bch.md R155, R158) -/

namespace Sys2Proof.Machine

/-! ### The tests of the field and of the root exponents -/

/-- The model's test of the element is that its order is n (40_field_arithmetic.md R101). -/
theorem isPrimitive_iff_hasOrder (F : ExtField) : F.isPrimitive = true ↔ F.HasOrder F.a F.n := by
  simp only [ExtField.isPrimitive, ExtField.HasOrder, Bool.and_eq_true, beq_iff_eq, List.all_eq_true,
    List.mem_range, Bool.or_eq_true, bne_iff_ne, Nat.one_le_iff_ne_zero]
  exact and_congr_right fun _ => forall_congr' fun j =>
    ⟨fun h hj hlt => (h hlt).resolve_left hj, fun h hlt => or_iff_not_imp_left.2 fun hj => h hj hlt⟩

/-- Modulo n = q^m - 1 the powers of q repeat after m (40_field_arithmetic.md R109). -/
theorem mul_pow_mod_period {q m : Nat} (hq : 1 ≤ q) (x i : Nat) :
    x * q ^ i % (q ^ m - 1) = x * q ^ (i % m) % (q ^ m - 1) := by
  have hone : q ^ m ≡ 1 [MOD q ^ m - 1] :=
    ((Nat.modEq_iff_dvd' (Nat.one_le_pow m q hq)).2 dvd_rfl).symm
  have hpow : q ^ i ≡ q ^ (i % m) [MOD q ^ m - 1] :=
    calc q ^ i = (q ^ m) ^ (i / m) * q ^ (i % m) := by rw [← pow_mul, ← pow_add, Nat.div_add_mod]
      _ ≡ 1 ^ (i / m) * q ^ (i % m) [MOD q ^ m - 1] := (hone.pow _).mul_right _
      _ = q ^ (i % m) := by rw [one_pow, one_mul]
  exact hpow.mul_left x

/-- The first m members of each coset are all of them (43_bch.md R158). -/
theorem mem_rootExponents_iff_exists {q m n : Nat} (hq : 2 ≤ q) (hm : 1 ≤ m) (hn : n = q ^ m - 1)
    (c d e : Nat) :
    e ∈ rootExponents q m n c d ↔ ∃ j i, j + 1 < d ∧ e = (c + j) * q ^ i % n := by
  have hpos : 0 < n := by
    have := Nat.one_lt_pow (Nat.one_le_iff_ne_zero.1 hm) hq
    omega
  rw [mem_rootExponents_iff]
  constructor
  · rintro ⟨-, j, hj, i, -, rfl⟩
    exact ⟨j, i, hj, Nat.mod_mul_mod _ _ _⟩
  · rintro ⟨j, i, hj, rfl⟩
    refine ⟨Nat.mod_lt _ hpos, j, hj, i % m, Nat.mod_lt _ hm, ?_⟩
    rw [Nat.mod_mul_mod, hn, ← mul_pow_mod_period (by omega)]

theorem rootExponents_length_eq_card {q m n c d : Nat} {E : Finset Nat} (hq : 2 ≤ q) (hm : 1 ≤ m)
    (hn : n = q ^ m - 1) (hE : IsRootExponents q n c d E) :
    (rootExponents q m n c d).length = E.card := by
  rw [← List.toFinset_card_of_nodup (rootExponents_nodup q m n c d)]
  congr 1
  ext e
  rw [List.mem_toFinset, mem_rootExponents_iff_exists hq hm hn, hE]

/-! ### The tests in their order -/

/-- The tests of BCH.NEW in their order (43_bch.md R155). -/
theorem buildBch_error_iff (cs : SlotIdx) (q d c : Nat) (s : State) (t : Trap) :
    buildBch cs q d c s = .error t ↔
      s.slot cs ≠ none ∧ t = .ceSlotBuilt
        ∨ s.slot cs = none ∧ (¬ (q.Prime ∧ q ≤ 251) ∧ t = .ceQ
          ∨ (q.Prime ∧ q ≤ 251) ∧ (d = 0 ∧ t = .ceParam
            ∨ 1 ≤ d ∧ (badPolyWord q (s.word 0) = true ∧ t = .cePoly
              ∨ badPolyWord q (s.word 0) = false
                ∧ ∃ m n, m = (s.word 0).length - 1 ∧ n = q ^ m - 1 ∧ (256 < n ∧ t = .ceSize
                  ∨ n ≤ 256 ∧ (¬ WordOver q m (s.word 1) ∧ t = .cePrim
                    ∨ WordOver q m (s.word 1)
                      ∧ ((bchField q n (s.word 0).reverse (s.word 1).reverse).isPrimitive = false
                          ∧ t = .cePrim
                        ∨ (bchField q n (s.word 0).reverse (s.word 1).reverse).isPrimitive = true
                          ∧ n ≤ (rootExponents q m n c d).length ∧ t = .ceSize)))))) := by
  have hword : ∀ m w, (w.length ≠ m ∨ hasNonSymbol q w = true) ↔ ¬ WordOver q m w := fun m w => by
    rw [not_and_or, ← hasNonSymbol_false_iff, Bool.not_eq_false]
  have hsize : ∀ n r, n - r < 1 ↔ n ≤ r := fun n r => by omega
  simp only [buildBch, raiseIf_error_iff, ← isPrime_iff, Option.isSome_iff_ne_none, not_not, hword,
    hsize, Config.nmax_eq, gt_iff_lt, not_lt, Nat.lt_one_iff, ← Nat.one_le_iff_ne_zero,
    Bool.not_eq_true, Bool.not_eq_false, exists_and_left, exists_eq_left, reduceCtorEq, and_false,
    or_false]

theorem badPolyWord_true_iff (q : Nat) (fw : Word) :
    badPolyWord q fw = true ↔ fw.length < 2 ∨ (∃ x ∈ fw, q ≤ x) ∨ fw.head? ≠ some 1 := by
  rw [← Bool.not_eq_false, badPolyWord_false_iff]
  simp only [not_and_or, not_le, not_forall, not_lt, exists_prop, ne_eq]

/-- Settles O32: every test of BCH.NEW passes, and the bounded cosets are the whole cosets. -/
theorem bchNewBuildsTheCode : Obligations.BchNewBuildsTheCode := by
  intro s cs q d c m n E hslot hprime hq hd hlen hm hsym hlead hn hsize ha horder hE hcard
  have hpoly : badPolyWord q (s.word 0) = false :=
    (badPolyWord_false_iff _ _).2 ⟨by omega, hsym, hlead⟩
  rw [← rootExponents_length_eq_card hprime.two_le hm hn hE] at hcard ⊢
  exact exec_of_body_ok (i := .bchNew cs q d c) ((buildBch_ok_iff cs q d c s _).2
    ⟨hslot, (isPrime_iff q).2 ⟨hprime, hq⟩, hd, hpoly, m, n, by omega, hn, hsize, ha,
      (isPrimitive_iff_hasOrder _).2 horder, by omega, rfl⟩)

/-- Settles O34: the body raises at the first test that fails. -/
theorem bchNewRaisesInOrder : Obligations.BchNewRaisesInOrder := by
  intro s cs q d c hslot
  have raises {e : Trap} (h : buildBch cs q d c s = .error e) :
      exec (.bchNew cs q d c) s = .next (s.raised e.code e.sub) :=
    exec_of_body_error (i := .bchNew cs q d c) h
  simp only [buildBch_error_iff, hslot, ne_eq, not_true_eq_false, false_and, true_and, false_or]
    at raises
  refine ⟨fun hq => raises (.inl ⟨hq, rfl⟩), fun hp hq => ?_⟩
  refine ⟨fun hd => raises (.inr ⟨⟨hp, hq⟩, .inl ⟨hd, rfl⟩⟩), fun hd => ?_⟩
  replace raises {e : Trap} := fun h => @raises e (.inr ⟨⟨hp, hq⟩, .inr ⟨hd, h⟩⟩)
  refine ⟨fun hbad => raises (.inl ⟨(badPolyWord_true_iff _ _).2 hbad, rfl⟩),
    fun m n hlen hm hsym hlead hn => ?_⟩
  have hpoly : badPolyWord q (s.word 0) = false :=
    (badPolyWord_false_iff _ _).2 ⟨by omega, hsym, hlead⟩
  replace raises {e : Trap} := fun h => @raises e (.inr ⟨hpoly, m, n, by omega, hn, h⟩)
  refine ⟨fun hsize => raises (.inl ⟨hsize, rfl⟩), fun hsize => ?_⟩
  refine ⟨fun ha => raises (.inr ⟨hsize, .inl ⟨ha, rfl⟩⟩), fun ha => ?_⟩
  replace raises {e : Trap} := fun h => @raises e (.inr ⟨hsize, .inr ⟨ha, h⟩⟩)
  have hprim := isPrimitive_iff_hasOrder (bchField q n (s.word 0).reverse (s.word 1).reverse)
  refine ⟨fun hord => raises (.inl ⟨Bool.eq_false_iff.2 (mt hprim.1 hord), rfl⟩),
    fun hord E hE hcard => ?_⟩
  have hlength := rootExponents_length_eq_card hp.two_le hm hn hE
  exact raises (.inr ⟨hprim.2 hord, by omega, rfl⟩)

end Sys2Proof.Machine


/-! ## What BCH DEC answers lies within the radius (43_bch.md R169, R171) -/

namespace Sys2Proof.Machine

theorem distance_le_modify (u x : Word) (i : Nat) (g : Nat → Nat) :
    distance u x ≤ distance (u.modify i g) x + 1 := by
  induction u generalizing x i with
  | nil => simp [distance]
  | cons a u ih =>
    cases x with
    | nil => simp [distance]
    | cons b x =>
      cases i with
      | zero =>
        rw [List.modify_zero_cons, distance_cons, distance_cons]
        split_ifs <;> omega
      | succ i =>
        have hrest := ih x i
        rw [List.modify_succ_cons, distance_cons, distance_cons]
        omega

/-- One symbol is corrected for each root (43_bch.md R170). -/
theorem distance_correctRoots_le {F : ExtField} {off : Nat} {locator omega : Poly} {roots : List Nat}
    {w x : Word} (h : correctRoots F off locator omega roots w = .ok x) :
    distance w x ≤ roots.length := by
  induction roots generalizing w with
  | nil =>
    obtain rfl : w = x := by simpa [correctRoots] using h
    exact (distance_self w).le
  | cons i roots ih =>
    unfold correctRoots at h
    split at h
    · simp at h
    · exact (distance_le_modify _ _ _ _).trans (Nat.succ_le_succ (ih h))

/-- A solution has an entry for each unknown (40_field_arithmetic.md R111). -/
theorem eliminate_length {F : ExtField} {v : Nat} {rows : List (List Elem)} {y : List Elem}
    (h : F.eliminate v rows = some y) : y.length = v := by
  induction v generalizing rows y with
  | zero =>
    obtain rfl : [] = y := by simpa [ExtField.eliminate] using h
    rfl
  | succ v ih =>
    unfold ExtField.eliminate at h
    split at h
    · simp at h
    · dsimp only at h
      split at h
      · simp at h
      · rename_i hys
        rw [← Option.some.inj h, List.length_cons, ih hys]

/-- The locator has at most t coefficients beyond the first (43_bch.md R165, R166). -/
theorem errorLocator_length_le {F : ExtField} {S : List Elem} {t : Nat} {locator : Poly}
    (h : errorLocator F S t = some locator) : locator.length - 1 ≤ t := by
  induction t with
  | zero => simp [errorLocator] at h
  | succ v ih =>
    unfold errorLocator at h
    split at h
    · rename_i y hy
      have hlen := eliminate_length hy
      obtain rfl : F.one :: y.reverse = locator := Option.some.inj h
      simp [hlen, hankel]
    · exact (ih h).trans (Nat.le_succ v)

/-- The number of roots is tested against the degree of the locator (43_bch.md R169). -/
theorem distance_bchDecode_le {F : ExtField} {off d : Nat} {w x : Word}
    (h : bchDecode F off d w = .ok x) : distance w x ≤ (d - 1) / 2 := by
  unfold bchDecode at h
  dsimp only at h
  split at h
  · obtain rfl : w = x := by simpa using h
    simp [distance_self]
  · split at h
    · simp at h
    · rename_i locator hlocator
      split at h
      · simp at h
      · rename_i hroots
        split at h
        · simp at h
        · rename_i out hcorrect
          obtain rfl : out = x := by
            split at h
            · simpa using h
            · simp at h
          calc distance w out ≤ (chienRoots F locator).length := distance_correctRoots_le hcorrect
            _ = locator.length - 1 := not_not.1 hroots
            _ ≤ (d - 1) / 2 := errorLocator_length_le hlocator

theorem decodeWord_bch_iff {c : Code} {m off : Nat} {f a : List Symbol}
    (hkind : c.kind = .bch m off f a) (w x msg : Word) :
    decodeWord c w = .ok (x, msg)
      ↔ bchDecode (bchField c.q c.n f a) off c.d w = .ok x ∧ msg = x.take c.k := by
  simp only [decodeWord, hkind, withMessage_ok_iff]

/-- Settles O52: a success ends in the last test of the decoder, after at most t corrections. -/
theorem bchDecReturnsOnlyNearbyCodewords : Obligations.BchDecReturnsOnlyNearbyCodewords := by
  intro s t wd ws cs c m off f a hslot hc hkind hexec hlast
  cases hop : decodeOperand ws cs s with
  | error e =>
    have ht := Host.Outcome.next.inj (hexec.symm.trans (exec_dec_decm_of_error wd ws hop).1)
    rw [ht] at hlast
    exact absurd hlast (takeException_last_ne_zero s e)
  | ok res =>
    obtain ⟨x, msg⟩ := res
    obtain ⟨c', hslot', hlen, hsym, hdecode⟩ := (decodeOperand_ok_iff ws cs s _).1 hop
    obtain rfl : c = c' := Option.some.inj (hslot.symm.trans hslot')
    obtain ⟨hbch, rfl⟩ := (decodeWord_bch_iff hkind _ _ _).1 hdecode
    obtain ⟨hdec, hdecm⟩ := exec_dec_decm_of_ok wd hop
    obtain ⟨hx, hzero⟩ := bchDecode_ok (F := bchField c.q c.n f a) (Code.ok_q_pos hc) ⟨hlen, hsym⟩ hbch
    exact ⟨x, hx, Host.Outcome.next.inj (hexec.symm.trans hdec), hdecm, distance_bchDecode_le hbch,
      (allZero_bchSyndromes_iff _ _ _ _).1 hzero⟩

end Sys2Proof.Machine


/-! ## Products and evaluations in the extension by their rules (40_field_arithmetic.md R99, R105) -/

namespace Sys2Proof.Machine

open Polynomial

/-! ### Products modulo a polynomial -/

theorem natCast_productCoeff (q : Nat) (p r : List Nat) (j : Nat) :
    (productCoeff p r j : ZMod q) = (symbolPoly q p * symbolPoly q r).coeff j := by
  simp only [productCoeff, coeff_mul, Finset.Nat.sum_antidiagonal_eq_sum_range_succ_mk,
    coeff_symbolPoly, Nat.cast_sum, Nat.cast_mul]

theorem exists_symbolPoly_eq {q : Nat} [NeZero q] (P : (ZMod q)[X]) :
    ∃ s : List Nat, symbolPoly q s = P := by
  refine ⟨(List.range (P.natDegree + 1)).map fun j => (P.coeff j).val, Polynomial.ext fun j => ?_⟩
  rw [coeff_symbolPoly, List.getD_eq_getElem?_getD, List.getElem?_map]
  by_cases hj : j < P.natDegree + 1
  · simp [List.getElem?_range hj]
  · rw [coeff_eq_zero_of_natDegree_lt (by omega), List.getElem?_eq_none (by simpa using hj)]
    simp

/-- Congruence modulo g is what `IsProductModulo` says coefficient by coefficient. -/
theorem isProductModulo_of_dvd {q : Nat} [NeZero q] {g u v w : List Nat}
    (h : symbolPoly q g ∣ symbolPoly q u * symbolPoly q v - symbolPoly q w) :
    IsProductModulo q g u v w := by
  obtain ⟨P, hP⟩ := h
  obtain ⟨s, rfl⟩ := exists_symbolPoly_eq P
  refine ⟨s, fun j => (ZMod.natCast_eq_natCast_iff' _ _ q).1 ?_⟩
  rw [Nat.cast_add, natCast_productCoeff, natCast_productCoeff, ← coeff_symbolPoly, ← coeff_add,
    mul_comm (symbolPoly q s), ← hP, sub_add_cancel]

theorem symbolPoly_modulus (F : ExtField) : symbolPoly F.q (F.f ++ [1]) = F.modulus := by
  rw [ExtField.modulus, codePoly, List.reverse_cons, List.reverse_reverse]

/-- The product is the polynomial product reduced modulo f (R99). -/
theorem mul_isProductModulo (F : ExtField) (hq : 1 < F.q) (hm : 1 ≤ F.m) (u : Elem) {v : Elem}
    (hv : F.IsElem v) : IsProductModulo F.q (F.f ++ [1]) u v (F.mul u v) := by
  have : NeZero F.q := ⟨by omega⟩
  refine isProductModulo_of_dvd ?_
  rw [symbolPoly_modulus, ← AdjoinRoot.mk_eq_mk, map_mul]
  exact (value_mul F hq hm u hv).symm

/-! ### Evaluations -/

section
variable {F : ExtField} (hq : 1 < F.q) (hm : 1 ≤ F.m) {u : Elem} (hu : F.IsElem u)
include hq hm

theorem wordPoly_isElem {w : Word} (hw : ∀ x ∈ w, x < F.q) : ∀ c ∈ F.wordPoly w, F.IsElem c := by
  intro c hc
  obtain ⟨x, hx, rfl⟩ := List.mem_map.1 hc
  exact emb_isElem F (by omega) hm (hw x (List.mem_reverse.1 hx))

/-- Horner's scheme sums the coefficients times the powers (R105). -/
theorem polyEval_spec {p : Poly} (hp : ∀ c ∈ p, F.IsElem c) (u : Elem) :
    F.IsElem (F.polyEval p u) ∧ F.value (F.polyEval p u)
      = ∑ j ∈ Finset.range p.length, F.value (p.getD j F.zero) * F.value u ^ j := by
  have hq' : 0 < F.q := by omega
  induction p with
  | nil => exact ⟨zero_isElem F hq', by simp [ExtField.polyEval, value_zero]⟩
  | cons c p ih =>
    obtain ⟨hc, hp⟩ := List.forall_mem_cons.1 hp
    obtain ⟨hrest, hval⟩ := ih hp
    have hmul := mul_isElem F hq' hm u hrest
    refine ⟨add_isElem F hq' hc hmul, ?_⟩
    rw [show F.polyEval (c :: p) u = F.add c (F.mul u (F.polyEval p u)) from rfl,
      value_add F (hc.1.trans hmul.1.symm), value_mul F hq hm u hrest, hval, List.length_cons,
      Finset.sum_range_succ', Finset.mul_sum, add_comm]
    simp only [List.getD_cons_succ, List.getD_cons_zero, pow_zero, mul_one, pow_succ', mul_left_comm]

omit hm in
theorem foldr_add_spec {term : Nat → Elem} (l : List Nat) (hterm : ∀ j ∈ l, F.IsElem (term j)) :
    F.IsElem (l.foldr (fun j acc => F.add (term j) acc) F.zero)
      ∧ F.value (l.foldr (fun j acc => F.add (term j) acc) F.zero)
        = (l.map fun j => F.value (term j)).sum := by
  have hq' : 0 < F.q := by omega
  induction l with
  | nil => exact ⟨zero_isElem F hq', by simp [value_zero]⟩
  | cons j l ih =>
    obtain ⟨hj, hl⟩ := List.forall_mem_cons.1 hterm
    obtain ⟨hrest, hval⟩ := ih hl
    refine ⟨add_isElem F hq' hj hrest, ?_⟩
    rw [List.foldr_cons, value_add F (hj.1.trans hrest.1.symm), hval, List.map_cons, List.sum_cons]

include hu in
/-- A word is evaluated as the sum of its symbols times the powers, the last symbol the constant
(R105, 00_scope.md R9). -/
theorem polyEval_wordPoly_eq_foldr {w : Word} (hw : ∀ x ∈ w, x < F.q) :
    F.polyEval (F.wordPoly w) u
      = (List.range w.length).foldr (fun j acc =>
          F.add (F.mul (F.emb (w.getD (w.length - 1 - j) 0)) (F.pow u j)) acc) F.zero := by
  have hpow (j : Nat) := pow_isElem F (by omega) hm hq hu j
  obtain ⟨hres, hval⟩ := polyEval_spec hq hm (wordPoly_isElem hq hm hw) u
  obtain ⟨hres', hval'⟩ := foldr_add_spec (F := F) hq
    (term := fun j => F.mul (F.emb (w.getD (w.length - 1 - j) 0)) (F.pow u j)) (List.range w.length)
    fun j _ => mul_isElem F (by omega) hm _ (hpow j)
  refine value_inj F hq hres hres' ?_
  rw [hval, hval']
  refine (Finset.sum_congr (by simp [ExtField.wordPoly]) fun j hj => ?_).trans
    (rfl : ∑ j ∈ Finset.range w.length, _ = _)
  have hj : j < w.length := Finset.mem_range.1 hj
  have hcoeff : (F.wordPoly w).getD j F.zero = F.emb (w.getD (w.length - 1 - j) 0) := by
    simp [ExtField.wordPoly, hj, show w.length - 1 - j < w.length by omega]
  rw [hcoeff, value_mul F hq hm _ (hpow j), value_pow F hq hm hu]

end

/-- Settles O51: the values of the model's products and evaluations are those of the quotient ring. -/
theorem fieldProductsAndRootExponentsFollowTheirRules :
    Obligations.FieldProductsAndRootExponentsFollowTheirRules := by
  intro q m hprime hm
  refine ⟨fun c d => ⟨rootExponents_nodup _ _ _ _ _, fun e =>
    mem_rootExponents_iff_exists hprime.two_le hm rfl c d e⟩, ?_⟩
  rintro F rfl ⟨rfl, -⟩
  exact ⟨fun u v _ hv => ⟨mul_isElem F hprime.pos hm u hv,
      mul_isProductModulo F hprime.one_lt hm u hv⟩,
    fun w u hw hu => polyEval_wordPoly_eq_foldr hprime.one_lt hm hu hw⟩

end Sys2Proof.Machine


/-! ## The algebra of error locators (43_bch.md R163 to R170)

Errors of weight `W l` at the points `x l`, l in T, have the power sums S_i = sum of W l * (x l)^i. The
polynomial with the points as roots spans the kernel of their Hankel system, its reverse is the locator
of R166, and the evaluator of R170 gives the weights back. -/

namespace Sys2Proof.Machine

open Polynomial

section
variable {ι K : Type} [CommRing K] (T : Finset ι) (x W : ι → K)

/-- The power sum S_i of the weights at the points. -/
def powerSum (i : Nat) : K := ∑ l ∈ T, W l * x l ^ i

/-- A row of the Hankel system applied to a polynomial's coefficients evaluates it at the points. -/
theorem sum_powerSum_mul_coeff (P : K[X]) {v : Nat} (hP : P.natDegree < v) (i : Nat) :
    ∑ j ∈ Finset.range v, powerSum T x W (i + j) * P.coeff j
      = powerSum T x (fun l => W l * P.eval (x l)) i := by
  simp only [powerSum, Finset.sum_mul]
  rw [Finset.sum_comm]
  refine Finset.sum_congr rfl fun l _ => ?_
  rw [eval_eq_sum_range' hP, Finset.mul_sum, Finset.sum_mul]
  exact Finset.sum_congr rfl fun j _ => by ring

/-- The polynomial with the points as roots solves the Hankel system of every size (R166). -/
theorem sum_powerSum_mul_coeff_nodal {v : Nat} (hv : (Lagrange.nodal T x).natDegree < v) (i : Nat) :
    ∑ j ∈ Finset.range v, powerSum T x W (i + j) * (Lagrange.nodal T x).coeff j = 0 := by
  rw [sum_powerSum_mul_coeff T x W _ hv, powerSum]
  exact Finset.sum_eq_zero fun l hl => by rw [Lagrange.eval_nodal_at_node hl, mul_zero, zero_mul]

section
variable {T x W} [IsDomain K] [DecidableEq ι] (hx : Set.InjOn x T)
include hx

/-- Weights at distinct points are fixed by as many power sums (R159). -/
theorem weight_eq_zero_of_powerSum {N : Nat} (hN : T.card ≤ N)
    (h : ∀ i < N, powerSum T x W i = 0) {l : ι} (hl : l ∈ T) : W l = 0 := by
  have hcard := Finset.card_pos.2 ⟨l, hl⟩
  have hdeg : (Lagrange.nodal (T.erase l) x).natDegree < N := by
    rw [Lagrange.natDegree_nodal, Finset.card_erase_of_mem hl]
    omega
  have hsum : powerSum T x (fun k => W k * (Lagrange.nodal (T.erase l) x).eval (x k)) 0 = 0 := by
    rw [← sum_powerSum_mul_coeff T x W _ hdeg]
    exact Finset.sum_eq_zero fun j hj => by
      rw [zero_add, h j (Finset.mem_range.1 hj), zero_mul]
  rw [powerSum, Finset.sum_eq_single_of_mem l hl fun k hk hkl => by
    rw [Lagrange.eval_nodal_at_node (Finset.mem_erase.2 ⟨hkl, hk⟩), mul_zero, zero_mul]] at hsum
  rw [pow_zero, mul_one] at hsum
  refine (mul_eq_zero.1 hsum).resolve_right (Lagrange.eval_nodal_not_at_node fun k hk heq => ?_)
  obtain ⟨hkl, hk⟩ := Finset.mem_erase.1 hk
  exact hkl (hx hk hl heq.symm)

/-- The Hankel matrix of as many rows as there are errors is nonsingular (R165, R166). -/
theorem eq_zero_of_hankel (hW : ∀ l ∈ T, W l ≠ 0) {z : Nat → K}
    (h : ∀ i < T.card, ∑ j ∈ Finset.range T.card, powerSum T x W (i + j) * z j = 0) {j : Nat}
    (hj : j < T.card) : z j = 0 := by
  let P : K[X] := coeffPoly id ((List.range T.card).map z)
  have hcoeff (j : Nat) (hj : j < T.card) : P.coeff j = z j := by
    simp [P, coeff_coeffPoly, hj]
  have hdeg : P.degree < T.card := by simpa [P] using degree_coeffPoly_lt id ((List.range T.card).map z)
  by_contra hne
  have hP : P ≠ 0 := fun hP => hne (by rw [← hcoeff j hj, hP, coeff_zero])
  have hroot (l : ι) (hl : l ∈ T) : P.eval (x l) = 0 := by
    refine (mul_eq_zero.1 (weight_eq_zero_of_powerSum (W := fun l => W l * P.eval (x l)) hx le_rfl
      (fun i hi => ?_) hl)).resolve_left (hW l hl)
    rw [← sum_powerSum_mul_coeff T x W P ((natDegree_lt_iff_degree_lt hP).2 hdeg), ← h i hi]
    exact Finset.sum_congr rfl fun j hj => by rw [hcoeff j (Finset.mem_range.1 hj)]
  exact hP (eq_zero_of_degree_lt_of_eval_index_eq_zero T hx hdeg hroot)

end

/-! ### The locator and the evaluator -/

/-- The locator is the product of 1 - x_l x (R166). -/
theorem reverse_nodal [IsDomain K] :
    (Lagrange.nodal T x).reverse = ∏ l ∈ T, (1 - C (x l) * X) := by
  classical
  have hfactor (a : K) : (X - C a).reverse = 1 - C a * X := by
    have hX : (X : K[X]).reverse = 1 := by rw [← one_mul X, reverse_mul_X, ← C_1, reverse_C]
    rw [sub_eq_add_neg, ← C_neg, reverse_add_C, hX, natDegree_X, pow_one, C_neg]
    ring
  induction T using Finset.induction_on with
  | empty => rw [Lagrange.nodal_empty, Finset.prod_empty, ← C_1, reverse_C]
  | insert l T hl ih =>
    rw [Lagrange.nodal_insert_eq_nodal hl, reverse_mul_of_domain, hfactor, ih,
      Finset.prod_insert hl]

/-- The error evaluator: the sum of each weight times the other factors of the locator (R170). -/
noncomputable def errorEvaluator [DecidableEq ι] : K[X] :=
  ∑ l ∈ T, C (W l) * ∏ k ∈ T.erase l, (1 - C (x k) * X)

/-- The power sums below N times the locator are the evaluator modulo x^N (R170). -/
theorem sum_powerSum_mul_locator [DecidableEq ι] (N : Nat) :
    (∑ j ∈ Finset.range N, C (powerSum T x W j) * X ^ j) * ∏ l ∈ T, (1 - C (x l) * X)
      = errorEvaluator T x W + X ^ N * -(errorEvaluator T x fun l => W l * x l ^ N) := by
  have hterm (l : ι) (hl : l ∈ T) :
      (∑ j ∈ Finset.range N, C (W l * x l ^ j) * X ^ j) * ∏ k ∈ T, (1 - C (x k) * X)
        = (C (W l) - X ^ N * C (W l * x l ^ N)) * ∏ k ∈ T.erase l, (1 - C (x k) * X) := by
    have hgeom := geom_sum_mul_neg (C (x l) * X) N
    rw [← Finset.mul_prod_erase T _ hl, ← mul_assoc]
    congr 1
    simp only [C_mul, C_pow, mul_assoc, ← mul_pow, ← Finset.mul_sum, hgeom]
    ring
  calc (∑ j ∈ Finset.range N, C (powerSum T x W j) * X ^ j) * ∏ l ∈ T, (1 - C (x l) * X)
      = ∑ l ∈ T, (∑ j ∈ Finset.range N, C (W l * x l ^ j) * X ^ j) * ∏ k ∈ T, (1 - C (x k) * X) := by
        simp only [powerSum, map_sum, Finset.sum_mul]
        exact Finset.sum_comm
    _ = ∑ l ∈ T, (C (W l) - X ^ N * C (W l * x l ^ N)) * ∏ k ∈ T.erase l, (1 - C (x k) * X) :=
        Finset.sum_congr rfl hterm
    _ = _ := by
        rw [errorEvaluator, errorEvaluator, mul_neg, ← sub_eq_add_neg, Finset.mul_sum,
          ← Finset.sum_sub_distrib]
        exact Finset.sum_congr rfl fun l _ => by ring

theorem natDegree_errorEvaluator_lt [DecidableEq ι] {N : Nat} (hN : T.card ≤ N) (hpos : 0 < N) :
    (errorEvaluator T x W).natDegree < N := by
  have hfactor (k : ι) : (1 - C (x k) * X).natDegree ≤ 1 := by compute_degree
  refine (natDegree_sum_le_of_forall_le T _ fun l hl => ?_ : _ ≤ N - 1).trans_lt (by omega)
  calc (C (W l) * ∏ k ∈ T.erase l, (1 - C (x k) * X)).natDegree
      ≤ ∑ k ∈ T.erase l, (1 - C (x k) * X).natDegree :=
        (natDegree_C_mul_le _ _).trans (natDegree_prod_le _ _)
    _ ≤ (T.erase l).card := by simpa using Finset.sum_le_card_nsmul _ _ 1 fun k _ => hfactor k
    _ ≤ N - 1 := by
        rw [Finset.card_erase_of_mem hl]
        omega

section
variable {T x W} [DecidableEq ι] {l : ι} (hl : l ∈ T) {u : K} (hu : x l * u = 1)
include hl hu

/-- At the inverse of a point the evaluator gives its weight times the other factors (R170). -/
theorem eval_errorEvaluator : (errorEvaluator T x W).eval u
    = W l * (∏ k ∈ T.erase l, (1 - C (x k) * X)).eval u := by
  rw [errorEvaluator, eval_finsetSum, Finset.sum_eq_single_of_mem l hl, eval_mul, eval_C]
  intro k _ hkl
  rw [eval_mul, eval_prod, Finset.prod_eq_zero (Finset.mem_erase.2 ⟨hkl.symm, hl⟩), mul_zero]
  simp [hu]

/-- At the inverse of a point the derivative of the locator is the other factors times the negated
point (R170). -/
theorem eval_derivative_locator : (derivative (∏ k ∈ T, (1 - C (x k) * X))).eval u
    = -x l * (∏ k ∈ T.erase l, (1 - C (x k) * X)).eval u := by
  rw [← Finset.mul_prod_erase T _ hl, derivative_mul]
  simp [hu]

/-- The other factors do not vanish (R169). -/
theorem eval_other_factors_ne_zero [IsDomain K] (hx : Set.InjOn x T) :
    (∏ k ∈ T.erase l, (1 - C (x k) * X)).eval u ≠ 0 := by
  rw [eval_prod, Finset.prod_ne_zero_iff]
  intro k hk hzero
  obtain ⟨hkl, hk⟩ := Finset.mem_erase.1 hk
  have hku : x k * u = 1 := by
    rw [eval_sub, eval_one, eval_C_mul, eval_X, sub_eq_zero] at hzero
    exact hzero.symm
  exact hkl (hx hk hl (mul_right_cancel₀ (right_ne_zero_of_mul_eq_one hu) (hku.trans hu.symm)))

end

end

end Sys2Proof.Machine


/-! ## Gaussian elimination over the extension (40_field_arithmetic.md R100, R111)

A row of coefficients with its right side is a linear form in the unknowns and one more variable, which
is -1 at a solution. `eliminate` decides where all the forms vanish: on the multiples of its answer, or,
when it answers nothing, at some point whose last coordinate is 0 and which is not 0. -/

namespace Sys2Proof.Machine

/-! ### Subtraction and inverses -/

theorem value_sub (F : ExtField) [NeZero F.q] {u v : Elem} (h : u.length = v.length) :
    F.value (F.sub u v) = F.value u - F.value v := by
  have hzip := coeffPoly_zipWith (fun x : Nat => (x : ZMod F.q)) (gfSub F.q) (-1) h
    fun a _ b _ => by simp [sub_eq_add_neg]
  rw [ExtField.value, ExtField.sub, symbolPoly, hzip]
  simp [ExtField.value, symbolPoly, sub_eq_add_neg]

section
variable {F : ExtField} (hF : F.Primitive)
include hF

theorem ExtField.Primitive.value_eq_zero_iff {u : Elem} (hu : F.IsElem u) :
    F.value u = 0 ↔ u = F.zero := by
  rw [← value_zero F]
  exact ⟨value_inj F hF.one_lt_q hu (zero_isElem F hF.prime.pos), congrArg _⟩

theorem ExtField.Primitive.inv_isElem {u : Elem} (hu : F.IsElem u) : F.IsElem (F.inv u) :=
  pow_isElem F hF.prime.pos hF.m_pos hF.one_lt_q hu _

/-- u^(n-1) is the inverse of u (R100). -/
theorem ExtField.Primitive.value_mul_inv {u : Elem} (hu : F.IsElem u) (hne : F.value u ≠ 0) :
    F.value u * F.value (F.inv u) = 1 := by
  obtain ⟨i, hi⟩ := hF.exists_pow_eq hne
  rw [ExtField.inv, value_pow F hF.one_lt_q hF.m_pos hu, ← pow_succ', Nat.sub_add_cancel hF.n_pos,
    ← hi, pow_right_comm, ← hF.orderOf_value, pow_orderOf_eq_one, one_pow]

end

/-! ### Rows as linear forms -/

/-- The linear form of a row. -/
noncomputable def ExtField.rowSum (F : ExtField) : List Elem → (Nat → F.Value) → F.Value
  | [], _ => 0
  | c :: r, z => F.value c * z 0 + F.rowSum r fun j => z (j + 1)

section
variable {F : ExtField}

theorem rowSum_eq_sum (r : List Elem) (z : Nat → F.Value) :
    F.rowSum r z = ∑ j ∈ Finset.range r.length, F.value (r.getD j F.zero) * z j := by
  induction r generalizing z with
  | nil => rfl
  | cons c r ih =>
    rw [ExtField.rowSum, ih, List.length_cons, Finset.sum_range_succ', add_comm]
    rfl

theorem rowSum_congr {r : List Elem} {z z' : Nat → F.Value} (h : ∀ j < r.length, z j = z' j) :
    F.rowSum r z = F.rowSum r z' := by
  rw [rowSum_eq_sum, rowSum_eq_sum]
  exact Finset.sum_congr rfl fun j hj => by rw [h j (Finset.mem_range.1 hj)]

theorem rowSum_mul_left (r : List Elem) (x : F.Value) (z : Nat → F.Value) :
    F.rowSum r (fun j => x * z j) = x * F.rowSum r z := by
  rw [rowSum_eq_sum, rowSum_eq_sum, Finset.mul_sum]
  exact Finset.sum_congr rfl fun j _ => mul_left_comm _ _ _

theorem rowSum_concat (r : List Elem) (b : Elem) (z : Nat → F.Value) :
    F.rowSum (r ++ [b]) z = F.rowSum r z + F.value b * z r.length := by
  induction r generalizing z with
  | nil => simp [ExtField.rowSum]
  | cons c r ih => simp [ExtField.rowSum, ih, add_assoc]

theorem rowSum_sub [NeZero F.q] {p r : List Elem} (hp : ∀ c ∈ p, F.IsElem c)
    (hr : ∀ c ∈ r, F.IsElem c) (h : p.length = r.length) (z : Nat → F.Value) :
    F.rowSum (List.zipWith F.sub p r) z = F.rowSum p z - F.rowSum r z := by
  induction p generalizing r z with
  | nil =>
    obtain rfl : r = [] := List.eq_nil_of_length_eq_zero h.symm
    simp [ExtField.rowSum]
  | cons c p ih =>
    cases r with
    | nil => simp at h
    | cons e r =>
      obtain ⟨hc, hp⟩ := List.forall_mem_cons.1 hp
      obtain ⟨he, hr⟩ := List.forall_mem_cons.1 hr
      simp only [List.zipWith_cons_cons, ExtField.rowSum, ih hp hr (by simpa using h),
        value_sub F (hc.1.trans he.1.symm)]
      ring

/-- A row of v + 1 elements. -/
abbrev ExtField.IsRow (F : ExtField) (v : Nat) (r : List Elem) : Prop :=
  r.length = v + 1 ∧ ∀ c ∈ r, F.IsElem c

/-- All the forms vanish at z. -/
def ExtField.Annihilates (F : ExtField) (rows : List (List Elem)) (z : Nat → F.Value) : Prop :=
  ∀ r ∈ rows, F.rowSum r z = 0

end

/-! ### One step of the elimination -/

/-- The pivot row divided by its leading entry, without it. -/
def ExtField.unitRow (F : ExtField) (pivot : List Elem) : List Elem :=
  pivot.tail.map (F.mul (F.inv (pivot.headD F.zero)))

/-- A row less the multiple of the unit row that clears its leading entry, without it. -/
def ExtField.reduceRow (F : ExtField) (unitRow row : List Elem) : List Elem :=
  List.zipWith F.sub row.tail (unitRow.map (F.mul (row.headD F.zero)))

/-- The unknown of the pivot, from the others. -/
def ExtField.backSolve (F : ExtField) (unitRow ys : List Elem) : Elem :=
  F.sub (unitRow.getLastD F.zero) (F.dotF unitRow.dropLast ys)

section
variable {F : ExtField} {v : Nat} {rows others : List (List Elem)} {pivot : List Elem}

theorem eliminate_of_no_pivot (h : F.takePivot rows = none) : F.eliminate (v + 1) rows = none := by
  simp only [ExtField.eliminate, h]

theorem eliminate_of_pivot (h : F.takePivot rows = some (pivot, others)) :
    F.eliminate (v + 1) rows = (F.eliminate v (others.map (F.reduceRow (F.unitRow pivot)))).map
      fun ys => F.backSolve (F.unitRow pivot) ys :: ys := by
  rw [ExtField.eliminate, h]
  dsimp only
  change (match F.eliminate v (others.map (F.reduceRow (F.unitRow pivot))) with
    | none => none
    | some ys => some (F.backSolve (F.unitRow pivot) ys :: ys)) = _
  cases F.eliminate v (others.map (F.reduceRow (F.unitRow pivot))) <;> rfl

theorem takePivot_none (h : F.takePivot rows = none) : ∀ r ∈ rows, r.headD F.zero = F.zero := by
  induction rows with
  | nil => simp
  | cons row rows ih =>
    unfold ExtField.takePivot at h
    split at h
    · simp at h
    · rename_i hzero
      exact List.forall_mem_cons.2 ⟨by simpa using hzero, ih (by simpa using h)⟩

theorem takePivot_some (h : F.takePivot rows = some (pivot, others)) :
    pivot.headD F.zero ≠ F.zero ∧ ∀ r, r ∈ rows ↔ r = pivot ∨ r ∈ others := by
  induction rows generalizing others with
  | nil => simp [ExtField.takePivot] at h
  | cons row rows ih =>
    unfold ExtField.takePivot at h
    split at h
    · rename_i hne
      obtain ⟨rfl, rfl⟩ : row = pivot ∧ rows = others := by simpa using h
      exact ⟨by simpa using hne, fun r => List.mem_cons⟩
    · obtain ⟨found, hfound, hpair⟩ := Option.map_eq_some_iff.1 h
      obtain ⟨rfl, rfl⟩ : found.1 = pivot ∧ row :: found.2 = others := by simpa using hpair
      obtain ⟨hne, hmem⟩ := ih hfound
      exact ⟨hne, fun r => by rw [List.mem_cons, hmem, List.mem_cons, or_left_comm]⟩

end

section
variable {F : ExtField} (hF : F.Primitive) {v : Nat}
include hF

theorem ExtField.Primitive.rowSum_map_mul (u : Elem) {r : List Elem} (hr : ∀ c ∈ r, F.IsElem c)
    (z : Nat → F.Value) : F.rowSum (r.map (F.mul u)) z = F.value u * F.rowSum r z := by
  induction r generalizing z with
  | nil => simp [ExtField.rowSum]
  | cons c r ih =>
    obtain ⟨hc, hr⟩ := List.forall_mem_cons.1 hr
    simp only [List.map_cons, ExtField.rowSum, ih hr, value_mul F hF.one_lt_q hF.m_pos u hc]
    ring

theorem ExtField.Primitive.map_mul_isElem (u : Elem) {r : List Elem} (hr : ∀ c ∈ r, F.IsElem c) :
    ∀ c ∈ r.map (F.mul u), F.IsElem c := by
  intro c hc
  obtain ⟨e, he, rfl⟩ := List.mem_map.1 hc
  exact mul_isElem F hF.prime.pos hF.m_pos u (hr e he)

theorem ExtField.Primitive.unitRow_isRow {pivot : List Elem} (h : F.IsRow (v + 1) pivot) :
    F.IsRow v (F.unitRow pivot) :=
  ⟨by simp [ExtField.unitRow, h.1],
    hF.map_mul_isElem _ fun c hc => h.2 c (List.mem_of_mem_tail hc)⟩

theorem ExtField.Primitive.reduceRow_isRow {u r : List Elem} (hu : F.IsRow v u)
    (hr : F.IsRow (v + 1) r) : F.IsRow v (F.reduceRow u r) := by
  refine ⟨by simp [ExtField.reduceRow, hu.1, hr.1], fun c hc => ?_⟩
  obtain ⟨i, hi, rfl⟩ := List.getElem_of_mem hc
  have hmul := hF.map_mul_isElem (r.headD F.zero) hu.2
  simp only [ExtField.reduceRow, List.getElem_zipWith]
  exact wordOver_wSub hF.prime.pos (hr.2 _ (List.mem_of_mem_tail (List.getElem_mem _))).1
    (hmul _ (List.getElem_mem _)).1

/-- The pivot row gives its unknown from the others. -/
theorem ExtField.Primitive.rowSum_pivot_iff {pivot : List Elem} (h : F.IsRow v pivot)
    (hne : pivot.headD F.zero ≠ F.zero) (z : Nat → F.Value) :
    F.rowSum pivot z = 0 ↔ z 0 = -F.rowSum (F.unitRow pivot) fun j => z (j + 1) := by
  have := hF.isDomain
  cases pivot with
  | nil => exact absurd h.1 (by simp)
  | cons c r =>
    obtain ⟨hc, hr⟩ := List.forall_mem_cons.1 h.2
    have hunit := hF.value_mul_inv hc (mt (hF.value_eq_zero_iff hc).1 hne)
    rw [ExtField.unitRow, List.tail_cons, List.headD_cons, hF.rowSum_map_mul _ hr, ExtField.rowSum]
    constructor
    · intro hsum
      linear_combination (F.value (F.inv c)) * hsum - z 0 * hunit
    · intro hz
      rw [hz]
      linear_combination (-F.rowSum r fun j => z (j + 1)) * hunit

theorem ExtField.Primitive.rowSum_reduceRow {u r : List Elem} (hu : F.IsRow v u)
    (hr : F.IsRow (v + 1) r) {z : Nat → F.Value} (hz : z 0 = -F.rowSum u fun j => z (j + 1)) :
    F.rowSum (F.reduceRow u r) (fun j => z (j + 1)) = F.rowSum r z := by
  have : NeZero F.q := ⟨hF.prime.ne_zero⟩
  cases r with
  | nil => exact absurd hr.1 (by simp)
  | cons c r =>
    obtain ⟨hc, hr'⟩ := List.forall_mem_cons.1 hr.2
    have hlen : r.length = (u.map (F.mul c)).length := by simpa [hu.1] using hr.1
    rw [ExtField.reduceRow, List.tail_cons, List.headD_cons,
      rowSum_sub hr' (hF.map_mul_isElem c hu.2) hlen, hF.rowSum_map_mul c hu.2, ExtField.rowSum, hz]
    ring

/-- Eliminating keeps the points where the forms vanish. -/
theorem ExtField.Primitive.annihilates_iff {rows others : List (List Elem)} {pivot : List Elem}
    (hrows : ∀ r ∈ rows, F.IsRow (v + 1) r) (h : F.takePivot rows = some (pivot, others))
    (z : Nat → F.Value) :
    F.Annihilates rows z ↔ (z 0 = -F.rowSum (F.unitRow pivot) fun j => z (j + 1))
      ∧ F.Annihilates (others.map (F.reduceRow (F.unitRow pivot))) fun j => z (j + 1) := by
  obtain ⟨hne, hmem⟩ := takePivot_some h
  have hpivot := hrows pivot ((hmem pivot).2 (.inl rfl))
  simp only [ExtField.Annihilates, hmem, forall_eq_or_imp, hF.rowSum_pivot_iff hpivot hne,
    List.forall_mem_map]
  refine and_congr_right fun hz => forall₂_congr fun r hr => ?_
  rw [hF.rowSum_reduceRow (hF.unitRow_isRow hpivot) (hrows r ((hmem r).2 (.inr hr))) hz]

theorem ExtField.Primitive.reduced_isRow {rows others : List (List Elem)} {pivot : List Elem}
    (hrows : ∀ r ∈ rows, F.IsRow (v + 1) r) (h : F.takePivot rows = some (pivot, others)) :
    ∀ r ∈ others.map (F.reduceRow (F.unitRow pivot)), F.IsRow v r := by
  obtain ⟨-, hmem⟩ := takePivot_some h
  have hunit := hF.unitRow_isRow (hrows pivot ((hmem pivot).2 (.inl rfl)))
  exact List.forall_mem_map.2 fun r hr => hF.reduceRow_isRow hunit (hrows r ((hmem r).2 (.inr hr)))

/-! ### What the elimination answers -/

theorem ExtField.Primitive.value_dotF {u ys : List Elem} (hlen : u.length = ys.length)
    (hys : ∀ c ∈ ys, F.IsElem c) : F.IsElem (F.dotF u ys)
      ∧ F.value (F.dotF u ys) = F.rowSum u fun j => F.value (ys.getD j F.zero) := by
  induction u generalizing ys with
  | nil => exact ⟨zero_isElem F hF.prime.pos, value_zero F⟩
  | cons c u ih =>
    cases ys with
    | nil => simp at hlen
    | cons y ys =>
      obtain ⟨hy, hys⟩ := List.forall_mem_cons.1 hys
      obtain ⟨hrest, hval⟩ := ih (by simpa using hlen) hys
      have hmul := mul_isElem F hF.prime.pos hF.m_pos c hy
      refine ⟨add_isElem F hF.prime.pos hmul hrest, ?_⟩
      rw [show F.dotF (c :: u) (y :: ys) = F.add (F.mul c y) (F.dotF u ys) from rfl,
        value_add F (hmul.1.trans hrest.1.symm), hval, value_mul F hF.one_lt_q hF.m_pos c hy]
      rfl

theorem ExtField.Primitive.backSolve_spec {u ys : List Elem} (hu : F.IsRow v u)
    (hlen : ys.length = v) (hys : ∀ c ∈ ys, F.IsElem c) {z : Nat → F.Value}
    (hz : ∀ j < v, z j = -z v * F.value (ys.getD j F.zero)) : F.IsElem (F.backSolve u ys)
      ∧ -F.rowSum u z = -z v * F.value (F.backSolve u ys) := by
  have : NeZero F.q := ⟨hF.prime.ne_zero⟩
  obtain rfl | ⟨r, b, rfl⟩ := List.eq_nil_or_concat u
  · exact absurd hu.1 (by simp)
  rw [List.concat_eq_append] at hu ⊢
  have hr : r.length = v := by simpa using hu.1
  have hb : F.IsElem b := hu.2 b (by simp)
  obtain ⟨hdot, hval⟩ := hF.value_dotF (hr.trans hlen.symm) hys
  have hback : F.backSolve (r ++ [b]) ys = F.sub b (F.dotF r ys) := by simp [ExtField.backSolve]
  rw [hback]
  refine ⟨wordOver_wSub hF.prime.pos hb.1 hdot.1, ?_⟩
  rw [rowSum_concat, hr, rowSum_congr fun j hj => hz j (hr ▸ hj), rowSum_mul_left, ← hval,
    value_sub F (hb.1.trans hdot.1.symm)]
  ring

/-- The forms vanish only on the multiples of the answer followed by -1 (R111). -/
theorem ExtField.Primitive.eliminate_some {rows : List (List Elem)} {y : List Elem}
    (hrows : ∀ r ∈ rows, F.IsRow v r) (h : F.eliminate v rows = some y) :
    (∀ c ∈ y, F.IsElem c) ∧ ∀ z, F.Annihilates rows z →
      ∀ j < v, z j = -z v * F.value (y.getD j F.zero) := by
  induction v generalizing rows y with
  | zero =>
    obtain rfl : [] = y := by simpa [ExtField.eliminate] using h
    exact ⟨by simp, fun z _ j hj => absurd hj (Nat.not_lt_zero j)⟩
  | succ v ih =>
    cases hpivot : F.takePivot rows with
    | none => simp [eliminate_of_no_pivot hpivot] at h
    | some found =>
      obtain ⟨pivot, others⟩ := found
      rw [eliminate_of_pivot hpivot] at h
      obtain ⟨ys, hys, rfl⟩ := Option.map_eq_some_iff.1 h
      obtain ⟨helem, hsol⟩ := ih (hF.reduced_isRow hrows hpivot) hys
      have hunit := hF.unitRow_isRow
        (hrows pivot (((takePivot_some hpivot).2 pivot).2 (.inl rfl)))
      have hback {z : Nat → F.Value} := hF.backSolve_spec (z := z) hunit (eliminate_length hys) helem
      refine ⟨List.forall_mem_cons.2 ⟨(hback (z := 0) (by simp)).1, helem⟩, fun z hz j hj => ?_⟩
      obtain ⟨hz0, hrest⟩ := (hF.annihilates_iff hrows hpivot z).1 hz
      cases j with
      | zero => exact hz0.trans (hback (hsol _ hrest)).2
      | succ j => exact hsol _ hrest j (by omega)

/-- Without an answer the matrix is singular (R111). -/
theorem ExtField.Primitive.eliminate_none {rows : List (List Elem)}
    (hrows : ∀ r ∈ rows, F.IsRow v r) (h : F.eliminate v rows = none) :
    ∃ z, F.Annihilates rows z ∧ z v = 0 ∧ ∃ j < v, z j ≠ 0 := by
  induction v generalizing rows with
  | zero => simp [ExtField.eliminate] at h
  | succ v ih =>
    have := hF.nontrivial_value
    cases hpivot : F.takePivot rows with
    | none =>
      refine ⟨Pi.single 0 1, fun r hr => ?_, by simp, 0, by omega, by simp⟩
      have hhead := takePivot_none hpivot r hr
      cases r with
      | nil => rfl
      | cons c r =>
        obtain rfl : c = F.zero := hhead
        simp [ExtField.rowSum, value_zero, rowSum_eq_sum]
    | some found =>
      obtain ⟨pivot, others⟩ := found
      rw [eliminate_of_pivot hpivot, Option.map_eq_none_iff] at h
      obtain ⟨z, hz, hlast, j, hj, hne⟩ := ih (hF.reduced_isRow hrows hpivot) h
      let z' : Nat → F.Value := fun j => j.casesOn (-F.rowSum (F.unitRow pivot) z) z
      exact ⟨z', (hF.annihilates_iff hrows hpivot z').2 ⟨rfl, hz⟩, hlast, j + 1, by omega, hne⟩

end

end Sys2Proof.Machine


/-! ## The error locator that the decoder finds (43_bch.md R165, R166) -/

namespace Sys2Proof.Machine

open Polynomial

/-- Row i of the Hankel system of size v, with its right side (43_bch.md R165, R166). -/
def hankelRow (F : ExtField) (S : List Elem) (v i : Nat) : List Elem :=
  ((List.range v).map fun j => S.getD (i + j) F.zero) ++ [F.neg (S.getD (i + v) F.zero)]

theorem solve_hankel (F : ExtField) (S : List Elem) (v : Nat) :
    F.solve (hankel F S v) (hankelRhs F S v)
      = F.eliminate v ((List.range v).map (hankelRow F S v)) := by
  simp only [ExtField.solve, hankel, hankelRhs, List.length_map, List.length_range, List.zipWith_map,
    List.zipWith_self]
  rfl

/-- S lists the first power sums of the weights W at the points x. -/
structure ExtField.IsPowerSums (F : ExtField) {ι : Type} (T : Finset ι) (x W : ι → F.Value)
    (S : List Elem) : Prop where
  elem : ∀ c ∈ S, F.IsElem c
  value : ∀ i < S.length, F.value (S.getD i F.zero) = powerSum T x W i

section
variable {F : ExtField} (hF : F.Primitive) {ι : Type} {T : Finset ι} {x W : ι → F.Value}
  {S : List Elem} (hS : F.IsPowerSums T x W S) {v : Nat}
include hF hS

theorem ExtField.Primitive.hankelRow_isRow (v i : Nat) : F.IsRow v (hankelRow F S v i) := by
  have hget (j : Nat) : F.IsElem (S.getD j F.zero) := by
    by_cases hj : j < S.length
    · rw [List.getD_eq_getElem _ _ hj]
      exact hS.elem _ (List.getElem_mem hj)
    · rw [List.getD_eq_default _ _ (by omega)]
      exact zero_isElem F hF.prime.pos
  refine ⟨by simp [hankelRow], fun c hc => ?_⟩
  obtain hc | hc := List.mem_append.1 hc
  · obtain ⟨j, -, rfl⟩ := List.mem_map.1 hc
    exact hget _
  · exact List.mem_singleton.1 hc ▸ neg_isElem F hF.prime.pos (hget _)

/-- The linear forms of the Hankel system in the power sums. -/
theorem ExtField.Primitive.annihilates_hankel_iff (hv : 2 * v ≤ S.length) (z : Nat → F.Value) :
    F.Annihilates ((List.range v).map (hankelRow F S v)) z
      ↔ ∀ i < v, ∑ j ∈ Finset.range v, powerSum T x W (i + j) * z j
          = powerSum T x W (i + v) * z v := by
  have : NeZero F.q := ⟨hF.prime.ne_zero⟩
  simp only [ExtField.Annihilates, List.forall_mem_map, List.mem_range]
  refine forall₂_congr fun i hi => ?_
  rw [hankelRow, rowSum_concat, rowSum_eq_sum, value_neg, hS.value (i + v) (by omega), neg_mul,
    ← sub_eq_add_neg, sub_eq_zero, List.length_map, List.length_range]
  refine Eq.congr (Finset.sum_congr rfl fun j hj => ?_) rfl
  have hj : j < v := Finset.mem_range.1 hj
  rw [← hS.value (i + j) (by omega)]
  simp [hj]

/-- A Hankel system with an answer has as many rows as there are errors, and its answer is made of the
coefficients of the polynomial with the points as roots: that polynomial solves every system. -/
theorem ExtField.Primitive.solve_hankel_some (hT : T.card ≤ v) (hv : 2 * v ≤ S.length)
    {y : List Elem} (h : F.solve (hankel F S v) (hankelRhs F S v) = some y) :
    v = T.card ∧ (∀ c ∈ y, F.IsElem c)
      ∧ ∀ j < v, F.value (y.getD j F.zero) = (Lagrange.nodal T x).coeff j := by
  have := hF.nontrivial_value
  have hdeg : (Lagrange.nodal T x).natDegree = T.card := Lagrange.natDegree_nodal
  have hlead : (Lagrange.nodal T x).coeff T.card = 1 := hdeg ▸ Lagrange.nodal_monic.coeff_natDegree
  rw [solve_hankel] at h
  obtain ⟨helem, hsol⟩ := hF.eliminate_some
    (List.forall_mem_map.2 fun i _ => hF.hankelRow_isRow hS v i) h
  have hcoeff (j : Nat) (hj : j < v) : (Lagrange.nodal T x).coeff j
      = (Lagrange.nodal T x).coeff v * F.value (y.getD j F.zero) := by
    let z := Function.update (Lagrange.nodal T x).coeff v (-(Lagrange.nodal T x).coeff v)
    have hz (j : Nat) (hj : j < v) : z j = (Lagrange.nodal T x).coeff j :=
      Function.update_of_ne hj.ne _ _
    have hann : F.Annihilates ((List.range v).map (hankelRow F S v)) z := by
      refine (hF.annihilates_hankel_iff hS hv z).2 fun i _ => ?_
      have hsum := sum_powerSum_mul_coeff_nodal T x W (v := v + 1) (by omega) i
      rw [Finset.sum_range_succ] at hsum
      rw [Finset.sum_congr rfl fun j hj => by rw [hz j (Finset.mem_range.1 hj)],
        eq_neg_of_add_eq_zero_left hsum]
      simp [z]
    rw [← hz j hj, hsol z hann j hj]
    simp [z]
  obtain rfl | hlt := hT.eq_or_lt
  · exact ⟨rfl, helem, fun j hj => by rw [hcoeff j hj, hlead, one_mul]⟩
  · have hzero := hcoeff T.card hlt
    rw [hlead, coeff_eq_zero_of_natDegree_lt (hdeg ▸ hlt), zero_mul] at hzero
    exact absurd hzero one_ne_zero

variable (hx : Set.InjOn x T) (hW : ∀ l ∈ T, W l ≠ 0)
include hx hW

/-- The system of as many rows as there are errors has an answer. -/
theorem ExtField.Primitive.solve_hankel_ne_none (hv : 2 * T.card ≤ S.length) :
    F.solve (hankel F S T.card) (hankelRhs F S T.card) ≠ none := by
  classical
  have := hF.isDomain
  intro h
  rw [solve_hankel] at h
  obtain ⟨z, hz, hlast, j, hj, hne⟩ := hF.eliminate_none
    (List.forall_mem_map.2 fun i _ => hF.hankelRow_isRow hS T.card i) h
  refine hne (eq_zero_of_hankel hx hW (fun i hi => ?_) hj)
  rw [(hF.annihilates_hankel_iff hS hv z).1 hz i hi, hlast, mul_zero]

/-- The back-off stops at the number of errors, with the locator of R166. -/
theorem ExtField.Primitive.errorLocator_spec {t : Nat} (hpos : 0 < T.card) (hT : T.card ≤ t)
    (ht : 2 * t ≤ S.length) : ∃ locator, errorLocator F S t = some locator
      ∧ locator.length = T.card + 1 ∧ (∀ c ∈ locator, F.IsElem c)
      ∧ coeffPoly F.value locator = (Lagrange.nodal T x).reverse := by
  have := hF.nontrivial_value
  induction t with
  | zero => omega
  | succ v ih =>
    unfold errorLocator
    cases hsolve : F.solve (hankel F S (v + 1)) (hankelRhs F S (v + 1)) with
    | none =>
      have hne : T.card ≠ v + 1 := fun heq =>
        hF.solve_hankel_ne_none hS hx hW (heq ▸ ht) (heq ▸ hsolve)
      exact ih (by omega) (by omega)
    | some y =>
      obtain ⟨heq, helem, hcoeff⟩ := hF.solve_hankel_some hS hT ht hsolve
      have hlen : y.length = T.card := by
        rw [solve_hankel] at hsolve
        rw [eliminate_length hsolve, heq]
      have hone : F.IsElem F.one := emb_isElem F hF.prime.pos hF.m_pos hF.one_lt_q
      have hdeg : (Lagrange.nodal T x).natDegree = T.card := Lagrange.natDegree_nodal
      refine ⟨_, rfl, by simp [hlen], List.forall_mem_cons.2 ⟨hone, by simpa using helem⟩, ?_⟩
      ext j
      rw [coeff_coeffPoly, coeff_reverse, hdeg]
      cases j with
      | zero =>
        rw [revAt_zero, ← hdeg, Lagrange.nodal_monic.coeff_natDegree]
        exact value_one F
      | succ j =>
        by_cases hj : j < T.card
        · rw [revAt_le hj, ← hcoeff _ (by omega)]
          simp [hlen, hj, show T.card - (j + 1) = T.card - 1 - j by omega,
            show T.card - 1 - j < T.card by omega]
        · rw [revAt_eq_self_of_lt (by omega), coeff_eq_zero_of_natDegree_lt (by omega),
            List.getElem?_eq_none (by simp; omega), Option.elim_none]

end

end Sys2Proof.Machine


/-! ## The polynomials of the decoder, and Forney's value (43_bch.md R167, R168, R170) -/

namespace Sys2Proof.Machine

open Polynomial

/-- Cutting a list at N keeps the part of its polynomial below x^N (40_field_arithmetic.md R106). -/
theorem coeffPoly_take_eq {A R : Type} [CommRing R] (φ : A → R) {p : List A} {N : Nat} {P Q : R[X]}
    (h : coeffPoly φ p = P + X ^ N * Q) (hP : P.natDegree < N) : coeffPoly φ (p.take N) = P := by
  ext j
  have hj := congrArg (coeff · j) h
  simp only [coeff_coeffPoly, coeff_add, coeff_X_pow_mul'] at hj
  rw [coeff_coeffPoly, List.getElem?_take]
  by_cases hlt : j < N
  · rw [if_pos hlt, hj, if_neg (by omega), add_zero]
  · rw [if_neg hlt, coeff_eq_zero_of_natDegree_lt (by omega), Option.elim_none]

theorem trunc_isElem {F : ExtField} {p : Poly} (hp : ∀ c ∈ p, F.IsElem c) (N : Nat) :
    ∀ c ∈ trunc p N, F.IsElem c := fun c hc => hp c (List.mem_of_mem_take hc)

/-- The factor X^(1-c) and the derivative leave the error's value, negated (R170). -/
theorem forney_cancel {K : Type} [CommRing K] {A x Y Q p v : K} (hA : A * p = x) (hv : -x * Q * v = 1) :
    -(A * (Y * p * Q) * v) = Y := by
  linear_combination (-Y * Q * v) * hA + Y * hv

theorem coeffPoly_deriv (F : ExtField) (p : Poly) :
    coeffPoly F.value (F.deriv p) = derivative (coeffPoly F.value p) := by
  ext j
  rw [coeff_derivative, coeff_coeffPoly, coeff_coeffPoly, ExtField.deriv, List.getElem?_mapIdx,
    List.getElem?_tail]
  cases p[j + 1]? with
  | none => simp
  | some c => simp [ExtField.smul, value_wScale, mul_comm]

theorem chienRoots_nodup (F : ExtField) (locator : Poly) : (chienRoots F locator).Nodup :=
  List.nodup_range.filter _

theorem errorExponent_involutive {n i : Nat} (hi : i < n) :
    errorExponent n (errorExponent n i) = i := by
  unfold errorExponent
  rcases Nat.eq_zero_or_pos i with rfl | hpos
  · simp
  · rw [Nat.mod_eq_of_lt (show n - i < n by omega), Nat.sub_sub_self hi.le, Nat.mod_eq_of_lt hi]

theorem errorExponent_lt {n i : Nat} (hi : i < n) : errorExponent n i < n :=
  Nat.mod_lt _ (by omega)

section
variable {F : ExtField} (hF : F.Primitive)
include hF

theorem ExtField.Primitive.coeffPoly_polyMul {p r : Poly} (hp : ∀ c ∈ p, F.IsElem c)
    (hr : ∀ c ∈ r, F.IsElem c) : (∀ c ∈ F.polyMul p r, F.IsElem c)
      ∧ coeffPoly F.value (F.polyMul p r) = coeffPoly F.value p * coeffPoly F.value r := by
  induction p with
  | nil => exact ⟨by simp [ExtField.polyMul], by simp [ExtField.polyMul, coeffPoly]⟩
  | cons c p ih =>
    obtain ⟨hc, hp⟩ := List.forall_mem_cons.1 hp
    obtain ⟨hrest, hval⟩ := ih hp
    obtain ⟨helem, hsum⟩ := hF.coeffPoly_polyAdd (hF.map_mul_isElem c hr)
      (List.forall_mem_cons.2 ⟨zero_isElem F hF.prime.pos, hrest⟩)
    refine ⟨helem, ?_⟩
    rw [ExtField.polyMul, hsum, coeffPoly, coeffPoly, hval, value_zero, C_0,
      coeffPoly_map_mul _ F.value _ (F.value c) fun e he =>
        value_mul F hF.one_lt_q hF.m_pos c (hr e he)]
    ring

theorem ExtField.Primitive.deriv_isElem {p : Poly} (hp : ∀ c ∈ p, F.IsElem c) :
    ∀ c ∈ F.deriv p, F.IsElem c := by
  intro c hc
  obtain ⟨i, hi, rfl⟩ := List.getElem_of_mem hc
  simp only [ExtField.deriv, List.getElem_mapIdx]
  exact wordOver_wScale hF.prime.pos _ (hp _ (List.mem_of_mem_tail (List.getElem_mem _))).1

/-- A negative power, from the one it cancels (40_field_arithmetic.md R100, R102). -/
theorem ExtField.Primitive.value_apow_mul (l off : Nat) :
    F.value (F.apow ((l : Int) * (1 - (off : Int)))) * (F.value F.a ^ l) ^ off = F.value F.a ^ l := by
  rw [ExtField.apow, value_pow F hF.one_lt_q hF.m_pos hF.a_elem, ← pow_mul, ← pow_add,
    ← pow_mod_orderOf, hF.orderOf_value, ← pow_mod_orderOf (F.value F.a) l, hF.orderOf_value]
  congr 1
  have hpos := hF.n_pos
  zify
  rw [Int.toNat_of_nonneg (Int.emod_nonneg _ (by omega)), Int.emod_add_emod]
  congr 1
  ring

/-! ### The Chien search -/

theorem ExtField.Primitive.pow_errorExponent_mul {i : Nat} (hi : i < F.n) :
    F.value F.a ^ errorExponent F.n i * F.value F.a ^ i = 1 := by
  rw [errorExponent, ← hF.orderOf_value, pow_mod_orderOf, hF.orderOf_value, ← pow_add,
    Nat.sub_add_cancel hi.le, ← hF.orderOf_value, pow_orderOf_eq_one]

theorem ExtField.Primitive.pow_inj {k l : Nat} (hk : k < F.n) (hl : l < F.n)
    (h : F.value F.a ^ k = F.value F.a ^ l) : k = l :=
  pow_injOn_Iio_orderOf (hF.orderOf_value.symm ▸ hk) (hF.orderOf_value.symm ▸ hl) h

theorem ExtField.Primitive.pow_injOn {T : Finset Nat} (hT : ∀ l ∈ T, l < F.n) :
    Set.InjOn (fun l => F.value F.a ^ l) T := fun _ hk _ hl => hF.pow_inj (hT _ hk) (hT _ hl)

section
variable {T : Finset Nat} (hT : ∀ l ∈ T, l < F.n) {locator : Poly}
  (helem : ∀ c ∈ locator, F.IsElem c)
  (hlocator : coeffPoly F.value locator = ∏ l ∈ T, (1 - C (F.value F.a ^ l) * X))
include hT helem hlocator

/-- The roots are at the inverses of the error locators (R167, R168). -/
theorem ExtField.Primitive.mem_chienRoots_iff (i : Nat) :
    i ∈ chienRoots F locator ↔ i < F.n ∧ errorExponent F.n i ∈ T := by
  have := hF.isDomain
  rw [chienRoots, List.mem_filter, List.mem_range, beq_iff_eq]
  refine and_congr_right fun hi => ?_
  obtain ⟨hres, hval⟩ := hF.value_polyEval helem (F.apow i)
  rw [hlocator, hF.value_apow, eval_prod] at hval
  rw [← hF.value_eq_zero_iff hres, hval, Finset.prod_eq_zero_iff]
  have hroot (l : Nat) : (1 - C (F.value F.a ^ l) * X).eval (F.value F.a ^ i) = 0
      ↔ F.value F.a ^ l = F.value F.a ^ errorExponent F.n i := by
    rw [eval_sub, eval_one, eval_C_mul, eval_X, sub_eq_zero, ← hF.pow_errorExponent_mul hi]
    exact eq_comm.trans (hF.isUnit_value.pow i).mul_left_inj
  simp only [hroot]
  constructor
  · rintro ⟨l, hl, heq⟩
    exact hF.pow_inj (hT l hl) (errorExponent_lt hi) heq ▸ hl
  · exact fun hmem => ⟨_, hmem, rfl⟩

/-- There are as many roots as errors (R169). -/
theorem ExtField.Primitive.chienRoots_length : (chienRoots F locator).length = T.card := by
  have hmem := hF.mem_chienRoots_iff hT helem hlocator
  rw [← List.toFinset_card_of_nodup (chienRoots_nodup F locator)]
  refine Finset.card_nbij' (errorExponent F.n) (errorExponent F.n) (fun i hi => ?_) (fun l hl => ?_)
    (fun i hi => ?_) fun l hl => errorExponent_involutive (hT l hl)
  · exact ((hmem i).1 (List.mem_toFinset.1 hi)).2
  · have hl' := hT l hl
    exact List.mem_toFinset.2 ((hmem _).2 ⟨errorExponent_lt hl',
      (errorExponent_involutive hl').symm ▸ hl⟩)
  · exact errorExponent_involutive ((hmem i).1 (List.mem_toFinset.1 hi)).1

/-! ### Forney's value -/

omit hT in
/-- The evaluator of the decoder is that of the errors (R170). -/
theorem ExtField.Primitive.coeffPoly_evaluator {W : Nat → F.Value} {S : List Elem} {d : Nat}
    (hS : F.IsPowerSums T (fun l => F.value F.a ^ l) W S) (hd : S.length = d - 1)
    (hcard : T.card ≤ d - 1) (hpos : 0 < T.card) :
    coeffPoly F.value (evaluator F S locator d) = errorEvaluator T (fun l => F.value F.a ^ l) W := by
  have hsum : coeffPoly F.value S
      = ∑ j ∈ Finset.range (d - 1), C (powerSum T (fun l => F.value F.a ^ l) W j) * X ^ j := by
    ext i
    simp only [coeff_coeffPoly, finsetSum_coeff, coeff_C_mul, coeff_X_pow, mul_ite, mul_one, mul_zero,
      Finset.sum_ite_eq, Finset.mem_range, ← hd]
    split_ifs with hi
    · rw [← hS.value i hi]
      simp [hi]
    · simp [List.getElem?_eq_none (Nat.not_lt.1 hi)]
  have hprod := (hF.coeffPoly_polyMul hS.elem helem).2
  rw [hsum, hlocator, sum_powerSum_mul_locator] at hprod
  exact coeffPoly_take_eq _ hprod (natDegree_errorEvaluator_lt T _ _ hcard (by omega))

/-- At the root of an error the decoder computes its value (R170). -/
theorem ExtField.Primitive.value_forneyValue {Y : Nat → F.Value} {S : List Elem} {off d i : Nat}
    (hS : F.IsPowerSums T (fun l => F.value F.a ^ l) (fun l => Y l * (F.value F.a ^ l) ^ off) S)
    (hd : S.length = d - 1) (hcard : T.card ≤ d - 1) (hi : i < F.n) (hl : errorExponent F.n i ∈ T) :
    F.IsElem (forneyValue F off i locator (evaluator F S locator d))
      ∧ F.value (forneyValue F off i locator (evaluator F S locator d))
        = Y (errorExponent F.n i) := by
  have := hF.isDomain
  have : NeZero F.q := ⟨hF.prime.ne_zero⟩
  have hu := hF.pow_errorExponent_mul hi
  have hpos : 0 < T.card := Finset.card_pos.2 ⟨_, hl⟩
  have homega : ∀ c ∈ evaluator F S locator d, F.IsElem c :=
    trunc_isElem (hF.coeffPoly_polyMul hS.elem helem).1 _
  obtain ⟨hnum, hnumval⟩ := hF.value_polyEval homega (F.apow i)
  obtain ⟨hden, hdenval⟩ := hF.value_polyEval (hF.deriv_isElem helem) (F.apow i)
  rw [hF.coeffPoly_evaluator helem hlocator hS hd hcard hpos, hF.value_apow,
    eval_errorEvaluator hl hu] at hnumval
  rw [coeffPoly_deriv, hlocator, hF.value_apow, eval_derivative_locator hl hu] at hdenval
  have hother := eval_other_factors_ne_zero hl hu (hF.pow_injOn hT)
  have hne : F.value (F.polyEval (F.deriv locator) (F.apow i)) ≠ 0 := by
    rw [hdenval]
    exact mul_ne_zero (neg_ne_zero.2 (left_ne_zero_of_mul_eq_one hu)) hother
  have hinv := hF.value_mul_inv hden hne
  have hpow := hF.value_apow_mul (errorExponent F.n i) off
  have hmul {u v : Elem} (hv : F.IsElem v) := mul_isElem F hF.prime.pos hF.m_pos u hv
  refine ⟨neg_isElem F hF.prime.pos (hmul (hF.inv_isElem hden)), ?_⟩
  rw [forneyValue, ExtField.div, value_neg, value_mul F hF.one_lt_q hF.m_pos _ (hF.inv_isElem hden),
    value_mul F hF.one_lt_q hF.m_pos _ hnum, hnumval]
  exact forney_cancel hpow (hdenval ▸ hinv)

end

end

end Sys2Proof.Machine


/-! ## BCH decoding within the radius (43_bch.md R164, R172, R173) -/

namespace Sys2Proof.Machine

open Polynomial

/-! ### The correction of the roots -/

/-- With the value `err p` at each root's position p, the correction subtracts it there and leaves the
other symbols (R170). -/
theorem correctRoots_spec {F : ExtField} {off : Nat} {locator omega : Poly} {err : Nat → Nat}
    {roots : List Nat} (hnodup : (roots.map (errorPosition F.n)).Nodup)
    (hval : ∀ i ∈ roots, errorValue F off i locator omega = .ok (err (errorPosition F.n i)))
    (w : Word) :
    ∃ x, correctRoots F off locator omega roots w = .ok x ∧ x.length = w.length
      ∧ ∀ p (hp : p < x.length) (hp' : p < w.length),
        x[p] = if p ∈ roots.map (errorPosition F.n) then gfSub F.q w[p] (err p) else w[p] := by
  induction roots generalizing w with
  | nil => exact ⟨w, rfl, rfl, fun p _ _ => by simp⟩
  | cons i roots ih =>
    rw [List.map_cons, List.nodup_cons] at hnodup
    obtain ⟨hnotin, hnodup⟩ := hnodup
    obtain ⟨hi, hrest⟩ := List.forall_mem_cons.1 hval
    obtain ⟨x, hx, hlen, hsym⟩ := ih hnodup hrest
      (w.modify (errorPosition F.n i) fun y => gfSub F.q y (err (errorPosition F.n i)))
    rw [List.length_modify] at hlen
    refine ⟨x, by simp only [correctRoots, hi, hx], hlen, fun p hp hp' => ?_⟩
    rw [hsym p hp (by simpa using hp'), List.getElem_modify]
    by_cases hpi : errorPosition F.n i = p
    · subst hpi
      simp [hnotin]
    · simp [hpi, Ne.symm hpi]

/-! ### The word's polynomial and the errors -/

theorem coeff_codePoly (q : Nat) {w : Word} {l : Nat} (hl : l < w.length) :
    (codePoly q w).coeff l = (w.getD (w.length - 1 - l) 0 : Nat) := by
  rw [codePoly, coeff_symbolPoly]
  congr 1
  simp [hl, show w.length - 1 - l < w.length by omega]

/-- There is a term for each nonzero symbol. -/
theorem card_support_codePoly_le (q : Nat) (e : Word) : (codePoly q e).support.card ≤ wt e := by
  induction e with
  | nil => simp [codePoly_nil]
  | cons x e ih =>
    have hterm : (C (x : ZMod q) * X ^ e.length).support.card ≤ if x = 0 then 0 else 1 := by
      split_ifs with hx
      · simp [hx]
      · exact card_support_C_mul_X_pow_le_one
    calc (codePoly q (x :: e)).support.card
        ≤ (C (x : ZMod q) * X ^ e.length).support.card + (codePoly q e).support.card := by
          rw [codePoly_cons]
          exact (Finset.card_le_card support_add).trans (Finset.card_union_le _ _)
      _ ≤ (if x = 0 then 0 else 1) + wt e := Nat.add_le_add hterm ih
      _ = wt (x :: e) := by rw [wt_cons, add_comm]

theorem wordOver_getD_lt {q n : Nat} {w : Word} (hw : WordOver q n w) (hq : 0 < q) (p : Nat) :
    w.getD p 0 < q := by
  by_cases hp : p < w.length
  · rw [List.getD_eq_getElem _ _ hp]
    exact hw.2 _ (List.getElem_mem hp)
  · rwa [List.getD_eq_default _ _ (by omega)]

section
variable {F : ExtField}

theorem bchSyndromes_length (F : ExtField) (off d : Nat) (w : Word) : (bchSyndromes F off d w).length = d - 1 := by
  simp [bchSyndromes]

/-- The weight at an error's point: its value, times the factor that the root offset leaves in every
syndrome (R163). -/
noncomputable def ExtField.errorWeight (F : ExtField) (off : Nat) (E : (ZMod F.q)[X]) (l : Nat) :
    F.Value := algebraMap (ZMod F.q) F.Value (E.coeff l) * (F.value F.a ^ l) ^ off

theorem errorPosition_nodup (locator : Poly) :
    ((chienRoots F locator).map (errorPosition F.n)).Nodup := by
  refine (chienRoots_nodup F locator).map_on fun i hi k hk h => ?_
  have hi : i < F.n := List.mem_range.1 (List.mem_of_mem_filter hi)
  have hk : k < F.n := List.mem_range.1 (List.mem_of_mem_filter hk)
  have hexp : errorExponent F.n i = errorExponent F.n k := by
    have := errorExponent_lt hi
    have := errorExponent_lt hk
    unfold errorPosition at h
    omega
  rw [← errorExponent_involutive hi, hexp, errorExponent_involutive hk]

section
variable {e : Word} (he : WordOver F.q F.n e)
include he

theorem lt_of_mem_support_codePoly {l : Nat} (hl : l ∈ (codePoly F.q e).support) : l < F.n := by
  have hdeg := (le_degree_of_mem_supp l hl).trans_lt (degree_codePoly_lt F.q e)
  rw [he.1] at hdeg
  exact_mod_cast hdeg

/-- The exponent of a root and its position name the same symbol (R168). -/
theorem coeff_errorExponent {i : Nat} (hi : i < F.n) : (codePoly F.q e).coeff (errorExponent F.n i)
    = (e.getD (errorPosition F.n i) 0 : Nat) := by
  rw [coeff_codePoly F.q (he.1.symm ▸ errorExponent_lt hi), he.1]
  rfl

/-- A symbol at which no root points is no error. -/
theorem eq_zero_of_not_root (hq : 0 < F.q) {locator : Poly} (hroots : ∀ i, i ∈ chienRoots F locator
      ↔ i < F.n ∧ errorExponent F.n i ∈ (codePoly F.q e).support) {p : Nat} (hp : p < F.n)
    (hnot : p ∉ (chienRoots F locator).map (errorPosition F.n)) : e.getD p 0 = 0 := by
  have hl : F.n - 1 - p < F.n := by omega
  have hi := errorExponent_lt hl
  have hexp := errorExponent_involutive hl
  have hposition : errorPosition F.n (errorExponent F.n (F.n - 1 - p)) = p := by
    rw [errorPosition, hexp]
    omega
  have hcoeff := coeff_errorExponent he hi
  rw [hposition] at hcoeff
  by_contra hne
  refine hnot (List.mem_map.2 ⟨_, (hroots _).2 ⟨hi, mem_support_iff.2 fun h0 => hne ?_⟩, hposition⟩)
  exact eq_of_natCast_eq (wordOver_getD_lt he hq p) hq (by rw [← hcoeff, h0, Nat.cast_zero])

variable {cw : Word} (hcw : WordOver F.q F.n cw)
include hcw

theorem wAdd_eq_left_of_codePoly_eq_zero (hq : 0 < F.q) (h : codePoly F.q e = 0) :
    wAdd F.q cw e = cw := by
  refine codePoly_inj F.q (wordOver_wAdd hq hcw.1 he.1) hcw ?_
  rw [codePoly_wAdd F.q (hcw.1.trans he.1.symm), h, add_zero]

/-- Subtracting the errors at the roots of their locator gives the codeword (R172). -/
theorem eq_of_corrected {x : Word} {positions : List Nat} (hlen : x.length = (wAdd F.q cw e).length)
    (hpos : ∀ p < F.n, p ∉ positions → e.getD p 0 = 0)
    (hx : ∀ p (hp : p < x.length) (hp' : p < (wAdd F.q cw e).length),
      x[p] = if p ∈ positions then gfSub F.q (wAdd F.q cw e)[p] (e.getD p 0)
        else (wAdd F.q cw e)[p]) : x = cw := by
  have hlen' : x.length = F.n := by rw [hlen, wAdd_length, hcw.1, he.1, Nat.min_self]
  refine List.ext_getElem (hlen'.trans hcw.1.symm) fun p hp hp' => ?_
  have hpn : p < F.n := hlen' ▸ hp
  have hpe : p < e.length := he.1.symm ▸ hpn
  have hlt : cw[p] < F.q := hcw.2 _ (List.getElem_mem hp')
  have hsum : (wAdd F.q cw e)[p] = (cw[p] + e.getD p 0) % F.q := by
    rw [List.getD_eq_getElem _ _ hpe]
    simp [wAdd, gfAdd]
  rw [hx p hp (hlen ▸ hp), hsum]
  split_ifs with hmem
  · exact gfSub_add_cancel hlt
  · rw [hpos p hpn hmem, add_zero, Nat.mod_eq_of_lt hlt]

end

end

section
variable {F : ExtField} (hF : F.Primitive)
include hF

theorem ExtField.Primitive.value_polyEval_wordPoly {w : Word} (hw : ∀ x ∈ w, x < F.q) (i : Nat) :
    F.IsElem (F.polyEval (F.wordPoly w) (F.apow i))
      ∧ F.value (F.polyEval (F.wordPoly w) (F.apow i)) = aeval (F.value F.a ^ i) (codePoly F.q w) := by
  have helem := wordPoly_isElem hF.one_lt_q hF.m_pos hw
  have hpoly : coeffPoly F.value (F.wordPoly w)
      = (codePoly F.q w).map (algebraMap (ZMod F.q) F.Value) := by
    rw [ExtField.wordPoly, coeffPoly_map, codePoly, symbolPoly, map_coeffPoly]
    simp only [value_emb]
  obtain ⟨hres, hval⟩ := hF.value_polyEval helem (F.apow i)
  exact ⟨hres, by rw [hval, hpoly, hF.value_apow, eval_map_algebraMap]⟩

/-- The syndromes are the power sums of the errors alone (R163). -/
theorem ExtField.Primitive.bchSyndromes_isPowerSums {w : Word} (hw : ∀ x ∈ w, x < F.q) (off d : Nat)
    {E : (ZMod F.q)[X]} (hE : ∀ j, j + 1 < d →
      aeval (F.value F.a ^ (off + j)) (codePoly F.q w) = aeval (F.value F.a ^ (off + j)) E) :
    F.IsPowerSums E.support (fun l => F.value F.a ^ l) (F.errorWeight off E)
      (bchSyndromes F off d w) := by
  have hsyn (j : Nat) := hF.value_polyEval_wordPoly hw (off + j)
  refine ⟨List.forall_mem_map.2 fun j _ => (hsyn j).1, fun i hi => ?_⟩
  rw [bchSyndromes_length] at hi
  have hget : (bchSyndromes F off d w).getD i F.zero
      = F.polyEval (F.wordPoly w) (F.apow ((off + i : Nat) : Int)) := by
    simp [bchSyndromes, hi]
  rw [hget, (hsyn i).2, hE i (by omega), aeval_def, eval₂_eq_sum, sum_def, powerSum]
  refine Finset.sum_congr rfl fun l _ => ?_
  rw [ExtField.errorWeight, mul_assoc, ← pow_add, pow_right_comm]

theorem ExtField.Primitive.errorWeight_ne_zero (off : Nat) {E : (ZMod F.q)[X]} {l : Nat}
    (hl : l ∈ E.support) : F.errorWeight off E l ≠ 0 := by
  have : Fact F.q.Prime := ⟨hF.prime⟩
  have := hF.isDomain
  exact mul_ne_zero
    ((map_ne_zero_iff _ (algebraMap (ZMod F.q) F.Value).injective).2 (mem_support_iff.1 hl))
    ((hF.isUnit_value.pow l).pow off).ne_zero

/-! ### A codeword with at most t errors -/

variable {e : Word} (he : WordOver F.q F.n e)
include he

/-- The value computed at a root is the error's symbol: 1 in GF(2), Forney's value otherwise (R170). -/
theorem ExtField.Primitive.errorValue_eq {locator : Poly} {S : List Elem} {off d i : Nat}
    (helem : ∀ c ∈ locator, F.IsElem c)
    (hlocator : coeffPoly F.value locator
      = ∏ l ∈ (codePoly F.q e).support, (1 - C (F.value F.a ^ l) * X))
    (hS : F.IsPowerSums (codePoly F.q e).support (fun l => F.value F.a ^ l)
      (F.errorWeight off (codePoly F.q e)) S)
    (hd : S.length = d - 1) (hcard : (codePoly F.q e).support.card ≤ d - 1) (hi : i < F.n)
    (hl : errorExponent F.n i ∈ (codePoly F.q e).support) :
    errorValue F off i locator (evaluator F S locator d)
      = .ok (e.getD (errorPosition F.n i) 0) := by
  have hlt := wordOver_getD_lt he hF.prime.pos (errorPosition F.n i)
  have hcoeff := coeff_errorExponent he hi
  unfold errorValue
  split_ifs with hq hbase
  · have hne : e.getD (errorPosition F.n i) 0 ≠ 0 := fun h0 =>
      mem_support_iff.1 hl (by rw [hcoeff, h0, Nat.cast_zero])
    have hone : e.getD (errorPosition F.n i) 0 = 1 :=
      Nat.le_antisymm (Nat.lt_succ_iff.1 (hlt.trans_eq hq)) (Nat.one_le_iff_ne_zero.2 hne)
    rw [hone]
  all_goals
    obtain ⟨hres, hval⟩ := hF.value_forneyValue (fun l hl => lt_of_mem_support_codePoly he hl) helem
      hlocator hS hd hcard hi hl
    rw [hcoeff, ← value_emb] at hval
    have hemb := value_inj F hF.one_lt_q hres (emb_isElem F hF.prime.pos hF.m_pos hlt) hval
  · rw [hemb]
    rfl
  · exact absurd (by rw [hemb]; simp [inBase, ExtField.emb]) hbase

/-- Fewer than d errors leave some syndrome nonzero (R159). -/
theorem ExtField.Primitive.allZero_ne_true {S : List Elem} {off : Nat}
    (hS : F.IsPowerSums (codePoly F.q e).support (fun l => F.value F.a ^ l)
      (F.errorWeight off (codePoly F.q e)) S)
    (hcard : (codePoly F.q e).support.card ≤ S.length)
    (hpos : 0 < (codePoly F.q e).support.card) : allZero F S ≠ true := by
  have := hF.isDomain
  intro hall
  obtain ⟨l, hl⟩ := Finset.card_pos.1 hpos
  have hx := hF.pow_injOn fun l hl => lt_of_mem_support_codePoly he hl
  refine hF.errorWeight_ne_zero off hl (weight_eq_zero_of_powerSum hx hcard (fun i hi => ?_) hl)
  rw [← hS.value i hi, List.getD_eq_getElem _ _ hi,
    beq_iff_eq.1 (List.all_eq_true.1 hall _ (List.getElem_mem _)), value_zero]

variable {cw : Word} (hcw : WordOver F.q F.n cw)
include hcw

/-- A codeword gives nothing to the syndromes (R163). -/
theorem ExtField.Primitive.bchSyndromes_wAdd_isPowerSums {off d : Nat}
    (hzero : allZero F (bchSyndromes F off d cw) = true) :
    F.IsPowerSums (codePoly F.q e).support (fun l => F.value F.a ^ l)
      (F.errorWeight off (codePoly F.q e)) (bchSyndromes F off d (wAdd F.q cw e)) := by
  refine hF.bchSyndromes_isPowerSums (wordOver_wAdd hF.prime.pos hcw.1 he.1).2 off d fun j hj => ?_
  have hroot := (hF.polyEval_wordPoly_eq_zero_iff hcw.2 (off + j)).1
    ((allZero_bchSyndromes_iff F off d cw).1 hzero j hj)
  rw [codePoly_wAdd F.q (hcw.1.trans he.1.symm), map_add, hroot, zero_add]

/-- A word with zero syndromes and an error word of weight at most t (R173 (b)). -/
theorem ExtField.Primitive.bchDecode_wAdd {off d : Nat}
    (hzero : allZero F (bchSyndromes F off d cw) = true) (ht : wt e ≤ (d - 1) / 2) :
    bchDecode F off d (wAdd F.q cw e) = .ok cw := by
  have := hF.isDomain
  have hq := hF.prime.pos
  have hd := bchSyndromes_length F off d (wAdd F.q cw e)
  have hcard := (card_support_codePoly_le F.q e).trans ht
  by_cases hE : codePoly F.q e = 0
  · rw [wAdd_eq_left_of_codePoly_eq_zero he hcw hq hE]
    simp only [bchDecode, hzero, if_true]
  have hpos := Finset.card_pos.2 (support_nonempty.2 hE)
  have hlt := fun l (hl : l ∈ (codePoly F.q e).support) => lt_of_mem_support_codePoly he hl
  have hS := hF.bchSyndromes_wAdd_isPowerSums he hcw hzero
  have hnonzero := hF.allZero_ne_true he hS (by omega) hpos
  obtain ⟨locator, hlocator, hlen, helem, hpoly⟩ := hF.errorLocator_spec hS (hF.pow_injOn hlt)
    (fun l hl => hF.errorWeight_ne_zero off hl) hpos hcard (by omega)
  rw [reverse_nodal] at hpoly
  have hroots := hF.mem_chienRoots_iff hlt helem hpoly
  have hcount := hF.chienRoots_length hlt helem hpoly
  obtain ⟨x, hcorrect, hxlen, hsym⟩ := correctRoots_spec (err := fun p => e.getD p 0)
    (errorPosition_nodup locator) (fun i hi => hF.errorValue_eq he helem hpoly hS hd (by omega)
      ((hroots i).1 hi).1 ((hroots i).1 hi).2) (wAdd F.q cw e)
  obtain rfl := eq_of_corrected he hcw hxlen
    (fun p hp hnot => eq_zero_of_not_root he hq hroots hp hnot) hsym
  simp [bchDecode, hnonzero, hlocator, hcount, hlen, hcorrect, hzero]

end

/-! ### The commands -/

/-- What the BCH decoder answers is what DEC delivers, and DECM its first k symbols. -/
theorem exec_dec_decm_of_bchDecode {s : State} (wd : WordIdx) {ws : WordIdx} {cs : SlotIdx} {c : Code}
    {m off : Nat} {f a : List Symbol} {x : Word} (hslot : s.slot cs = some c)
    (hkind : c.kind = .bch m off f a) (hw : WordOver c.q c.n (s.word ws))
    (h : bchDecode (bchField c.q c.n f a) off c.d (s.word ws) = .ok x) :
    exec (.dec wd ws cs) s = .next (s.setWord wd x).reportsSuccess
      ∧ exec (.decm wd ws cs) s = .next (s.setWord wd (x.take c.k)).reportsSuccess :=
  exec_dec_decm_of_ok wd ((decodeOperand_ok_iff ws cs s _).2
    ⟨c, hslot, hw.1, hw.2, (decodeWord_bch_iff hkind _ _ _).2 ⟨h, rfl⟩⟩)

/-- Settles O53: without syndromes the word is the answer; otherwise the Hankel system of as many rows as
there are errors gives their locator, and Forney's formula their values. -/
theorem bchCommandsCorrectWithinRadius : Obligations.BchCommandsCorrectWithinRadius := by
  intro s wd ws cs c m off f a hslot hc hkind
  refine ⟨fun hw hzero => ?_, fun msg e hmsg he ht hword => ?_⟩
  · have hall := (allZero_bchSyndromes_iff _ off c.d _).2 hzero
    exact exec_dec_decm_of_bchDecode wd hslot hkind hw (by simp only [bchDecode, hall, if_true])
  · have hcw := encodeWord_wordOver hc hmsg
    have htake := take_encodeWord_bch hkind hmsg.1
    have hzero := (bch_syndromes_zero_iff hc hkind hcw).2 (by rw [htake])
    have hdecode := (bchField_primitive hc hkind).bchDecode_wAdd (e := e) he hcw (off := off)
      ((allZero_bchSyndromes_iff _ _ _ _).2 hzero) ht
    have hw : WordOver c.q c.n (s.word ws) :=
      hword ▸ wordOver_wAdd (Code.ok_q_pos hc) hcw.1 he.1
    obtain ⟨hdec, hdecm⟩ := exec_dec_decm_of_bchDecode wd hslot hkind hw (hword ▸ hdecode)
    exact ⟨hdec, htake ▸ hdecm⟩

end Sys2Proof.Machine


/-! ## The Golay codes: construction, the encoder, the orders without a decoder -/

namespace Sys2Proof.Machine

/-- Settles O30: the slot is empty and the order is in the table. -/
theorem golNewBuildsTheCode : Obligations.GolNewBuildsTheCode := by
  intro s cs n q k d hslot hrow
  exact exec_of_body_ok (i := .golNew cs n) ((buildGolay_ok_iff cs n s _).2
    ⟨hslot, q, k, d, (golParams_eq_some_iff n q k d).2 hrow, rfl⟩)

/-! ### The encoder (44_golay.md R189, R190) -/

section
variable {c : Code} (hc : c.ok = true) (hkind : c.kind = .gol)
include hc hkind

/-- The four rows of the table, as a built slot shows them (44_golay.md R186). -/
theorem Code.ok_gol_row :
    (c.n = 24 ∧ c.q = 2 ∧ c.k = 12 ∧ c.d = 8) ∨ (c.n = 23 ∧ c.q = 2 ∧ c.k = 12 ∧ c.d = 7)
      ∨ (c.n = 12 ∧ c.q = 3 ∧ c.k = 6 ∧ c.d = 6) ∨ (c.n = 11 ∧ c.q = 3 ∧ c.k = 6 ∧ c.d = 5) := by
  simpa using (golParams_eq_some_iff _ _ _ _).1 (Code.ok_gol hc hkind)

theorem golHalf_length : (golHalf Config.params c.n).length = c.k := by
  obtain ⟨hn, -, hk, -⟩ | ⟨hn, -, hk, -⟩ | ⟨hn, -, hk, -⟩ | ⟨hn, -, hk, -⟩ :=
      Code.ok_gol_row hc hkind <;>
    rw [hn, hk] <;> decide

theorem encodeWord_gol {w : Word} (hw : WordOver c.q c.k w) :
    encodeWord c w = w ++ vecMat c.q (c.n - c.k) w (golHalf Config.params c.n) := by
  obtain ⟨-, hkn, -⟩ := Code.ok_bounds hc
  simp only [encodeWord, hkind, golEncode, golGen]
  exact linEncode_systematic hw (golHalf_row_length c (Code.ok_gol hc hkind))
    (golHalf_length hc hkind) (by omega)

theorem take_encodeWord_gol {w : Word} (hw : WordOver c.q c.k w) :
    (encodeWord c w).take c.k = w := by
  rw [encodeWord_gol hc hkind hw, ← hw.1, List.take_left]

/-- The halves of orders 23 and 11 are A24 and A12 as far as their columns go (44_golay.md R189). -/
theorem golHalf_getD {j : Nat} (hj : j < c.n - c.k) (i : Nat) :
    ((golHalf Config.params c.n).getD i []).getD j 0
      = ((if c.q = 2 then Config.a24 else Config.a12).getD i []).getD j 0 := by
  have hdrop (M : Matrix) {b : Nat} (hb : j < b) :
      ((M.map (List.take b)).getD i []).getD j 0 = (M.getD i []).getD j 0 := by
    by_cases hi : i < M.length <;> simp [hi, hb]
  obtain ⟨hn, hq, hk, -⟩ | ⟨hn, hq, hk, -⟩ | ⟨hn, hq, hk, -⟩ | ⟨hn, hq, hk, -⟩ :=
      Code.ok_gol_row hc hkind <;>
    rw [hn, hk] at hj <;> rw [hn, hq]
  · rfl
  · exact hdrop Config.a24 hj
  · rfl
  · exact hdrop Config.a12 hj

end

theorem a24_transpose : transpose 12 Config.a24 = Config.a24 := by decide

theorem a24_matVec_rows : (Config.a24.map fun row => matVec 2 Config.a24 row) = identity 12 := by
  decide

/-- Settles O44: the codeword is systematic, and a symbol of its second part is one of a product with
the half. -/
theorem golayEncodeIsMessageTimesHalf : Obligations.GolayEncodeIsMessageTimesHalf := by
  refine ⟨fun c w hc hkind hw => ⟨encodeWord_length c w hc hw.1, take_encodeWord_gol hc hkind hw,
    fun j hj => ?_⟩, a24_transpose, a24_matVec_rows⟩
  rw [encodeWord_gol hc hkind hw, List.getD_append_right _ _ _ _ (by omega), hw.1,
    Nat.add_sub_cancel_left, vecMat_getD (Code.ok_q_pos hc) hw.1
      (golHalf_row_length c (Code.ok_gol hc hkind)) hj]
  simp only [golHalf_getD hc hkind hj]

/-! ### Decode of a Golay slot -/

/-- The orders 12 and 11 have no decoder (44_golay.md R193). -/
theorem decodeWord_gol_ternary {c : Code} (hkind : c.kind = .gol) (hn : c.n = 11 ∨ c.n = 12)
    (w : Word) : decodeWord c w = .error .niGolayTernary := by
  have h24 : c.n ≠ 24 := by omega
  have h23 : c.n ≠ 23 := by omega
  simp only [decodeWord, hkind, golDecode, if_neg h24, if_neg h23, withMessage]

/-- Settles O47: the operand checks are those of every code, and a word that passes meets no decoder. -/
theorem golayTernaryDecodeIsNotImplemented : Obligations.GolayTernaryDecodeIsNotImplemented := by
  intro s wd ws cs c hslot hc hkind hn
  have hq : c.q = 3 := by
    have hrow := Code.ok_gol_row hc hkind
    omega
  obtain ⟨-, -, hlength, hsymbol⟩ := (dataCommandsRaiseInOrder s wd ws cs).2 c hslot
  refine ⟨fun hw => ?_, hlength, fun hlen hsym => hsymbol hlen (hq ▸ hsym)⟩
  have hcheck := (checkOperand_ok_iff (s.word ws) _ c.n c.q).2 ⟨rfl, hw.1, hq ▸ hw.2⟩
  exact exec_dec_decm_of_error (e := .niGolayTernary) wd ws (by
    rw [decodeOperand_eq ws hslot, hcheck]
    exact decodeWord_gol_ternary hkind hn _)

end Sys2Proof.Machine


/-! ## Weight and distance of words are Mathlib's Hamming norm and distance of their vectors -/

namespace Sys2Proof.Machine

section
variable {q n : Nat}

theorem distance_eq_hammingDist {u v : Word} (hu : WordOver q n u) (hv : WordOver q n v) :
    distance u v = hammingDist (symbolVec q n u) (symbolVec q n v) := by
  induction n generalizing u v with
  | zero =>
    obtain rfl : u = [] := List.eq_nil_of_length_eq_zero hu.1
    simp [distance, hammingDist]
  | succ n ih =>
    obtain ⟨x, u, rfl⟩ := List.exists_cons_of_length_eq_add_one hu.1
    obtain ⟨y, v, rfl⟩ := List.exists_cons_of_length_eq_add_one hv.1
    obtain ⟨hx, hu'⟩ := List.forall_mem_cons.1 hu.2
    obtain ⟨hy, hv'⟩ := List.forall_mem_cons.1 hv.2
    have hxy : (x : ZMod q) = y ↔ x = y := ⟨eq_of_natCast_eq hx hy, congrArg _⟩
    have hrest := ih (u := u) (v := v) ⟨by simpa using hu.1, hu'⟩ ⟨by simpa using hv.1, hv'⟩
    rw [distance_cons, hrest, hammingDist, hammingDist, Fin.card_filter_univ_succ]
    by_cases h : x = y <;> simp [symbolVec, hxy, h]

theorem wt_eq_distance_zeros (w : Word) : wt w = distance w (zeros w.length) := by
  induction w with
  | nil => rfl
  | cons x w ih =>
    have hzeros : zeros (x :: w).length = 0 :: zeros w.length := rfl
    rw [wt_cons, ih, hzeros, distance_cons]

theorem wt_eq_hammingNorm (hq : 0 < q) {w : Word} (hw : WordOver q n w) :
    wt w = hammingNorm (symbolVec q n w) := by
  rw [wt_eq_distance_zeros, hw.1, distance_eq_hammingDist hw (zeros_wordOver hq n), symbolVec_zeros,
    hammingDist_zero_right]

theorem distance_comm {u v : Word} (hu : WordOver q n u) (hv : WordOver q n v) :
    distance u v = distance v u := by
  rw [distance_eq_hammingDist hu hv, distance_eq_hammingDist hv hu, hammingDist_comm]

theorem distance_triangle {u v w : Word} (hu : WordOver q n u) (hv : WordOver q n v)
    (hw : WordOver q n w) : distance u w ≤ distance u v + distance v w := by
  rw [distance_eq_hammingDist hu hw, distance_eq_hammingDist hu hv, distance_eq_hammingDist hv hw]
  exact hammingDist_triangle _ _ _

/-- Adding a word changes as many symbols as its weight. -/
theorem distance_wAdd (hq : 0 < q) {w e : Word} (hw : WordOver q n w) (he : WordOver q n e) :
    distance w (wAdd q w e) = wt e := by
  rw [distance_eq_hammingDist hw (wordOver_wAdd hq hw.1 he.1), wt_eq_hammingNorm hq he,
    symbolVec_wAdd q n (hw.1.trans he.1.symm), hammingDist_eq_hammingNorm, neg_add_cancel_left]

theorem distance_append {u u' : Word} (h : u.length = u'.length) (v v' : Word) :
    distance (u ++ v) (u' ++ v') = distance u u' + distance v v' := by
  simp [distance, List.zip_append h]

theorem wt_append (u v : Word) : wt (u ++ v) = wt u + wt v := List.countP_append

@[simp] theorem wt_zeros (k : Nat) : wt (zeros k) = 0 := by simp [wt, zeros]

end

/-! ### Binary words -/

/-- The distance of binary words has the parity of all their ones together. -/
theorem distance_mod_two {n : Nat} {u v : Word} (hu : WordOver 2 n u) (hv : WordOver 2 n v) :
    distance u v % 2 = (u.sum + v.sum) % 2 := by
  induction n generalizing u v with
  | zero =>
    rw [List.eq_nil_of_length_eq_zero hu.1, List.eq_nil_of_length_eq_zero hv.1]
    rfl
  | succ n ih =>
    obtain ⟨x, u, rfl⟩ := List.exists_cons_of_length_eq_add_one hu.1
    obtain ⟨y, v, rfl⟩ := List.exists_cons_of_length_eq_add_one hv.1
    obtain ⟨hx, hu'⟩ := List.forall_mem_cons.1 hu.2
    obtain ⟨hy, hv'⟩ := List.forall_mem_cons.1 hv.2
    have hrest := ih (u := u) (v := v) ⟨by simpa using hu.1, hu'⟩ ⟨by simpa using hv.1, hv'⟩
    have hsymbol : ∀ a b : Nat, a < 2 → b < 2 → (if a = b then 0 else 1) % 2 = (a + b) % 2 := by
      intro a b ha hb
      split_ifs <;> omega
    rw [distance_cons, List.sum_cons, List.sum_cons, Nat.add_mod, hrest, hsymbol x y hx hy]
    omega

theorem sum_mod_two_eq_wt {n : Nat} {w : Word} (hw : WordOver 2 n w) : w.sum % 2 = wt w % 2 := by
  rw [wt_eq_distance_zeros, hw.1, distance_mod_two hw (zeros_wordOver (by decide) n)]
  simp [zeros]

/-- The weight of a vector over GF(2) is the sum of its entries as numbers. -/
theorem hammingNorm_eq_sum_val {n : Nat} (x : Fin n → ZMod 2) :
    hammingNorm x = ∑ i, (x i).val := by
  have hval : ∀ a : ZMod 2, (if a ≠ 0 then 1 else 0) = a.val := by decide
  rw [hammingNorm, Finset.card_filter]
  exact Finset.sum_congr rfl fun i _ => hval (x i)

/-- The common ones of two vectors vanish from their sum. -/
theorem hammingNorm_add_overlap {n : Nat} (x y : Fin n → ZMod 2) :
    hammingNorm (x + y) + 2 * hammingNorm (x * y) = hammingNorm x + hammingNorm y := by
  have hval : ∀ a b : ZMod 2, (a + b).val + 2 * (a * b).val = a.val + b.val := by decide
  simp only [hammingNorm_eq_sum_val, Finset.mul_sum, ← Finset.sum_add_distrib]
  exact Finset.sum_congr rfl fun i _ => hval (x i) (y i)

/-- The common ones of two vectors are counted modulo 2 by the inner product. -/
theorem natCast_overlap {n : Nat} (x y : Fin n → ZMod 2) :
    (hammingNorm (x * y) : ZMod 2) = dotProduct x y := by
  rw [hammingNorm_eq_sum_val, Nat.cast_sum]
  exact Finset.sum_congr rfl fun i _ => by rw [ZMod.natCast_zmod_val, Pi.mul_apply]

theorem hammingNorm_single {n : Nat} (i : Fin n) :
    hammingNorm (Pi.single i 1 : Fin n → ZMod 2) = 1 := by
  simp [hammingNorm, Pi.single_apply, Finset.filter_eq']

/-- A vector of weight k + 1 is one of weight k and a unit vector. -/
theorem exists_eq_single_add {n k : Nat} {x : Fin n → ZMod 2} (h : hammingNorm x = k + 1) :
    ∃ i y, x = Pi.single i 1 + y ∧ hammingNorm y = k ∧ y i = 0 := by
  obtain ⟨i, hi⟩ : ∃ i, x i ≠ 0 := Function.ne_iff.1 (hammingNorm_pos_iff.1 (by omega))
  have hone : x i = 1 := by
    generalize x i = a at hi
    revert a
    decide
  have hsplit : x = Pi.single i 1 + Function.update x i 0 := by
    funext j
    obtain rfl | hj := eq_or_ne j i
    · simp [hone]
    · simp [hj]
  refine ⟨i, _, hsplit, ?_, by simp⟩
  have hdisjoint : Pi.single i 1 * Function.update x i 0 = 0 := by
    funext j
    obtain rfl | hj := eq_or_ne j i
    · simp
    · simp [hj]
  have hsum := hammingNorm_add_overlap (Pi.single i 1) (Function.update x i 0)
  rw [← hsplit, hdisjoint, hammingNorm_zero, hammingNorm_single, h] at hsum
  omega

end Sys2Proof.Machine

/-! ## The minimum weight of the order-24 Golay code

The code is self-dual and its generators have weights divisible by 4, so every codeword has; and the two
halves of a codeword may be exchanged, so that a codeword of weight 4 would have a half of at most two
ones, which the rows of A24 and their sums of two exclude. -/

namespace Sys2Proof.Machine

/-- The weight of the codeword of a message: of the message and of its product with A24. -/
def golWeight (x : Fin 12 → ZMod 2) : Nat := hammingNorm x + hammingNorm (a24Mat.mulVec x)

/-- The overlap of two codewords, its halves taken together. -/
def golOverlap (x y : Fin 12 → ZMod 2) : Nat :=
  hammingNorm (x * y) + hammingNorm (a24Mat.mulVec x * a24Mat.mulVec y)

theorem golWeight_add (x y : Fin 12 → ZMod 2) :
    golWeight (x + y) + 2 * golOverlap x y = golWeight x + golWeight y := by
  have hleft := hammingNorm_add_overlap x y
  have hright := hammingNorm_add_overlap (a24Mat.mulVec x) (a24Mat.mulVec y)
  rw [golWeight, Matrix.mulVec_add, golOverlap, golWeight, golWeight]
  omega

/-- The code is self-orthogonal: A24 is symmetric and its own inverse (44_golay.md R187). -/
theorem two_dvd_golOverlap (x y : Fin 12 → ZMod 2) : 2 ∣ golOverlap x y := by
  rw [← ZMod.natCast_eq_zero_iff, golOverlap, Nat.cast_add, natCast_overlap, natCast_overlap,
    Matrix.dotProduct_mulVec, Matrix.vecMul_mulVec, a24Mat_transpose, a24Mat_mul_self,
    Matrix.vecMul_one, CharTwo.add_self_eq_zero]

/-- The codeword of a unit message: the row of A24 beside it. -/
theorem a24Mat_mulVec_single (i : Fin 12) : a24Mat.mulVec (Pi.single i 1) = a24Mat i := by
  rw [← a24Mat_vecMul, Matrix.single_one_vecMul]
  rfl

theorem hammingNorm_a24Mat_row (i : Fin 12) :
    hammingNorm (a24Mat i) = 7 ∨ hammingNorm (a24Mat i) = 11 := by
  revert i
  decide +kernel

theorem golWeight_single (i : Fin 12) :
    golWeight (Pi.single i 1) = 8 ∨ golWeight (Pi.single i 1) = 12 := by
  have hrow := hammingNorm_a24Mat_row i
  rw [golWeight, hammingNorm_single, a24Mat_mulVec_single]
  omega

/-- The code is doubly even. -/
theorem four_dvd_golWeight (x : Fin 12 → ZMod 2) : 4 ∣ golWeight x := by
  induction hk : hammingNorm x generalizing x with
  | zero =>
    rw [hammingNorm_eq_zero.1 hk, golWeight, Matrix.mulVec_zero, hammingNorm_zero]
    decide
  | succ k ih =>
    obtain ⟨i, y, rfl, hy, -⟩ := exists_eq_single_add hk
    have hsum := golWeight_add (Pi.single i 1) y
    have heven := two_dvd_golOverlap (Pi.single i 1) y
    have hrest := ih y hy
    have hsingle := golWeight_single i
    omega

/-- The sum of two rows of A24 has six ones or more. -/
theorem six_le_hammingNorm_a24Mat_add {i j : Fin 12} (hij : i ≠ j) :
    6 ≤ hammingNorm (a24Mat i + a24Mat j) := by
  revert i j
  decide +kernel

theorem golWeight_single_add_single {i j : Fin 12} (hij : i ≠ j) :
    8 ≤ golWeight (Pi.single i 1 + Pi.single j 1) := by
  have hmessage := hammingNorm_add_overlap (Pi.single i 1 : Fin 12 → ZMod 2) (Pi.single j 1)
  have hcommon : (Pi.single i 1 * Pi.single j 1 : Fin 12 → ZMod 2) = 0 := by
    funext l
    by_cases hl : l = i <;> simp [Pi.single_apply, hl, hij]
  have hrows := six_le_hammingNorm_a24Mat_add hij
  rw [hcommon, hammingNorm_zero, hammingNorm_single, hammingNorm_single] at hmessage
  rw [golWeight, Matrix.mulVec_add, a24Mat_mulVec_single, a24Mat_mulVec_single]
  omega

/-- With the second half of a codeword as message its halves change places. -/
theorem golWeight_mulVec (x : Fin 12 → ZMod 2) : golWeight (a24Mat.mulVec x) = golWeight x := by
  rw [golWeight, golWeight, a24Mat_mulVec_mulVec, Nat.add_comm]

/-- A codeword whose message has one or two ones. -/
theorem eight_le_golWeight_of_light {x : Fin 12 → ZMod 2} (hx : x ≠ 0) (hlight : hammingNorm x ≤ 2) :
    8 ≤ golWeight x := by
  have hpos := hammingNorm_pos_iff.2 hx
  obtain ⟨k, hk⟩ : ∃ k, hammingNorm x = k + 1 := ⟨hammingNorm x - 1, by omega⟩
  obtain ⟨i, y, rfl, hy, hyi⟩ := exists_eq_single_add hk
  obtain rfl | rfl : k = 0 ∨ k = 1 := by omega
  · rw [hammingNorm_eq_zero.1 hy, add_zero]
    have hsingle := golWeight_single i
    omega
  · obtain ⟨j, z, rfl, hz, -⟩ := exists_eq_single_add hy
    rw [hammingNorm_eq_zero.1 hz, add_zero] at hyi ⊢
    refine golWeight_single_add_single fun hij => ?_
    simp [hij] at hyi

/-- The minimum weight is 8 (44_golay.md R186). -/
theorem eight_le_golWeight {x : Fin 12 → ZMod 2} (hx : x ≠ 0) : 8 ≤ golWeight x := by
  by_contra hlt
  have hdvd := four_dvd_golWeight x
  have hsplit : golWeight x = hammingNorm x + hammingNorm (a24Mat.mulVec x) := rfl
  obtain hlight | hlight : hammingNorm x ≤ 2 ∨ hammingNorm (a24Mat.mulVec x) ≤ 2 := by omega
  · exact hlt (eight_le_golWeight_of_light hx hlight)
  · have hAx : a24Mat.mulVec x ≠ 0 := fun h0 => hx (by
      rw [← a24Mat_mulVec_mulVec x, h0, Matrix.mulVec_zero])
    rw [← golWeight_mulVec] at hlt
    exact hlt (eight_le_golWeight_of_light hAx hlight)

end Sys2Proof.Machine


/-! ## What the binary Golay decoders answer (44_golay.md R191, R192, R194)

The decoder of order 24 answers exactly the codeword within distance 3 of the word, when there is one;
that of order 23 likewise, and there always is one, because the balls of radius 3 around the 2^12
codewords fill the 2^23 words. -/

namespace Sys2Proof.Machine

/-! ### The order-24 codewords -/

/-- The order-24 codeword of a message: the message and its product with A24. -/
def golCodeword (m : Word) : Word := m ++ vecMat 2 12 m Config.a24

section
variable {m m' : Word} (hm : WordOver 2 12 m) (hm' : WordOver 2 12 m')

theorem golParity_wordOver (m : Word) : WordOver 2 12 (vecMat 2 12 m Config.a24) :=
  vecMat_wordOver (by decide) m a24_row_length

include hm

theorem golCodeword_eq_linEncode :
    golCodeword m = linEncode 2 24 (golGen Config.params 24 12) m :=
  (linEncode_systematic hm a24_row_length rfl rfl).symm

theorem golCodeword_wordOver : WordOver 2 24 (golCodeword m) :=
  wordOver_append hm (golParity_wordOver m)

theorem symbolVec_golParity :
    symbolVec 2 12 (vecMat 2 12 m Config.a24) = a24Mat.mulVec (symbolVec 2 12 m) := by
  rw [symbolVec_vecMat 2 hm.1 a24_row_length, ← a24Mat, a24Mat_vecMul]

/-- The weight of a codeword is even. -/
theorem golCodeword_sum_even : (golCodeword m).sum % 2 = 0 := by
  have hweight : wt (golCodeword m) = golWeight (symbolVec 2 12 m) := by
    rw [golCodeword, wt_append, wt_eq_hammingNorm (by decide) hm,
      wt_eq_hammingNorm (by decide) (golParity_wordOver m), symbolVec_golParity hm, golWeight]
  have hdvd := four_dvd_golWeight (symbolVec 2 12 m)
  rw [sum_mod_two_eq_wt (golCodeword_wordOver hm), hweight]
  exact Nat.mod_eq_zero_of_dvd (dvd_trans (by decide) hdvd)

include hm'

/-- The minimum distance of the code is 8. -/
theorem golCodeword_inj_of_distance (h : distance (golCodeword m) (golCodeword m') < 8) : m = m' := by
  by_contra hne
  have hx : -symbolVec 2 12 m + symbolVec 2 12 m' ≠ 0 := fun h0 =>
    hne (wordOver_ext hm hm' (neg_add_eq_zero.1 h0))
  have hweight := eight_le_golWeight hx
  have hparity := distance_eq_hammingDist (golParity_wordOver m) (golParity_wordOver m')
  rw [symbolVec_golParity hm, symbolVec_golParity hm', hammingDist_eq_hammingNorm, ← Matrix.mulVec_neg,
    ← Matrix.mulVec_add] at hparity
  rw [golCodeword, golCodeword, distance_append (hm.1.trans hm'.1.symm), hparity,
    distance_eq_hammingDist hm hm', hammingDist_eq_hammingNorm] at h
  rw [golWeight] at hweight
  omega

end

/-! ### The four branches (44_golay.md R191) -/

theorem golRowScan_wt {S : Word} {j : Nat} (h : golRowScan Config.params S = some j) :
    wt (wAdd 2 S (a24Row Config.params j)) ≤ 2 := by
  simpa using List.find?_some h

theorem wt_unit {i : Nat} (hi : i < 12) : wt (unit 12 i) = 1 := by
  rw [wt_eq_hammingNorm (by decide) (unit_wordOver i), symbolVec_unit 2 12 ⟨i, hi⟩,
    hammingNorm_single]

/-- The error pattern of each branch has a weight of at most 3. -/
theorem golErrorPattern_wt_le {S e : Word} (h : golErrorPattern Config.params S = .ok e) :
    wt e ≤ 3 := by
  unfold golErrorPattern at h
  split at h
  · obtain rfl : S ++ zeros 12 = e := by simpa using h
    rwa [wt_append, wt_zeros]
  split at h
  · rename_i j hscan
    obtain rfl : wAdd 2 S (a24Row Config.params j) ++ unit 12 j = e := by simpa using h
    rw [wt_append, wt_unit (golRowScan_lt hscan)]
    exact Nat.succ_le_succ (golRowScan_wt hscan)
  dsimp only at h
  split at h
  · obtain rfl : zeros 12 ++ vecMat 2 12 S (transpose 12 Config.a24) = e := by simpa using h
    rwa [wt_append, wt_zeros, Nat.zero_add]
  split at h
  · rename_i j hscan
    obtain rfl : unit 12 j
        ++ wAdd 2 (vecMat 2 12 S (transpose 12 Config.a24)) (a24Row Config.params j) = e := by
      simpa using h
    rw [wt_append, wt_unit (golRowScan_lt hscan), Nat.add_comm]
    exact Nat.succ_le_succ (golRowScan_wt hscan)
  · simp at h

/-- One of two branches takes the word S of 12 symbols: S is light, or S plus a row of A24 is. -/
def GolMatches (S : Word) : Prop := wt S ≤ 3 ∨ ∃ j, golRowScan Config.params S = some j

/-- The four branches are two for S and two for S * A24^T. -/
theorem golErrorPattern_of_matches {S : Word}
    (h : GolMatches S ∨ GolMatches (vecMat 2 12 S (transpose 12 Config.a24))) :
    ∃ e, golErrorPattern Config.params S = .ok e := by
  unfold golErrorPattern
  split
  · exact ⟨_, rfl⟩
  rename_i hS
  split
  · exact ⟨_, rfl⟩
  rename_i hscan
  have hswap : GolMatches (vecMat 2 12 S (transpose 12 Config.a24)) :=
    h.resolve_left (by simp [GolMatches, hS, hscan])
  dsimp only
  split
  · exact ⟨_, rfl⟩
  rename_i hSA
  obtain ⟨j, hj⟩ := hswap.resolve_left hSA
  exact ⟨_, by rw [hj]⟩

/-- The branches for S take the errors with at most one in the other half. -/
theorem golMatches_of_light {S : Word} (hS : WordOver 2 12 S) {x y : Fin 12 → ZMod 2}
    (h : symbolVec 2 12 S = x + a24Mat.mulVec y) (hxy : hammingNorm x + hammingNorm y ≤ 3)
    (hy : hammingNorm y ≤ 1) : GolMatches S := by
  obtain h0 | h1 : hammingNorm y = 0 ∨ hammingNorm y = 1 := by omega
  · rw [hammingNorm_eq_zero.1 h0, Matrix.mulVec_zero, add_zero] at h
    left
    rw [wt_eq_hammingNorm (by decide) hS, h]
    omega
  · obtain ⟨i, z, rfl, hz, -⟩ := exists_eq_single_add h1
    rw [hammingNorm_eq_zero.1 hz, add_zero, a24Mat_mulVec_single] at h
    have hrow := a24Row_wordOver i.isLt
    have hvec : symbolVec 2 12 (a24Row Config.params i) = a24Mat i := rfl
    have hclose : wt (wAdd 2 S (a24Row Config.params i)) ≤ 2 := by
      rw [wt_eq_hammingNorm (by decide) (wordOver_wAdd (by decide) hS.1 hrow.1),
        symbolVec_wAdd 2 12 (hS.1.trans hrow.1.symm), h, hvec, add_assoc, vec_add_self, add_zero]
      omega
    right
    rw [← Option.isSome_iff_exists, golRowScan, List.find?_isSome]
    exact ⟨i, List.mem_range.2 i.isLt, by simpa using hclose⟩

/-- An error pattern of weight at most 3 has at most one error in one of its halves. -/
theorem exists_golErrorPattern {S : Word} (hS : WordOver 2 12 S) {x y : Fin 12 → ZMod 2}
    (h : symbolVec 2 12 S = x + a24Mat.mulVec y) (hxy : hammingNorm x + hammingNorm y ≤ 3) :
    ∃ e, golErrorPattern Config.params S = .ok e := by
  refine golErrorPattern_of_matches ?_
  obtain hy | hx : hammingNorm y ≤ 1 ∨ hammingNorm x ≤ 1 := by omega
  · exact .inl (golMatches_of_light hS h hxy hy)
  · rw [a24_transpose]
    refine .inr (golMatches_of_light (golParity_wordOver S) (x := y) (y := x) ?_ (by omega) hx)
    rw [symbolVec_golParity hS, h, Matrix.mulVec_add, a24Mat_mulVec_mulVec, add_comm]

/-! ### Order 24 -/

/-- A word within distance 3 of a codeword is decoded. -/
theorem exists_golDecode24 {w m : Word} (hw : WordOver 2 24 w) (hm : WordOver 2 12 m)
    (h : distance w (golCodeword m) ≤ 3) : ∃ x, golDecode24 Config.params w = .ok x := by
  have hu := wordOver_take hw (show 12 ≤ 24 by decide)
  have hv : WordOver 2 12 (w.drop 12) := wordOver_drop hw rfl
  have hsyn : symbolVec 2 12 (golSyndrome Config.params w)
      = symbolVec 2 12 (w.take 12) + a24Mat.mulVec (symbolVec 2 12 (w.drop 12)) := by
    rw [← symbolVec_golSyndrome hu, List.take_append_drop]
  obtain ⟨e, he⟩ := exists_golErrorPattern (golSyndrome_wordOver w)
    (x := -symbolVec 2 12 (w.take 12) + symbolVec 2 12 m)
    (y := -symbolVec 2 12 (w.drop 12) + a24Mat.mulVec (symbolVec 2 12 m)) (by
      rw [hsyn, Matrix.mulVec_add, a24Mat_mulVec_mulVec, Matrix.mulVec_neg, add_add_add_comm,
        vec_add_self, add_zero, ← neg_add, ZModModule.neg_eq_self]) (by
      rw [← hammingDist_eq_hammingNorm, ← hammingDist_eq_hammingNorm, ← symbolVec_golParity hm,
        ← distance_eq_hammingDist hu hm, ← distance_eq_hammingDist hv (golParity_wordOver m),
        ← distance_append (hu.1.trans hm.1.symm), List.take_append_drop]
      exact h)
  exact ⟨wAdd 2 w e, by simp only [golDecode24, he]⟩

/-- The decoder answers the codeword within distance 3 of the word. -/
theorem golDecode24_ok_iff {w : Word} (hw : WordOver 2 24 w) (x : Word) :
    golDecode24 Config.params w = .ok x
      ↔ ∃ m, WordOver 2 12 m ∧ x = golCodeword m ∧ distance w x ≤ 3 := by
  have sound {y : Word} (h : golDecode24 Config.params w = .ok y) :
      ∃ m, WordOver 2 12 m ∧ y = golCodeword m ∧ distance w y ≤ 3 := by
    obtain ⟨hy, henc⟩ := golDecode24_ok hw h
    have hm := wordOver_take hy (show 12 ≤ 24 by decide)
    refine ⟨y.take 12, hm, henc.trans (golCodeword_eq_linEncode hm).symm, ?_⟩
    unfold golDecode24 at h
    split at h
    · simp at h
    · rename_i e hpattern
      obtain rfl : wAdd 2 w e = y := by simpa using h
      obtain ⟨he, -⟩ := golErrorPattern_ok (golSyndrome_wordOver w) hpattern
      rw [distance_wAdd (by decide) hw he]
      exact golErrorPattern_wt_le hpattern
  refine ⟨sound, ?_⟩
  rintro ⟨m, hm, rfl, hdist⟩
  obtain ⟨y, hy⟩ := exists_golDecode24 hw hm hdist
  obtain ⟨m', hm', rfl, hdist'⟩ := sound hy
  have hcw := golCodeword_wordOver hm
  have hcw' := golCodeword_wordOver hm'
  have htriangle := distance_triangle hcw hw hcw'
  rw [distance_comm hcw hw] at htriangle
  obtain rfl := golCodeword_inj_of_distance hm hm' (by omega)
  exact hy

/-! ### Order 23 -/

theorem golCodeword_split {m : Word} (hm : WordOver 2 12 m) :
    ∃ b, golCodeword m = (golCodeword m).take 23 ++ [b] := by
  obtain ⟨hlen, -⟩ : WordOver 2 1 ((golCodeword m).drop 23) :=
    wordOver_drop (golCodeword_wordOver hm) rfl
  obtain ⟨b, hb⟩ := List.length_eq_one_iff.1 hlen
  exact ⟨b, by rw [← hb, List.take_append_drop]⟩

theorem golParityBit_wordOver (w : Word) : WordOver 2 1 [golParityBit w] :=
  ⟨rfl, List.forall_mem_singleton.2 (Nat.mod_lt _ (by decide))⟩

/-- With its parity bit a word is at an odd distance from every codeword. -/
theorem distance_golParityBit_odd {w m : Word} (hw : WordOver 2 23 w) (hm : WordOver 2 12 m) :
    distance (w ++ [golParityBit w]) (golCodeword m) % 2 = 1 := by
  have hext := wordOver_append hw (golParityBit_wordOver w)
  have hparity : ∀ a b : Nat, b % 2 = 0 → (a + (1 + a) % 2 + b) % 2 = 1 := by omega
  rw [distance_mod_two hext (golCodeword_wordOver hm), List.sum_append,
    List.sum_singleton, golParityBit]
  exact hparity _ _ (golCodeword_sum_even hm)

/-- A word within distance 3 of an order-23 codeword is so, with its parity bit, of the order-24
codeword, and conversely (44_golay.md R192). -/
theorem distance_golParityBit_le_iff {w m : Word} (hw : WordOver 2 23 w) (hm : WordOver 2 12 m) :
    distance (w ++ [golParityBit w]) (golCodeword m) ≤ 3
      ↔ distance w ((golCodeword m).take 23) ≤ 3 := by
  obtain ⟨b, hb⟩ := golCodeword_split hm
  have hodd := distance_golParityBit_odd hw hm
  have htake := wordOver_take (golCodeword_wordOver hm) (show 23 ≤ 24 by decide)
  have hlast : distance [golParityBit w] [b] ≤ 1 := List.countP_le_length
  have hsum : distance (w ++ [golParityBit w]) (golCodeword m)
      = distance w ((golCodeword m).take 23) + distance [golParityBit w] [b] := by
    rw [← distance_append (hw.1.trans htake.1.symm), ← hb]
  omega

theorem golDecode23_ok_iff {w : Word} (hw : WordOver 2 23 w) (x : Word) :
    golDecode23 Config.params w = .ok x
      ↔ ∃ m, WordOver 2 12 m ∧ x = (golCodeword m).take 23 ∧ distance w x ≤ 3 := by
  have hdecode (y : Word) := golDecode24_ok_iff (wordOver_append hw (golParityBit_wordOver w)) y
  unfold golDecode23
  constructor
  · intro h
    split at h
    · simp at h
    · rename_i y hy
      obtain rfl : y.take 23 = x := by simpa using h
      obtain ⟨m, hm, rfl, hdist⟩ := (hdecode y).1 hy
      exact ⟨m, hm, rfl, (distance_golParityBit_le_iff hw hm).1 hdist⟩
  · rintro ⟨m, hm, rfl, hdist⟩
    rw [(hdecode _).2 ⟨m, hm, rfl, (distance_golParityBit_le_iff hw hm).2 hdist⟩]

end Sys2Proof.Machine


/-! ## The order-23 Golay code is perfect (44_golay.md R194) -/

namespace Sys2Proof.Machine

/-! ### Binary words, and those of small weight, counted -/

/-- The binary words of length n. It is irreducible, so that nothing lists them all. -/
@[irreducible] def binaryWords (n : Nat) : Finset Word := (tuples 2 n).toFinset

theorem mem_binaryWords_iff (n : Nat) (w : Word) : w ∈ binaryWords n ↔ WordOver 2 n w := by
  rw [binaryWords, List.mem_toFinset, mem_tuples_iff]

theorem tuples_nodup (q n : Nat) : (tuples q n).Nodup :=
  (tuples_pairwise q n).imp (S := (· ≠ ·)) fun hlt heq => tupleLt_irrefl _ (heq ▸ hlt)

theorem card_binaryWords (n : Nat) : (binaryWords n).card = 2 ^ n := by
  rw [binaryWords, List.toFinset_card_of_nodup (tuples_nodup 2 n), length_tuples]

/-- A binary word of weight at most t begins with 0 or with 1; so do the binomial coefficients add. -/
theorem countP_wt_le_tuples (n t : Nat) :
    (tuples 2 n).countP (fun w => decide (wt w ≤ t)) = ∑ k ∈ Finset.range (t + 1), n.choose k := by
  induction n generalizing t with
  | zero => simp [tuples, wt, Finset.sum_range_succ']
  | succ n ih =>
    have hsplit : tuples 2 (n + 1) = (tuples 2 n).map (0 :: ·) ++ (tuples 2 n).map (1 :: ·) := by
      simp [tuples_succ, List.range_succ]
    rw [hsplit, List.countP_append, List.countP_map, List.countP_map]
    simp only [Function.comp_def, wt_cons, if_true, add_zero, ih, one_ne_zero, if_false]
    cases t with
    | zero => simp
    | succ t =>
      simp only [Nat.add_le_add_iff_right, ih]
      rw [Finset.sum_range_succ' _ (t + 1), Finset.sum_range_succ' _ (t + 1)]
      simp only [Nat.choose_succ_succ', Finset.sum_add_distrib, Nat.choose_zero_right]
      omega

theorem card_filter_wt_le (n t : Nat) :
    ((binaryWords n).filter fun e => wt e ≤ t).card = ∑ k ∈ Finset.range (t + 1), n.choose k := by
  rw [← countP_wt_le_tuples, List.countP_eq_length_filter,
    ← List.toFinset_card_of_nodup ((tuples_nodup 2 n).filter _), List.toFinset_filter]
  simp only [binaryWords, decide_eq_true_eq]

/-! ### The balls of radius 3 -/

section
variable {m m' : Word} (hm : WordOver 2 12 m) (hm' : WordOver 2 12 m')
include hm

theorem take_golCodeword_wordOver : WordOver 2 23 ((golCodeword m).take 23) :=
  wordOver_take (golCodeword_wordOver hm) (by decide)

include hm'

/-- The minimum distance of the order-23 code is 7. -/
theorem golCodeword_inj_of_distance_take
    (h : distance ((golCodeword m).take 23) ((golCodeword m').take 23) < 7) : m = m' := by
  obtain ⟨b, hb⟩ := golCodeword_split hm
  obtain ⟨b', hb'⟩ := golCodeword_split hm'
  have hlen := (take_golCodeword_wordOver hm).1.trans (take_golCodeword_wordOver hm').1.symm
  have hlast : distance [b] [b'] ≤ 1 := List.countP_le_length
  refine golCodeword_inj_of_distance hm hm' ?_
  rw [hb, hb', distance_append hlen]
  omega

end

theorem wAdd_left_cancel {n : Nat} {u e e' : Word} (hu : WordOver 2 n u) (he : WordOver 2 n e)
    (he' : WordOver 2 n e') (h : wAdd 2 u e = wAdd 2 u e') : e = e' := by
  refine wordOver_ext he he' ?_
  have hvec := congrArg (symbolVec 2 n) h
  rwa [symbolVec_wAdd 2 n (hu.1.trans he.1.symm), symbolVec_wAdd 2 n (hu.1.trans he'.1.symm),
    add_right_inj] at hvec

/-- A codeword with an error added. -/
def golNoisy (p : Word × Word) : Word := wAdd 2 ((golCodeword p.1).take 23) p.2

/-- The messages with the errors of weight at most 3. -/
def golNoise : Finset (Word × Word) :=
  binaryWords 12 ×ˢ (binaryWords 23).filter fun e => wt e ≤ 3

theorem mem_golNoise_iff (p : Word × Word) :
    p ∈ golNoise ↔ WordOver 2 12 p.1 ∧ WordOver 2 23 p.2 ∧ wt p.2 ≤ 3 := by
  rw [golNoise, Finset.mem_product, Finset.mem_filter, mem_binaryWords_iff, mem_binaryWords_iff]

/-- There are as many as words of length 23: 2^12 * (1 + 23 + 253 + 1771) = 2^23. -/
theorem card_golNoise : golNoise.card = (binaryWords 23).card := by
  rw [golNoise, Finset.card_product, card_filter_wt_le, card_binaryWords, card_binaryWords]
  decide

theorem golNoisy_wordOver {p : Word × Word} (hp : p ∈ golNoise) : WordOver 2 23 (golNoisy p) := by
  obtain ⟨hm, he, -⟩ := (mem_golNoise_iff p).1 hp
  exact wordOver_wAdd (by decide) (take_golCodeword_wordOver hm).1 he.1

theorem distance_golNoisy_le {p : Word × Word} (hp : p ∈ golNoise) :
    distance ((golCodeword p.1).take 23) (golNoisy p) ≤ 3 := by
  obtain ⟨hm, he, hwt⟩ := (mem_golNoise_iff p).1 hp
  rwa [golNoisy, distance_wAdd (by decide) (take_golCodeword_wordOver hm) he]

/-- The balls of radius 3 around the codewords are disjoint. -/
theorem golNoisy_injOn : Set.InjOn golNoisy golNoise := by
  intro p hp p' hp' heq
  obtain ⟨hm, he, -⟩ := (mem_golNoise_iff _).1 hp
  obtain ⟨hm', he', -⟩ := (mem_golNoise_iff _).1 hp'
  have hcw := take_golCodeword_wordOver hm
  have hcw' := take_golCodeword_wordOver hm'
  have hnear := distance_golNoisy_le hp
  have hnear' := distance_golNoisy_le hp'
  have hw := golNoisy_wordOver hp'
  rw [heq] at hnear
  rw [distance_comm hcw' hw] at hnear'
  have htriangle := distance_triangle hcw hw hcw'
  have hmessage : p.1 = p'.1 := golCodeword_inj_of_distance_take hm hm' (by omega)
  rw [golNoisy, golNoisy, ← hmessage] at heq
  exact Prod.ext hmessage (wAdd_left_cancel hcw he he' heq)

/-- Every word lies within distance 3 of a codeword. -/
theorem exists_golCodeword_near {w : Word} (hw : WordOver 2 23 w) :
    ∃ m, WordOver 2 12 m ∧ distance w ((golCodeword m).take 23) ≤ 3 := by
  have hmaps : Set.MapsTo golNoisy golNoise (binaryWords 23) := fun p hp =>
    (mem_binaryWords_iff 23 _).2 (golNoisy_wordOver hp)
  obtain ⟨p, hp, rfl⟩ := Finset.surjOn_of_injOn_of_card_le golNoisy hmaps golNoisy_injOn
    card_golNoise.ge ((mem_binaryWords_iff 23 w).2 hw)
  obtain ⟨hm, -⟩ := (mem_golNoise_iff p).1 hp
  refine ⟨p.1, hm, ?_⟩
  rw [distance_comm hw (take_golCodeword_wordOver hm)]
  exact distance_golNoisy_le hp

end Sys2Proof.Machine

/-! ## DEC and DECM on a binary Golay slot -/

namespace Sys2Proof.Machine

section
variable {c : Code} (hkind : c.kind = .gol) (hq : c.q = 2)
include hkind hq

theorem encodeWord_gol24 (hn : c.n = 24) (hk : c.k = 12) {m : Word} (hm : WordOver 2 12 m) :
    encodeWord c m = golCodeword m := by
  rw [golCodeword_eq_linEncode hm]
  simp only [encodeWord, hkind, golEncode, hq, hn, hk]

theorem encodeWord_gol23 (hn : c.n = 23) (hk : c.k = 12) {m : Word} (hm : WordOver 2 12 m) :
    encodeWord c m = (golCodeword m).take 23 := by
  rw [golCodeword_eq_linEncode hm, ← golEncode23_eq_take hm]
  simp only [encodeWord, hkind, golEncode, hq, hn, hk]

variable (hc : c.ok = true)
include hc

/-- The orders of the binary codes. -/
theorem Code.ok_gol_binary : (c.n = 24 ∨ c.n = 23) ∧ c.k = 12 := by
  have hrow := Code.ok_gol_row hc hkind
  omega

/-- Both decoders answer the codeword within distance 3 of the word. -/
theorem golDecode_ok_iff {w : Word} (hw : WordOver 2 c.n w) (x : Word) :
    golDecode Config.params c w = .ok x
      ↔ ∃ m, WordOver 2 12 m ∧ x = encodeWord c m ∧ distance w x ≤ 3 := by
  obtain ⟨hn | hn, hk⟩ := Code.ok_gol_binary hkind hq hc
  all_goals rw [hn] at hw
  · rw [golDecode, if_pos hn, golDecode24_ok_iff hw]
    refine exists_congr fun m => and_congr_right fun hm => ?_
    rw [encodeWord_gol24 hkind hq hn hk hm]
  · rw [golDecode, if_neg (by omega), if_pos hn, golDecode23_ok_iff hw]
    refine exists_congr fun m => and_congr_right fun hm => ?_
    rw [encodeWord_gol23 hkind hq hn hk hm]

variable {s : State} (wd : WordIdx) {ws : WordIdx} {cs : SlotIdx} (hslot : s.slot cs = some c)
include hslot

/-- What DEC and DECM do within distance 3 of a codeword. -/
theorem exec_dec_decm_of_golay_near {m : Word} (hm : WordOver 2 12 m)
    (hw : WordOver 2 c.n (s.word ws)) (hnear : distance (s.word ws) (encodeWord c m) ≤ 3) :
    exec (.dec wd ws cs) s = .next (s.setWord wd (encodeWord c m)).reportsSuccess
      ∧ exec (.decm wd ws cs) s = .next (s.setWord wd m).reportsSuccess := by
  obtain ⟨-, hk⟩ := Code.ok_gol_binary hkind hq hc
  have hok := (golDecode_ok_iff hkind hq hc hw _).2 ⟨m, hm, rfl, hnear⟩
  have htake := take_encodeWord_gol hc hkind (w := m) (by rwa [hq, hk])
  refine exec_dec_decm_of_ok wd ((decodeOperand_ok_iff ws cs s _).2
    ⟨c, hslot, hw.1, hq ▸ hw.2, ?_⟩)
  simp only [decodeWord, hkind, withMessage_ok_iff]
  exact ⟨hok, htake.symm⟩

/-- What they do where no codeword is that near. -/
theorem exec_dec_decm_of_golay_far (hw : WordOver 2 c.n (s.word ws))
    (hfar : ∀ m, WordOver 2 12 m → ¬ distance (s.word ws) (encodeWord c m) ≤ 3) :
    exec (.dec wd ws cs) s = .next (s.raised 3 6)
      ∧ exec (.decm wd ws cs) s = .next (s.raised 3 6) := by
  obtain ⟨hn, -⟩ := Code.ok_gol_binary hkind hq hc
  have hcheck := (checkOperand_ok_iff (s.word ws) _ c.n c.q).2 ⟨rfl, hw.1, hq ▸ hw.2⟩
  cases hdecode : golDecode Config.params c (s.word ws) with
  | ok x =>
    obtain ⟨m, hm, rfl, hnear⟩ := (golDecode_ok_iff hkind hq hc hw x).1 hdecode
    exact absurd hnear (hfar m hm)
  | error e =>
    obtain rfl | ⟨h24, h23, -⟩ := golDecode_error hdecode
    · refine exec_dec_decm_of_error (e := .dfGolNomatch) wd ws ?_
      rw [decodeOperand_eq ws hslot, hcheck]
      simp only [Except.bind, decodeWord, hkind, hdecode, withMessage]
    · omega

end

/-- Settles O45: a codeword with at most three errors is within distance 3 of the word, and one with four
errors at order 24 leaves no codeword there, the minimum distance being 8. -/
theorem golayCommandsCorrectThreeErrors : Obligations.GolayCommandsCorrectThreeErrors := by
  intro s wd ws cs c hslot hc hkind hq
  obtain ⟨-, hk⟩ := Code.ok_gol_binary hkind hq hc
  have hcode {m : Word} (hm : WordOver 2 12 m) : WordOver 2 c.n (encodeWord c m) := by
    have h := encodeWord_wordOver hc (w := m) (by rwa [hq, hk])
    rwa [hq] at h
  have hnoisy {m e : Word} (hm : WordOver 2 12 m) (he : WordOver 2 c.n e)
      (hword : s.word ws = wAdd 2 (encodeWord c m) e) :
      WordOver 2 c.n (s.word ws) ∧ distance (encodeWord c m) (s.word ws) = wt e := by
    rw [hword]
    exact ⟨wordOver_wAdd (by decide) (hcode hm).1 he.1, distance_wAdd (by decide) (hcode hm) he⟩
  refine ⟨fun m e hm he hwt hword => ?_, fun hn hw => ?_, fun m e hn hm he hwt hword => ?_⟩
  · obtain ⟨hw, hdist⟩ := hnoisy hm he hword
    refine exec_dec_decm_of_golay_near hkind hq hc wd hslot hm hw ?_
    rwa [distance_comm hw (hcode hm), hdist]
  · rw [← hn] at hw
    by_cases hnear : ∃ m, WordOver 2 12 m ∧ distance (s.word ws) (encodeWord c m) ≤ 3
    · obtain ⟨m, hm, hdist⟩ := hnear
      exact .inr ⟨m, hm, hdist, exec_dec_decm_of_golay_near hkind hq hc wd hslot hm hw hdist⟩
    · exact .inl (exec_dec_decm_of_golay_far hkind hq hc wd hslot hw
        fun m hm hdist => hnear ⟨m, hm, hdist⟩)
  · rw [← hn] at he
    obtain ⟨hw, hdist⟩ := hnoisy hm he hword
    refine exec_dec_decm_of_golay_far hkind hq hc wd hslot hw fun m' hm' hnear => ?_
    have htriangle := distance_triangle (hcode hm) hw (hcode hm')
    obtain rfl : m = m' := golCodeword_inj_of_distance hm hm' (by
      rw [← encodeWord_gol24 hkind hq hn hk hm, ← encodeWord_gol24 hkind hq hn hk hm']
      omega)
    rw [distance_comm hw (hcode hm), hdist, hwt] at hnear
    omega

/-- Settles O46: the order-23 code is perfect. -/
theorem golay23DecodeNeverRaises : Obligations.Golay23DecodeNeverRaises := by
  intro s wd ws cs c hslot hc hkind hn hw
  have hrow := Code.ok_gol_row hc hkind
  obtain ⟨hq, hk⟩ : c.q = 2 ∧ c.k = 12 := by omega
  obtain ⟨m, hm, hnear⟩ := exists_golCodeword_near hw
  rw [← encodeWord_gol23 hkind hq hn hk hm] at hnear
  rw [← hn] at hw
  exact ⟨m, hm, hnear, exec_dec_decm_of_golay_near hkind hq hc wd hslot hm hw hnear⟩

end Sys2Proof.Machine

/-! ## RM.NEW, and the rows of the Reed–Muller code (45_reed_muller.md R205 to R208) -/

namespace Sys2Proof.Machine

/-- Settles O31: the slot is empty and both bounds on r and m hold. -/
theorem rmNewBuildsTheCode : Obligations.RmNewBuildsTheCode := by
  intro s cs r m hslot hr hm
  exact exec_of_body_ok (i := .rmNew cs r m)
    ((buildReedMuller_ok_iff cs r m s _).2 ⟨hslot, hr, hm, rfl⟩)

/-! ### The variable sets of one degree (45_reed_muller.md R207) -/

/-- The g-element subsets of a list are its sublists of length g. -/
theorem mem_subsets_iff (l : List Nat) (g : Nat) (T : List Nat) :
    T ∈ subsets l g ↔ T.Sublist l ∧ T.length = g := by
  induction l generalizing g T with
  | nil => cases g <;> simp +contextual [subsets]
  | cons x l ih =>
    cases g with
    | zero => simp +contextual [subsets]
    | succ g =>
      simp only [subsets, List.mem_append, List.mem_map, ih, List.sublist_cons_iff, or_and_right]
      rw [or_comm]
      refine or_congr_right ⟨?_, ?_⟩
      · rintro ⟨T, ⟨hsub, rfl⟩, rfl⟩
        exact ⟨⟨T, rfl, hsub⟩, rfl⟩
      · rintro ⟨⟨T, rfl, hsub⟩, hlen⟩
        exact ⟨T, ⟨hsub, Nat.succ.inj hlen⟩, rfl⟩

/-- Of the subsets of a rising list, those with its first member come first. -/
theorem subsets_pairwise {l : List Nat} (hl : l.Pairwise (· < ·)) (g : Nat) :
    (subsets l g).Pairwise TupleLt := by
  induction l generalizing g with
  | nil => cases g <;> simp [subsets]
  | cons x l ih =>
    obtain ⟨hx, hl⟩ := List.pairwise_cons.1 hl
    cases g with
    | zero => exact List.pairwise_singleton _ _
    | succ g =>
      rw [subsets, List.pairwise_append]
      refine ⟨List.pairwise_map.2 ((ih hl g).imp .cons), ih hl (g + 1), fun u hu v hv => ?_⟩
      obtain ⟨u, -, rfl⟩ := List.mem_map.1 hu
      obtain ⟨hsub, hlen⟩ := (mem_subsets_iff l _ v).1 hv
      obtain ⟨y, v, rfl⟩ := List.exists_cons_of_length_eq_add_one hlen
      exact .rel (hx y (hsub.subset (.head _)))

/-- A rising list with all its members in another is a sublist of it. -/
theorem sublist_of_rising_subset {T l : List Nat} (hT : T.Pairwise (· < ·))
    (hl : l.Pairwise (· < ·)) (h : T ⊆ l) : T.Sublist l :=
  List.sublist_of_subperm_of_pairwise
    (List.subperm_of_subset (hT.imp fun hlt => hlt.ne) h) hT hl

theorem mem_rmDegreeSets_iff (m g : Nat) (T : List Nat) :
    T ∈ rmDegreeSets m g ↔ T.Pairwise (· < ·) ∧ (∀ i ∈ T, i < m) ∧ T.length = g := by
  rw [rmDegreeSets, mem_subsets_iff, ← and_assoc]
  refine and_congr_left fun _ => ⟨fun h => ⟨List.pairwise_lt_range.sublist h, fun i hi =>
    List.mem_range.1 (h.subset hi)⟩, fun ⟨hT, hm⟩ => ?_⟩
  exact sublist_of_rising_subset hT List.pairwise_lt_range fun i hi => List.mem_range.2 (hm i hi)

theorem rmDegreeSets_pairwise (m g : Nat) : (rmDegreeSets m g).Pairwise TupleLt :=
  subsets_pairwise List.pairwise_lt_range g

/-! ### Indicators and rows (45_reed_muller.md R206, R207) -/

theorem colBit_eq_toNat (col i : Nat) : colBit col i = (col.testBit i).toNat :=
  (Nat.toNat_testBit col i).symm

theorem rmIndicator_getD {m col : Nat} (hcol : col < 2 ^ m) (i : Nat) :
    (rmIndicator m i).getD col 0 = if col.testBit i then 0 else 1 := by
  cases hbit : col.testBit i <;> simp [rmIndicator, hcol, colBit_eq_toNat, hbit]

theorem rmRow_nil (m : Nat) : rmRow m [] = List.replicate (2 ^ m) 1 := by
  simp [rmRow]

/-- One more variable multiplies in its indicator. -/
theorem rmRow_cons (m i : Nat) (T : List Nat) :
    rmRow m (i :: T) = List.zipWith (· * ·) (rmIndicator m i) (rmRow m T) := by
  refine List.ext_getElem (by simp [rmRow, rmIndicator]) fun col _ _ => ?_
  by_cases hi : colBit col i = 0 <;> simp [rmRow, rmIndicator, hi]

theorem rmRow_eq_foldr (m : Nat) (T : List Nat) :
    rmRow m T = T.foldr (fun i acc => List.zipWith (· * ·) (rmIndicator m i) acc)
      (List.replicate (2 ^ m) 1) := by
  induction T with
  | nil => exact rmRow_nil m
  | cons i T ih => rw [rmRow_cons, ih, List.foldr_cons]

/-- Settles O49: bit i of a column is `testBit`, each variable of a row multiplies in its indicator, and
the sets of a degree are sublists of a rising list, those with its first member first. -/
theorem rmRowsAreProductsOfIndicators : Obligations.RmRowsAreProductsOfIndicators := fun m =>
  ⟨fun i _ _ hcol => rmIndicator_getD hcol i, fun T _ => rmRow_eq_foldr m T,
    fun g => ⟨rmDegreeSets_pairwise m g, mem_rmDegreeSets_iff m g⟩⟩

/-! ### The boundary table (45_reed_muller.md R208) -/

/-- The variable sets of the rows of the degrees below g, in list order. -/
def rmSetsBelow (m g : Nat) : List (List Nat) := (List.range g).flatMap (rmDegreeSets m)

theorem rmRowSets_eq (r m : Nat) : rmRowSets r m = rmSetsBelow m (r + 1) := rfl

theorem rmSetsBelow_succ (m g : Nat) :
    rmSetsBelow m (g + 1) = rmSetsBelow m g ++ rmDegreeSets m g := by
  simp [rmSetsBelow, List.range_succ]

theorem mem_rmSetsBelow_iff (m g : Nat) (T : List Nat) :
    T ∈ rmSetsBelow m g ↔ ∃ g' < g, T ∈ rmDegreeSets m g' := by
  simp [rmSetsBelow]

theorem length_rmSetsBelow (m g : Nat) : (rmSetsBelow m g).length = rmBound m g := by
  cases g with
  | zero => rfl
  | succ r => exact length_rmRowSets r m

theorem rmBound_mono (m : Nat) : Monotone (rmBound m) :=
  monotone_nat_of_le_succ fun g => by simp [rmBound_succ]

/-- The position of a row lies between the boundaries of its degree. -/
theorem rmSetsBelow_position {m g j : Nat} {T : List Nat} (h : (rmSetsBelow m g)[j]? = some T) :
    rmBound m T.length ≤ j ∧ j < rmBound m (T.length + 1) := by
  induction g with
  | zero => simp [rmSetsBelow] at h
  | succ g ih =>
    rw [rmSetsBelow_succ, List.getElem?_append, length_rmSetsBelow] at h
    split_ifs at h with hj
    · exact ih h
    · obtain ⟨-, -, rfl⟩ := (mem_rmDegreeSets_iff m g T).1 (List.mem_of_getElem? h)
      have hlt := (List.getElem?_eq_some_iff.1 h).1
      rw [length_rmDegreeSets] at hlt
      rw [rmBound_succ]
      omega

/-- Settles O48: a position lies between the boundaries of one degree only. -/
theorem rmBoundaryTableMarksDegrees : Obligations.RmBoundaryTableMarksDegrees := by
  intro r m _
  refine ⟨rfl, length_rmRowSets r m, rmBound_eq_sum m, fun g j _ hj => ?_⟩
  rw [rmRowSets_eq] at hj ⊢
  rw [List.getD_eq_getElem _ _ hj]
  obtain ⟨hlow, hhigh⟩ := rmSetsBelow_position (List.getElem?_eq_getElem hj)
  refine ⟨fun ⟨hlow', hhigh'⟩ => ?_, fun h => h ▸ ⟨hlow, hhigh⟩⟩
  have hle := (rmBound_mono m).reflect_lt (hlow.trans_lt hhigh')
  have hge := (rmBound_mono m).reflect_lt (hlow'.trans_lt hhigh)
  omega

end Sys2Proof.Machine

/-! ## Majority-logic decoding within the radius (45_reed_muller.md R210 to R214)

On a voting row of T every row of T's degree or below vanishes but T's own, so each vote on a codeword is
T's message bit; an error falls in one voting row of T, so at most as many votes are wrong as there are
errors. -/

namespace Sys2Proof.Machine

/-! ### Inner products of words (00_scope.md R8) -/

theorem dot_lt {q : Nat} (hq : 0 < q) (u v : Word) : dot q u v < q := Nat.mod_lt _ hq

theorem natCast_dot_wAdd {q n : Nat} {u v : Word} (hu : u.length = n) (hv : v.length = n) (x : Word) :
    (dot q (wAdd q u v) x : ZMod q) = dot q u x + dot q v x := by
  rw [natCast_dot q n (by simp [hu, hv]), natCast_dot q n hu, natCast_dot q n hv,
    symbolVec_wAdd q n (hu.trans hv.symm), add_dotProduct]

/-- The inner products of v with the rows of M decide that of v with w * M. -/
theorem dot_vecMat {q n : Nat} (hq : 0 < q) {w : Word} {M : Matrix}
    (hM : ∀ row ∈ M, row.length = n) (v : Word) :
    dot q (vecMat q n w M) v = dot q w (matVec q M v) := by
  refine eq_of_natCast_eq (dot_lt hq _ _) (dot_lt hq _ _) ?_
  rw [natCast_dot q n (vecMat_length q n w M hM), natCast_dot q w.length rfl,
    symbolVec_vecMat q rfl hM, symbolVec_matVec q w.length v hM, Matrix.dotProduct_mulVec]

theorem dot_zeros {q : Nat} (hq : 0 < q) (n : Nat) (w : Word) : dot q w (zeros n) = 0 := by
  refine eq_of_natCast_eq (dot_lt hq _ _) hq ?_
  rw [natCast_dot q w.length rfl, symbolVec_zeros, dotProduct_zero, Nat.cast_zero]

theorem dot_unit {q n j : Nat} {w : Word} (hw : WordOver q n w) (hj : j < w.length) :
    dot q w (unit n j) = w[j] := by
  have hlt := hw.2 _ (List.getElem_mem hj)
  refine eq_of_natCast_eq (dot_lt (Nat.zero_lt_of_lt hlt) _ _) hlt ?_
  rw [natCast_dot q n hw.1, symbolVec_unit q n ⟨j, hw.1 ▸ hj⟩, dotProduct_single, mul_one, symbolVec,
    List.getD_eq_getElem _ _ hj]

/-! ### The bits of a column (45_reed_muller.md R206) -/

theorem colBit_lt (col i : Nat) : colBit col i < 2 := Nat.mod_lt _ Nat.two_pos

theorem eq_of_colBit_eq {m col col' : Nat} (hcol : col < 2 ^ m) (hcol' : col' < 2 ^ m)
    (h : ∀ i < m, colBit col i = colBit col' i) : col = col' := by
  refine Nat.eq_of_testBit_eq fun i => ?_
  obtain hi | hi := lt_or_ge i m
  · simp only [Nat.testBit_eq_decide_div_mod_eq]
    exact congrArg (fun bit => decide (bit = 1)) (h i hi)
  · have hpow := Nat.pow_le_pow_right Nat.two_pos hi
    rw [Nat.testBit_lt_two_pow (hcol.trans_le hpow), Nat.testBit_lt_two_pow (hcol'.trans_le hpow)]

/-- Changing bit i of a column keeps its other bits. -/
theorem colBit_xor_of_ne {i j : Nat} (hij : j ≠ i) (col : Nat) :
    colBit (col ^^^ 2 ^ i) j = colBit col j := by
  simp [colBit_eq_toNat, Nat.testBit_xor, Nat.testBit_two_pow_of_ne hij.symm]

/-- The column whose bits at the positions U are b, the others 0. -/
def columnOf (m : Nat) (U b : List Nat) : Nat :=
  Nat.ofBits fun i : Fin m => b.getD (U.idxOf i.val) 0 == 1

theorem columnOf_lt (m : Nat) (U b : List Nat) : columnOf m U b < 2 ^ m := Nat.ofBits_lt_two_pow _

theorem colBit_columnOf_of_notMem {m i : Nat} {U b : List Nat} (hb : b.length = U.length)
    (hi : i ∉ U) : colBit (columnOf m U b) i = 0 := by
  have hidx : b.length ≤ U.idxOf i := by rw [hb, List.idxOf_eq_length hi]
  simp [colBit_eq_toNat, columnOf, Nat.testBit_ofBits, hidx]

theorem map_colBit_columnOf {m : Nat} {U b : List Nat} (hb : WordOver 2 U.length b)
    (hU : U.Nodup) (hm : ∀ i ∈ U, i < m) : U.map (colBit (columnOf m U b)) = b := by
  refine List.ext_getElem (by simp [hb.1]) fun k hk hk' => ?_
  have hkU : k < U.length := by simpa using hk
  obtain h | h := Nat.le_one_iff_eq_zero_or_eq_one.1
      (Nat.le_of_lt_succ (hb.2 _ (List.getElem_mem hk'))) <;>
    simp [colBit_eq_toNat, columnOf, hm _ (List.getElem_mem hkU), hU.idxOf_getElem k hkU, h, hk']

/-! ### Voting rows (45_reed_muller.md R210) -/

theorem mem_rmComplement_iff (m : Nat) (T : List Nat) (i : Nat) :
    i ∈ rmComplement m T ↔ i < m ∧ i ∉ T := by
  simp [rmComplement]

theorem rmComplement_nodup (m : Nat) (T : List Nat) : (rmComplement m T).Nodup :=
  List.nodup_range.filter _

theorem length_rmComplement {m g : Nat} {T : List Nat} (hT : T ∈ rmDegreeSets m g) :
    (rmComplement m T).length = m - g := by
  obtain ⟨hrising, hm, hlen⟩ := (mem_rmDegreeSets_iff m g T).1 hT
  have hnodup : T.Nodup := hrising.imp fun hlt => hlt.ne
  have hset : (rmComplement m T).toFinset = Finset.range m \ T.toFinset := by
    ext i
    simp [mem_rmComplement_iff]
  have hsub : T.toFinset ⊆ Finset.range m := fun i hi => by simpa using hm i (by simpa using hi)
  rw [← List.toFinset_card_of_nodup (rmComplement_nodup m T), hset, Finset.card_sdiff_of_subset hsub,
    Finset.card_range, List.toFinset_card_of_nodup hnodup, hlen]

/-- The voting rows tell the columns apart by their bits at the positions U. -/
theorem votingRow_eq (m : Nat) {U b : List Nat} (hb : b.length = U.length) :
    votingRow m U b
      = (List.range (2 ^ m)).map fun col => if U.map (colBit col) = b then 1 else 0 := by
  refine List.map_congr_left fun col _ => if_congr ?_ rfl rfl
  induction U generalizing b with
  | nil => simp [List.eq_nil_of_length_eq_zero hb]
  | cons i U ih =>
    obtain ⟨x, b, rfl⟩ := List.exists_cons_of_length_eq_add_one hb
    simpa using fun _ => ih (by simpa using hb)

/-- The inner product of a row and a voting row counts, modulo 2, the columns that both mark. -/
theorem natCast_dot_rmRow_votingRow (m : Nat) (S : List Nat) {U b : List Nat}
    (hb : b.length = U.length) :
    (dot 2 (rmRow m S) (votingRow m U b) : ZMod 2)
      = ∑ col ∈ Finset.range (2 ^ m),
          if U.map (colBit col) = b ∧ ∀ i ∈ S, colBit col i = 0 then 1 else 0 := by
  rw [natCast_dot 2 (2 ^ m) (by simp [rmRow]), votingRow_eq m hb, Finset.sum_range]
  refine Finset.sum_congr rfl fun col _ => ?_
  simp [symbolVec, rmRow, ite_and]

/-- A variable of neither S nor U pairs off the columns that both rows mark. -/
theorem dot_rmRow_votingRow_of_free {m i : Nat} {S U b : List Nat} (hb : b.length = U.length)
    (hi : i < m) (hS : i ∉ S) (hU : i ∉ U) : dot 2 (rmRow m S) (votingRow m U b) = 0 := by
  refine eq_of_natCast_eq (dot_lt Nat.two_pos _ _) Nat.two_pos ?_
  rw [natCast_dot_rmRow_votingRow m S hb, Nat.cast_zero]
  have hkeep {V : List Nat} (hV : i ∉ V) (col : Nat) {j : Nat} (hj : j ∈ V) :
      colBit (col ^^^ 2 ^ i) j = colBit col j := colBit_xor_of_ne (ne_of_mem_of_not_mem hj hV) col
  refine Finset.sum_involution (fun col _ => col ^^^ 2 ^ i) (fun col _ => ?_) (fun col _ _ => ?_)
    (fun col hcol => ?_) (fun col _ => Nat.xor_xor_cancel_right col _)
  · have hmarks : (∀ j ∈ S, colBit (col ^^^ 2 ^ i) j = 0) ↔ ∀ j ∈ S, colBit col j = 0 :=
      forall₂_congr fun j hj => by rw [hkeep hS col hj]
    rw [List.map_congr_left fun j hj => hkeep hU col hj, if_congr (and_congr_right' hmarks) rfl rfl]
    exact CharTwo.add_self_eq_zero _
  · simp
  · simp only [Finset.mem_range] at hcol ⊢
    exact Nat.xor_lt_two_pow hcol (Nat.pow_lt_pow_right Nat.one_lt_two hi)

/-- A row and a voting row of its own mark one column in common. -/
theorem dot_rmRow_votingRow_self {m : Nat} {T b : List Nat}
    (hb : WordOver 2 (rmComplement m T).length b) :
    dot 2 (rmRow m T) (votingRow m (rmComplement m T) b) = 1 := by
  have hfree {i : Nat} (hi : i ∈ T) : i ∉ rmComplement m T := fun h =>
    ((mem_rmComplement_iff m T i).1 h).2 hi
  have hcolumn := map_colBit_columnOf hb (rmComplement_nodup m T) fun i hi =>
    ((mem_rmComplement_iff m T i).1 hi).1
  have hzero : ∀ i ∈ T, colBit (columnOf m (rmComplement m T) b) i = 0 := fun i hi =>
    colBit_columnOf_of_notMem hb.1 (hfree hi)
  refine eq_of_natCast_eq (dot_lt Nat.two_pos _ _) Nat.one_lt_two ?_
  rw [natCast_dot_rmRow_votingRow m T hb.1,
    Finset.sum_eq_single (columnOf m (rmComplement m T) b), if_pos ⟨hcolumn, hzero⟩, Nat.cast_one]
  · refine fun col hcol hne => if_neg fun ⟨hU, hT⟩ => hne ?_
    refine eq_of_colBit_eq (Finset.mem_range.1 hcol) (columnOf_lt m _ b) fun i hi => ?_
    by_cases hiT : i ∈ T
    · rw [hT i hiT, hzero i hiT]
    · exact List.map_inj_left.1 (hU.trans hcolumn.symm) i ((mem_rmComplement_iff m T i).2 ⟨hi, hiT⟩)
  · exact fun h => absurd (Finset.mem_range.2 (columnOf_lt m _ b)) h

/-- On a voting row of T every row of T's degree or below vanishes but T's own. -/
theorem dot_rmRow_votingRow {m g g' : Nat} {S T b : List Nat} (hS : S ∈ rmDegreeSets m g')
    (hT : T ∈ rmDegreeSets m g) (hg : g' ≤ g) (hb : WordOver 2 (rmComplement m T).length b) :
    dot 2 (rmRow m S) (votingRow m (rmComplement m T) b) = if S = T then 1 else 0 := by
  obtain ⟨hSrising, -, hSlen⟩ := (mem_rmDegreeSets_iff m g' S).1 hS
  obtain ⟨hTrising, hTm, hTlen⟩ := (mem_rmDegreeSets_iff m g T).1 hT
  obtain rfl | hST := eq_or_ne S T
  · rw [if_pos rfl, dot_rmRow_votingRow_self hb]
  · rw [if_neg hST]
    obtain ⟨i, hiT, hiS⟩ : ∃ i ∈ T, i ∉ S := by
      by_contra! hsub
      exact hST ((sublist_of_rising_subset hTrising hSrising hsub).eq_of_length_le (by omega)).symm
    exact dot_rmRow_votingRow_of_free hb.1 (hTm i hiT) hiS
      fun hi => ((mem_rmComplement_iff m T i).1 hi).2 hiT

/-! ### Votes on a codeword (45_reed_muller.md R211, R214) -/

theorem rmRow_length (m : Nat) (T : List Nat) : (rmRow m T).length = 2 ^ m := by simp [rmRow]

theorem map_rmRow_length (m : Nat) (Ts : List (List Nat)) :
    ∀ row ∈ Ts.map (rmRow m), row.length = 2 ^ m :=
  List.forall_mem_map.2 fun T _ => rmRow_length m T

/-- The sum of the rows of the degrees below g whose bit is 1. -/
def rmCodewordBelow (m g : Nat) (msg : Word) : Word :=
  vecMat 2 (2 ^ m) msg ((rmSetsBelow m g).map (rmRow m))

theorem rmEncode_eq (r m : Nat) (msg : Word) :
    rmEncode r m msg = rmCodewordBelow m (r + 1) msg := rfl

theorem rmCodewordBelow_wordOver (m g : Nat) (msg : Word) :
    WordOver 2 (2 ^ m) (rmCodewordBelow m g msg) :=
  vecMat_wordOver Nat.two_pos msg (map_rmRow_length m _)

theorem rmContribution_wordOver (m g : Nat) (bits : Word) :
    WordOver 2 (2 ^ m) (rmContribution m g bits) :=
  vecMat_wordOver Nat.two_pos bits (map_rmRow_length m _)

theorem rmCodewordBelow_succ {m g : Nat} {lower : Word} (hlower : lower.length = rmBound m g)
    (bits : Word) :
    rmCodewordBelow m (g + 1) (lower ++ bits)
      = wAdd 2 (rmCodewordBelow m g lower) (rmContribution m g bits) := by
  rw [rmCodewordBelow, rmSetsBelow_succ, List.map_append]
  exact vecMat_append Nat.two_pos (by rw [hlower, List.length_map, length_rmSetsBelow])
    (map_rmRow_length m _) (map_rmRow_length m _)

/-- The rows of lower degree do not vote on T. -/
theorem dot_rmCodewordBelow_votingRow {m g : Nat} {T b : List Nat} (hT : T ∈ rmDegreeSets m g)
    (hb : WordOver 2 (rmComplement m T).length b) (lower : Word) :
    dot 2 (rmCodewordBelow m g lower) (votingRow m (rmComplement m T) b) = 0 := by
  have hvanish : matVec 2 ((rmSetsBelow m g).map (rmRow m)) (votingRow m (rmComplement m T) b)
      = zeros (rmBound m g) := by
    refine List.eq_replicate_iff.2 ⟨by simp [length_rmSetsBelow], fun x hx => ?_⟩
    obtain ⟨row, hrow, rfl⟩ := List.mem_map.1 hx
    obtain ⟨S, hS, rfl⟩ := List.mem_map.1 hrow
    obtain ⟨g', hg', hS⟩ := (mem_rmSetsBelow_iff m g S).1 hS
    rw [dot_rmRow_votingRow hS hT hg'.le hb, if_neg]
    rintro rfl
    have hlen := ((mem_rmDegreeSets_iff m g' S).1 hS).2.2
    have hlen' := ((mem_rmDegreeSets_iff m g S).1 hT).2.2
    omega
  rw [rmCodewordBelow, dot_vecMat Nat.two_pos (map_rmRow_length m _), hvanish,
    dot_zeros Nat.two_pos]

theorem rmDegreeSets_nodup (m g : Nat) : (rmDegreeSets m g).Nodup :=
  (rmDegreeSets_pairwise m g).imp (S := (· ≠ ·)) fun hlt heq => tupleLt_irrefl _ (heq ▸ hlt)

/-- The rows of T's degree vote T's bit. -/
theorem dot_rmContribution_votingRow {m g j : Nat} {bits b : Word}
    (hbits : WordOver 2 (m.choose g) bits) (hj : j < (rmDegreeSets m g).length)
    (hj' : j < bits.length) (hb : WordOver 2 (rmComplement m (rmDegreeSets m g)[j]).length b) :
    dot 2 (rmContribution m g bits) (votingRow m (rmComplement m (rmDegreeSets m g)[j]) b)
      = bits[j] := by
  have hunit : matVec 2 ((rmDegreeSets m g).map (rmRow m))
      (votingRow m (rmComplement m (rmDegreeSets m g)[j]) b) = unit (m.choose g) j := by
    refine List.ext_getElem (by simp [length_rmDegreeSets]) fun i hi _ => ?_
    have hi' : i < (rmDegreeSets m g).length := by simpa using hi
    have hdot := dot_rmRow_votingRow (List.getElem_mem hi') (List.getElem_mem hj) le_rfl hb
    simpa [matVec, unit, (rmDegreeSets_nodup m g).getElem_inj_iff] using hdot
  rw [rmContribution, dot_vecMat Nat.two_pos (map_rmRow_length m _), hunit, dot_unit hbits hj']

/-! ### The majority (45_reed_muller.md R211, R214) -/

theorem map_getD_range (e : Word) : (List.range e.length).map (fun col => e.getD col 0) = e :=
  List.ext_getElem (by simp) fun col _ hcol => by simp [hcol]

/-- Each error falls in one voting row (45_reed_muller.md R214). -/
theorem countP_dot_votingRow_le_wt {m : Nat} (U : List Nat) {e : Word} (he : e.length = 2 ^ m) :
    (tuples 2 U.length).countP (fun b => dot 2 e (votingRow m U b) != 0) ≤ wt e := by
  have hwt : wt e = (List.range (2 ^ m)).countP fun col => e.getD col 0 != 0 := by
    conv_lhs => rw [← map_getD_range e, he]
    exact List.countP_map
  rw [hwt, List.countP_eq_length_filter, List.countP_eq_length_filter]
  refine (List.subperm_of_subset ((tuples_nodup 2 _).filter _) fun b hb => ?_).length_le.trans_eq
    (List.length_map fun col => U.map (colBit col))
  obtain ⟨hmem, hdot⟩ := List.mem_filter.1 hb
  have hlen := ((mem_tuples_iff 2 _ b).1 hmem).1
  simp only [List.mem_map, List.mem_filter, List.mem_range, bne_iff_ne] at hdot ⊢
  by_contra! hnone
  refine hdot ?_
  have hterms : ∀ x ∈ List.zipWith (· * ·) e (votingRow m U b), x = 0 := by
    rw [votingRow_eq m hlen]
    intro x hx
    obtain ⟨col, hcol, rfl⟩ := List.getElem_of_mem hx
    have hcol' : col < 2 ^ m := by simpa [he] using hcol
    by_cases hbits : U.map (colBit col) = b
    · have hzero : e.getD col 0 = 0 := by
        by_contra hne
        exact hnone col ⟨hcol', hne⟩ hbits
      rw [List.getD_eq_getElem _ _ (he.symm ▸ hcol')] at hzero
      simp [hzero]
    · simp [hbits]
  rw [dot, List.sum_eq_zero hterms, Nat.zero_mod]

theorem countP_bne_add_countP_beq (a : Nat) (l : List Nat) :
    l.countP (· != a) + l.countP (· == a) = l.length := by
  rw [List.length_eq_countP_add_countP (· == a), add_comm, Nat.add_left_cancel_iff]
  exact List.countP_congr fun v _ => by simp

/-- The bit that more than half of the votes show is decided. -/
theorem rmDecide_of_majority {m : Nat} {y : Word} {T : List Nat} {bit : Symbol} (hbit : bit < 2)
    (h : 2 * (rmVotes m y T).countP (· != bit) < (rmVotes m y T).length) :
    rmDecide m y T = .ok bit := by
  have hvotes : ∀ v ∈ rmVotes m y T, v < 2 :=
    List.forall_mem_map.2 fun b _ => dot_lt Nat.two_pos _ _
  have hother (a a' : Nat) (ha : ∀ v < 2, v ≠ a ↔ v = a') :
      (rmVotes m y T).countP (· != a) = (rmVotes m y T).countP (· == a') :=
    List.countP_congr fun v hv => by simpa using ha v (hvotes v hv)
  have hlength := countP_bne_add_countP_beq bit (rmVotes m y T)
  simp only [rmDecide]
  obtain rfl | rfl := Nat.le_one_iff_eq_zero_or_eq_one.1 (Nat.le_of_lt_succ hbit)
  · rw [hother 0 1 (by omega)] at h hlength
    rw [if_neg (by omega), if_pos (by omega)]
  · rw [hother 1 0 (by omega)] at h hlength
    rw [if_pos (by omega)]

/-- A vote on a codeword with errors is the message bit, where the voting row holds no error. -/
theorem dot_votingRow_of_noisy {m g j : Nat} {lower bits e b : Word}
    (hbits : WordOver 2 (m.choose g) bits) (he : e.length = 2 ^ m)
    (hj : j < (rmDegreeSets m g).length) (hj' : j < bits.length)
    (hb : WordOver 2 (rmComplement m (rmDegreeSets m g)[j]).length b)
    (hclean : dot 2 e (votingRow m (rmComplement m (rmDegreeSets m g)[j]) b) = 0) :
    dot 2 (wAdd 2 (wAdd 2 (rmCodewordBelow m g lower) (rmContribution m g bits)) e)
      (votingRow m (rmComplement m (rmDegreeSets m g)[j]) b) = bits[j] := by
  have hlower := (rmCodewordBelow_wordOver m g lower).1
  have hhigher := (rmContribution_wordOver m g bits).1
  refine eq_of_natCast_eq (dot_lt Nat.two_pos _ _) (hbits.2 _ (List.getElem_mem hj')) ?_
  rw [natCast_dot_wAdd (by simp [hlower, hhigher]) he, natCast_dot_wAdd hlower hhigher,
    dot_rmCodewordBelow_votingRow (List.getElem_mem hj) hb,
    dot_rmContribution_votingRow hbits hj hj' hb, hclean, Nat.cast_zero, zero_add, add_zero]

/-- Each row of degree g is decided right, as long as fewer than half of its voting rows can hold an
error. -/
theorem rmDecide_of_noisy {m g j : Nat} {lower bits e : Word}
    (hbits : WordOver 2 (m.choose g) bits) (he : e.length = 2 ^ m)
    (hwt : 2 * wt e < 2 ^ (m - g)) (hj : j < (rmDegreeSets m g).length) (hj' : j < bits.length) :
    rmDecide m (wAdd 2 (wAdd 2 (rmCodewordBelow m g lower) (rmContribution m g bits)) e)
      (rmDegreeSets m g)[j] = .ok bits[j] := by
  refine rmDecide_of_majority (hbits.2 _ (List.getElem_mem hj')) ?_
  have herrors := countP_dot_votingRow_le_wt (rmComplement m (rmDegreeSets m g)[j]) he
  rw [← length_rmComplement (List.getElem_mem hj)] at hwt
  rw [rmVotes, List.countP_map, List.length_map, length_tuples]
  refine lt_of_le_of_lt (Nat.mul_le_mul_left 2 (le_trans ?_ herrors)) hwt
  refine List.countP_mono_left fun b hb => ?_
  simp only [Function.comp_def, bne_iff_ne]
  exact mt (dot_votingRow_of_noisy hbits he hj hj' ((mem_tuples_iff 2 _ b).1 hb))

/-! ### The descent through the degrees (45_reed_muller.md R212) -/

theorem rmDecideAll_of_forall₂ {m : Nat} {y : Word} {Ts : List (List Nat)} {bits : Word}
    (h : List.Forall₂ (fun T bit => rmDecide m y T = .ok bit) Ts bits) :
    rmDecideAll m y Ts = .ok bits := by
  induction h with
  | nil => rfl
  | cons hbit _ ih => simp only [rmDecideAll, hbit, ih]

/-- In GF(2) adding a word again takes it away. -/
theorem wAdd_wAdd_cancel {n : Nat} {u v e : Word} (hu : u.length = n) (hv : v.length = n)
    (he : e.length = n) : wAdd 2 (wAdd 2 (wAdd 2 u v) e) v = wAdd 2 u e := by
  have huv : (wAdd 2 u v).length = n := by simp [hu, hv]
  have huve : (wAdd 2 (wAdd 2 u v) e).length = n := by simp [huv, he]
  have hself : symbolVec 2 n v + symbolVec 2 n v = 0 :=
    funext fun j => CharTwo.add_self_eq_zero (symbolVec 2 n v j)
  refine wordOver_ext (wordOver_wAdd Nat.two_pos huve hv) (wordOver_wAdd Nat.two_pos hu he) ?_
  rw [symbolVec_wAdd 2 n (huve.trans hv.symm), symbolVec_wAdd 2 n (huv.trans he.symm),
    symbolVec_wAdd 2 n (hu.trans hv.symm), symbolVec_wAdd 2 n (hu.trans he.symm), add_right_comm,
    add_assoc (symbolVec 2 n u), hself, add_zero]

/-- The votes below degree g find the message again: degree by degree the bits are decided right, and
without their rows the word is a codeword of the degrees below with the same errors. -/
theorem rmVote_of_noisy {m g : Nat} {msg e : Word} (hmsg : WordOver 2 (rmBound m g) msg)
    (he : WordOver 2 (2 ^ m) e) (hwt : 2 * wt e < 2 ^ (m + 1 - g)) :
    rmVote m g (wAdd 2 (rmCodewordBelow m g msg) e) = .ok msg := by
  induction g generalizing msg with
  | zero =>
    obtain rfl : msg = [] := List.eq_nil_of_length_eq_zero hmsg.1
    rfl
  | succ g ih =>
    have hlower := wordOver_take hmsg (rmBound_mono m g.le_succ)
    have hbits := wordOver_drop hmsg (rmBound_succ m g)
    have hsplit := rmCodewordBelow_succ hlower.1 (msg.drop (rmBound m g))
    rw [List.take_append_drop] at hsplit
    have hdecide : rmDecideAll m (wAdd 2 (rmCodewordBelow m (g + 1) msg) e) (rmDegreeSets m g)
        = .ok (msg.drop (rmBound m g)) := by
      refine rmDecideAll_of_forall₂ (List.forall₂_iff_get.2 ⟨by rw [hbits.1, length_rmDegreeSets],
        fun j hj hj' => ?_⟩)
      rw [hsplit]
      exact rmDecide_of_noisy hbits he.1 (by simpa using hwt) hj hj'
    have hrest := ih hlower (hwt.trans_le (Nat.pow_le_pow_right Nat.two_pos (by omega)))
    simp only [rmVote, hdecide]
    rw [hsplit, wAdd_wAdd_cancel (rmCodewordBelow_wordOver m g _).1 (rmContribution_wordOver m g _).1
      he.1, hrest]
    simp

theorem rmDecode_of_noisy {r m : Nat} {msg e : Word} (hmsg : WordOver 2 (rmBound m (r + 1)) msg)
    (he : WordOver 2 (2 ^ m) e) (hwt : 2 * wt e < 2 ^ (m - r)) :
    rmDecode r m (wAdd 2 (rmEncode r m msg) e) = .ok (rmEncode r m msg, msg) := by
  have hvote := rmVote_of_noisy hmsg he (by simpa using hwt)
  rw [← rmEncode_eq] at hvote
  simp only [rmDecode, hvote]

/-- Settles O50: within the radius fewer than half of the votes of every row are wrong. -/
theorem rmCommandsCorrectWithinRadius : Obligations.RmCommandsCorrectWithinRadius := by
  intro s wd ws cs c r m msg e hslot hc hkind hmsg he ht hword
  obtain ⟨hq, -, -, hn, hk, hd⟩ := Code.ok_rm hc hkind
  have hencode : encodeWord c msg = rmEncode r m msg := by simp only [encodeWord, hkind]
  have hwt : 2 * wt e < 2 ^ (m - r) := by
    have hpos : 0 < 2 ^ (m - r) := Nat.two_pow_pos _
    rw [Code.radius, hd] at ht
    omega
  have hw : WordOver c.q c.n (s.word ws) := by
    rw [hword, hq]
    exact wordOver_wAdd Nat.two_pos (encodeWord_length c msg hc hmsg.1) he.1
  have hdecode : decodeWord c (s.word ws) = .ok (encodeWord c msg, msg) := by
    simp only [decodeWord, hkind, hword, hencode]
    exact rmDecode_of_noisy (hk ▸ hmsg) (hn ▸ he) hwt
  exact exec_dec_decm_of_ok wd ((decodeOperand_ok_iff ws cs s _).2 ⟨c, hslot, hw.1, hw.2, hdecode⟩)

end Sys2Proof.Machine

/-! ## Decode within the radius, for a binary code of any family (41_linear_code.md R131) -/

namespace Sys2Proof.Machine

/-! ### Binary words -/

theorem wAdd_comm (q : Nat) (u v : Word) : wAdd q u v = wAdd q v u :=
  List.zipWith_comm_of_comm fun a b => by rw [gfAdd, gfAdd, Nat.add_comm]

theorem wAdd_left_comm (q : Nat) (u v w : Word) :
    wAdd q u (wAdd q v w) = wAdd q v (wAdd q u w) := by
  rw [← wAdd_assoc, wAdd_comm q u v, wAdd_assoc]

theorem wAdd_self (u : Word) : wAdd 2 u u = zeros u.length := by
  refine List.ext_getElem (by simp) fun i _ hi => ?_
  have hi : i < u.length := by simpa using hi
  simpa [wAdd, gfAdd, zeros] using Nat.even_iff.1 (Even.add_self u[i])

/-- In GF(2) adding a word twice changes nothing (46_fuzzy_extractor.md R227). -/
theorem wAdd_wAdd_self {n : Nat} {u v : Word} (hu : u.length = n) (hv : WordOver 2 n v) :
    wAdd 2 u (wAdd 2 u v) = v := by
  rw [← wAdd_assoc, wAdd_self, hu, zeros_wAdd hv]

theorem wt_wAdd_eq_distance {n : Nat} {u v : Word} (hu : WordOver 2 n u) (hv : WordOver 2 n v) :
    wt (wAdd 2 u v) = distance u v := by
  rw [← distance_wAdd Nat.two_pos hu (wordOver_wAdd Nat.two_pos hu.1 hv.1), wAdd_wAdd_self hu.1 hv]

/-! ### Words of weight 1 -/

theorem unit_succ_zero (n : Nat) : unit (n + 1) 0 = 1 :: zeros n := by
  simp [unit, zeros, List.range_succ_eq_map, Function.comp_def]

theorem unit_succ_succ (n i : Nat) : unit (n + 1) (i + 1) = 0 :: unit n i := by
  simp [unit, List.range_succ_eq_map, Function.comp_def]

/-- A word of weight 1 is a nonzero multiple of a unit word. -/
theorem exists_wScale_unit_of_wt_eq_one {q n : Nat} {e : Word} (he : WordOver q n e)
    (hwt : wt e = 1) : ∃ i b, i < n ∧ (1 ≤ b ∧ b < q) ∧ e = wScale q b (unit n i) := by
  induction n generalizing e with
  | zero =>
    obtain rfl : e = [] := List.eq_nil_of_length_eq_zero he.1
    simp [wt] at hwt
  | succ n ih =>
    obtain ⟨x, e, rfl⟩ := List.exists_cons_of_length_eq_add_one he.1
    obtain ⟨hx, hsym⟩ := List.forall_mem_cons.1 he.2
    have hlen : e.length = n := by simpa using he.1
    rw [wt_cons] at hwt
    by_cases hzero : x = 0
    · obtain ⟨i, b, hi, hb, rfl⟩ := ih ⟨hlen, hsym⟩ (by simpa [hzero] using hwt)
      refine ⟨i + 1, b, by omega, hb, ?_⟩
      simp [unit_succ_succ, wScale, gfMul, hzero]
    · obtain rfl := (wt_eq_zero_iff hlen).1 (by simpa [hzero] using hwt)
      refine ⟨0, x, by omega, ⟨Nat.one_le_iff_ne_zero.2 hzero, hx⟩, ?_⟩
      simp [unit_succ_zero, wScale, gfMul, zeros, Nat.mod_eq_of_lt hx]

/-! ### The decoders -/

section
variable {c : Code} {u e : Word} (hc : c.ok = true) (hu : WordOver c.q c.k u)
  (he : WordOver c.q c.n e) (hwt : wt e ≤ c.radius)
include hc hu he hwt

/-- One error, which is the radius (42_hamming.md R147). -/
theorem decodeWord_ham_of_noisy {r : Nat} (hkind : c.kind = .ham r) :
    decodeWord c (wAdd c.q (encodeWord c u) e) = .ok (encodeWord c u, u) := by
  obtain ⟨htake, hsyn⟩ := hamEncodeIsASystematicCodeword c r u hc hkind hu
  have hcw := encodeWord_wordOver hc hu
  have hradius : c.radius = 1 := by
    obtain ⟨-, -, -, -, hd⟩ := Code.ok_ham hc hkind
    rw [Code.radius, hd]
  have hdecode : hamDecode c r (wAdd c.q (encodeWord c u) e) = .ok (encodeWord c u) := by
    obtain hnone | hone : wt e = 0 ∨ wt e = 1 := by omega
    · rw [(wt_eq_zero_iff he.1).1 hnone, wAdd_comm, zeros_wAdd hcw]
      exact hamDecode_of_codeword hsyn
    · obtain ⟨i, b, hi, hb, rfl⟩ := exists_wScale_unit_of_wt_eq_one he hone
      rw [wAdd_wScale_unit hcw]
      exact hamDecode_single_error hc hkind hcw hsyn hi hb
  simp only [decodeWord, hkind, withMessage_ok_iff]
  exact ⟨hdecode, htake.symm⟩

/-- 43_bch.md R173 (b). -/
theorem decodeWord_bch_of_noisy {m off : Nat} {f a : List Symbol}
    (hkind : c.kind = .bch m off f a) :
    decodeWord c (wAdd c.q (encodeWord c u) e) = .ok (encodeWord c u, u) := by
  have hcw := encodeWord_wordOver hc hu
  have htake := take_encodeWord_bch hkind hu.1
  have hsyn := (bch_syndromes_zero_iff hc hkind hcw).2 (by rw [htake])
  have hzero := (allZero_bchSyndromes_iff _ off c.d _).2 hsyn
  exact (decodeWord_bch_iff hkind _ _ _).2
    ⟨(bchField_primitive hc hkind).bchDecode_wAdd he hcw hzero hwt, htake.symm⟩

/-- 44_golay.md R194 (a), (f). -/
theorem decodeWord_gol_of_noisy (hkind : c.kind = .gol) (hq : c.q = 2) :
    decodeWord c (wAdd c.q (encodeWord c u) e) = .ok (encodeWord c u, u) := by
  have hcw := encodeWord_wordOver hc hu
  have htake := take_encodeWord_gol hc hkind hu
  obtain ⟨-, hk⟩ := Code.ok_gol_binary hkind hq hc
  have hradius : c.radius = 3 := by
    have hrow := Code.ok_gol_row hc hkind
    rw [Code.radius]
    omega
  rw [hq, hk] at hu
  rw [hq] at he hcw ⊢
  have hw : WordOver 2 c.n (wAdd 2 (encodeWord c u) e) := wordOver_wAdd Nat.two_pos hcw.1 he.1
  have hnear : distance (wAdd 2 (encodeWord c u) e) (encodeWord c u) ≤ 3 := by
    rwa [distance_comm hw hcw, distance_wAdd Nat.two_pos hcw he, ← hradius]
  simp only [decodeWord, hkind, withMessage_ok_iff]
  exact ⟨(golDecode_ok_iff hkind hq hc hw _).2 ⟨u, hu, rfl, hnear⟩, htake.symm⟩

/-- 45_reed_muller.md R214 (b), (c). -/
theorem decodeWord_rm_of_noisy {r m : Nat} (hkind : c.kind = .rm r m) :
    decodeWord c (wAdd c.q (encodeWord c u) e) = .ok (encodeWord c u, u) := by
  obtain ⟨hq, -, -, hn, hk, hd⟩ := Code.ok_rm hc hkind
  have hhalf : 2 * wt e < 2 ^ (m - r) := by
    have hpos : 0 < 2 ^ (m - r) := Nat.two_pow_pos _
    rw [Code.radius, hd] at hwt
    omega
  rw [hq, hk] at hu
  rw [hq, hn] at he
  simp only [decodeWord, encodeWord, hkind, hq]
  exact rmDecode_of_noisy hu he hhalf

/-- A codeword of a binary code with at most t errors decodes to the codeword and its message
(41_linear_code.md R131). -/
theorem decodeWord_of_noisy (hq : c.q = 2) :
    decodeWord c (wAdd c.q (encodeWord c u) e) = .ok (encodeWord c u, u) := by
  cases hkind : c.kind with
  | ham r => exact decodeWord_ham_of_noisy hc hu he hwt hkind
  | bch m off f a => exact decodeWord_bch_of_noisy hc hu he hwt hkind
  | gol => exact decodeWord_gol_of_noisy hc hu he hwt hkind hq
  | rm r m => exact decodeWord_rm_of_noisy hc hu he hwt hkind

end

end Sys2Proof.Machine

/-! ## The fuzzy extractor: completion (46_fuzzy_extractor.md R226, R230, R232 to R234) -/

namespace Sys2Proof.Machine

/-- What FE.REP hashes when the reading decodes (46_fuzzy_extractor.md R230). -/
theorem reproduceInput_of_decode {c : Code} {h : Helper} {v cw msg : Word}
    (hdecode : decodeWord c (wAdd 2 v h.s) = .ok (cw, msg)) :
    reproduceInput c h v = .ok (wAdd 2 h.x (wAdd 2 h.s (encodeWord c msg))) := by
  simp only [reproduceInput, hdecode]

theorem reproduceInput_of_decode_error {c : Code} {h : Helper} {v : Word} {e : Trap}
    (hdecode : decodeWord c (wAdd 2 v h.s) = .error e) : reproduceInput c h v = .error e := by
  simp only [reproduceInput, hdecode]

/-- Settles O57: every check of FE.REP passes. -/
theorem feRepCompletesWhenTheReadingDecodes : Obligations.FeRepCompletesWhenTheReadingDecodes := by
  intro s wd ws fe c h cw msg hfe hslot hhelper hw hdecode
  exact exec_of_body_ok (i := .feRep wd ws) ((reproduce_ok_iff wd ws s _).2
    ⟨fe, c, h, _, hfe, hslot, hhelper, hw, reproduceInput_of_decode hdecode, rfl⟩)

/-- Settles O56: v + s is the codeword of u with v + w as its errors, and s + Encode(u) is w again. -/
theorem feRepReproducesTheEnrolledKey : Obligations.FeRepReproducesTheEnrolledKey := by
  intro s wd ws fe c w x u hfe hslot hc hq hw _ hu hhelper hv hnear
  have hmsg : WordOver c.q c.k u := by rwa [hq]
  have hcw : (encodeWord c u).length = c.n := encodeWord_length c u hc hu.1
  have herr : WordOver c.q c.n (wAdd 2 (s.word ws) w) := by
    rw [hq]
    exact wordOver_wAdd Nat.two_pos hv.1 hw.1
  have hdecode : decodeWord c (wAdd 2 (s.word ws) (wAdd 2 (encodeWord c u) w))
      = .ok (encodeWord c u, u) := by
    have hnoisy := decodeWord_of_noisy hc hmsg herr (by rwa [wt_wAdd_eq_distance hv hw]) hq
    rwa [hq, wAdd_left_comm] at hnoisy
  have hkey : wAdd 2 x (wAdd 2 (wAdd 2 (encodeWord c u) w) (encodeWord c u)) = wAdd 2 w x := by
    rw [wAdd_comm 2 (wAdd 2 _ w), wAdd_wAdd_self hcw hw, wAdd_comm]
  have hrep := feRepCompletesWhenTheReadingDecodes s wd ws fe c _ _ u hfe hslot hhelper hv hdecode
  simpa only [hkey] using hrep

/-! ### StrongExtract -/

theorem strongExtract_length (v : Word) : (strongExtract v).length = 256 := by
  simp [strongExtract, expandDigest]

theorem digestBit_lt (dg : Vector (BitVec 8) (Config.digestBits / 8)) (i : Nat) :
    digestBit dg i < 2 := Nat.mod_lt _ Nat.two_pos

/-- A digest bit is a bit of the byte it lies in, counted from the most significant one
(46_fuzzy_extractor.md R233). -/
theorem digestBit_eq_getLsbD (dg : Vector (BitVec 8) (Config.digestBits / 8)) {i : Nat}
    (hi : i / 8 < Config.digestBits / 8) :
    digestBit dg i = ((dg[i / 8]).getLsbD (7 - i % 8)).toNat := by
  rw [digestBit, List.getD_eq_getElem _ _ (by simpa using hi), Vector.getElem_toList,
    BitVec.getLsbD, Nat.toNat_testBit]

/-- Settles O60: symbol i is bit i of the digest. -/
theorem strongExtractExpandsTheDigest : Obligations.StrongExtractExpandsTheDigest := by
  refine fun v => ⟨strongExtract_length v, fun x hx => ?_, fun i => ?_⟩
  · obtain ⟨i, -, rfl⟩ := List.mem_map.1 hx
    exact digestBit_lt _ i
  · have hbyte : i.val / 8 < Config.digestBits / 8 := by
      rw [Config.digestBits_eq]
      omega
    rw [List.getD_eq_getElem _ _ (by rw [strongExtract_length]; exact i.isLt)]
    simp only [strongExtract, expandDigest, List.getElem_map, List.getElem_range]
    exact digestBit_eq_getLsbD _ hbyte

/-! ### FE.NEW -/

/-- Settles O54: every test of FE.NEW passes. -/
theorem feNewBindsTheSlot : Obligations.FeNewBindsTheSlot := by
  intro s cs mb pb c hfe hslot hq hmb hpb
  refine ⟨exec_of_body_ok (i := .feNew cs mb pb false) ((bindExtractor_ok_iff cs mb pb false s _).2
    ⟨hfe, c, hslot, hq, hmb, hpb, nofun, rfl⟩), fun hw0 hw1 => ?_⟩
  exact exec_of_body_ok (i := .feNew cs mb pb true) ((bindExtractor_ok_iff cs mb pb true s _).2
    ⟨hfe, c, hslot, hq, hmb, hpb, fun _ => ⟨hw0, hw1⟩, rfl⟩)

end Sys2Proof.Machine

/-! ## The fuzzy extractor: FE.HDRD, and the exceptions in order -/

namespace Sys2Proof.Machine

/-- The tests of FE.HDRD in their order (46_fuzzy_extractor.md R231). -/
theorem readHelper_error_iff (wd : WordIdx) (sel : HelperHalf) (s : State) (t : Trap) :
    readHelper wd sel s = .error t ↔
      s.fe = none ∧ t = .iiFeInvalid
        ∨ ∃ fe, s.fe = some fe ∧ fe.helper = none ∧ t = .iiNoHelper := by
  unfold readHelper
  cases hfe : s.fe with
  | none => simp [eq_comm]
  | some fe => cases hop : helperOperand fe <;> simp [← helperOperand_error_iff, hop, eq_comm]

/-- Settles O58: the two tests, and the half that `sel` names. -/
theorem feHdrdCopiesHelperData : Obligations.FeHdrdCopiesHelperData := by
  refine fun s wd sel => ⟨fun hfe => ?_, fun fe hfe => ⟨fun hnone => ?_, fun h hhelper => ?_⟩⟩
  · exact exec_of_body_error (i := .feHdrd wd sel) (e := .iiFeInvalid)
      ((readHelper_error_iff wd sel s _).2 (.inl ⟨hfe, rfl⟩))
  · exact exec_of_body_error (i := .feHdrd wd sel) (e := .iiNoHelper)
      ((readHelper_error_iff wd sel s _).2 (.inr ⟨fe, hfe, hnone, rfl⟩))
  · have copies (half : HelperHalf) :
        exec (.feHdrd wd half) s = .next (s.setWord wd (helperHalf h half)).reportsSuccess :=
      exec_of_body_ok (i := .feHdrd wd half) ((readHelper_ok_iff wd half s _).2
        ⟨fe, h, hfe, hhelper, rfl⟩)
    exact ⟨copies .s, copies .x⟩

theorem badBinding_true_iff (c : Code) (mb pb : Nat) :
    badBinding c mb pb = true ↔ c.q ≠ 2 ∨ mb ≠ c.k ∨ mb + pb ≠ c.n := by
  rw [← Bool.not_eq_false, badBinding_false_iff, not_and_or, not_and_or]

/-- The tests of FE.NEW in their order (46_fuzzy_extractor.md R226). -/
theorem bindExtractor_error_iff (cs : SlotIdx) (mb pb : Nat) (h : Bool) (s : State) (t : Trap) :
    bindExtractor cs mb pb h s = .error t ↔
      s.fe ≠ none ∧ t = .ceSlotBuilt
        ∨ s.fe = none ∧ (s.slot cs = none ∧ t = .ceFeBind
          ∨ ∃ c, s.slot cs = some c ∧ (badBinding c mb pb = true ∧ t = .ceFeBind
            ∨ badBinding c mb pb = false ∧ h = true
              ∧ ¬ (WordOver 2 c.n (s.word 0) ∧ WordOver 2 c.n (s.word 1)) ∧ t = .ceFeHelper)) := by
  have hwords : ∀ n, (badHelperWord n (s.word 0) || badHelperWord n (s.word 1)) = true
      ↔ ¬ (WordOver 2 n (s.word 0) ∧ WordOver 2 n (s.word 1)) := fun n => by
    rw [← badHelperWord_false_iff, ← badHelperWord_false_iff, ← Bool.or_eq_false_iff,
      Bool.not_eq_false]
  simp only [bindExtractor, raiseIf_error_iff, Option.isSome_iff_ne_none, not_not]
  cases s.slot cs with
  | none => simp [eq_comm (a := Trap.ceFeBind)]
  | some c =>
    cases h <;>
      simp only [raiseIf_error_iff, hwords, Bool.not_eq_true, reduceCtorEq, Option.some.injEq,
        exists_eq_left', if_true, if_false, false_and, true_and, and_false, or_false, false_or]

section
variable {s : State} (wd ws : WordIdx)

theorem generateHelper_of_no_extractor (hfe : s.fe = none) :
    generateHelper wd ws s = .error .iiFeInvalid := by
  simp only [generateHelper, extractorOperand, hfe]

theorem reproduce_of_no_extractor (hfe : s.fe = none) :
    reproduce wd ws s = .error .iiFeInvalid := by
  simp only [reproduce, extractorOperand, hfe]

variable {fe : Extractor} {c : Code} (hfe : s.fe = some fe) (hslot : s.slot fe.slot = some c)
  (t : Trap)
include hfe hslot

/-- The tests of FE.GEN after the first, in their order (46_fuzzy_extractor.md R229). -/
theorem generateHelper_error_iff :
    generateHelper wd ws s = .error t ↔
      fe.helper ≠ none ∧ t = .ceOneshot
        ∨ fe.helper = none ∧ checkOperand (s.word ws) c.n 2 = .error t := by
  simp only [generateHelper, (extractorOperand_ok_iff s fe c).2 ⟨hfe, hslot⟩, raiseIf_error_iff,
    Option.isSome_iff_ne_none, not_not]
  cases checkOperand (s.word ws) c.n 2 <;> simp

/-- The tests of FE.REP after the first, in their order (46_fuzzy_extractor.md R230). -/
theorem reproduce_error_iff :
    reproduce wd ws s = .error t ↔
      fe.helper = none ∧ t = .iiNoHelper
        ∨ ∃ h, fe.helper = some h ∧ (checkOperand (s.word ws) c.n 2 = .error t
          ∨ WordOver 2 c.n (s.word ws) ∧ reproduceInput c h (s.word ws) = .error t) := by
  simp only [reproduce, (extractorOperand_ok_iff s fe c).2 ⟨hfe, hslot⟩]
  cases hhelper : fe.helper with
  | none => simp [helperOperand, hhelper, eq_comm]
  | some h =>
    simp only [(helperOperand_ok_iff fe h).2 hhelper]
    obtain ⟨hw, hcheck⟩ | ⟨hw, e, hcheck⟩ := checkOperand_cases (s.word ws) c.n 2
    · cases hin : reproduceInput c h (s.word ws) <;> simp [hcheck, hin, eq_true hw]
    · simp [hcheck, hw]

end

/-- Settles O59: each body raises at the first test that fails. -/
theorem feCommandsRaiseInOrder : Obligations.FeCommandsRaiseInOrder := by
  refine fun s => ⟨fun cs mb pb h => ?_, fun wd ws =>
    ⟨fun hfe => ⟨exec_of_body_error (i := .feGen wd ws) (generateHelper_of_no_extractor wd ws hfe),
      exec_of_body_error (i := .feRep wd ws) (reproduce_of_no_extractor wd ws hfe)⟩,
      fun fe c hfe hslot => ?_⟩⟩
  · have raises {e : Trap} := fun hbody =>
      exec_of_body_error (i := .feNew cs mb pb h) ((bindExtractor_error_iff cs mb pb h s e).2 hbody)
    refine ⟨fun hfe => raises (.inl ⟨hfe, rfl⟩), fun hfe => ?_⟩
    refine ⟨fun hslot => raises (.inr ⟨hfe, .inl ⟨hslot, rfl⟩⟩), fun c hslot => ?_⟩
    replace raises {e : Trap} := fun htest => @raises e (.inr ⟨hfe, .inr ⟨c, hslot, htest⟩⟩)
    refine ⟨fun hbad => raises (.inl ⟨(badBinding_true_iff c mb pb).2 hbad, rfl⟩), ?_⟩
    intro hq hmb hpb hh hwords
    exact raises (.inr ⟨(badBinding_false_iff c mb pb).2 ⟨hq, hmb, hpb⟩, hh, hwords, rfl⟩)
  · have hlength (hlen : (s.word ws).length ≠ c.n) :
        checkOperand (s.word ws) c.n 2 = .error .iiLength :=
      (checkOperand_error_iff _ _ _ _).2 (.inl ⟨hlen, rfl⟩)
    have hsymbol (hlen : (s.word ws).length = c.n) (hsym : ∃ x ∈ s.word ws, 2 ≤ x) :
        checkOperand (s.word ws) c.n 2 = .error .iiSymbol :=
      (checkOperand_error_iff _ _ _ _).2 (.inr ⟨hlen, hsym, rfl⟩)
    have genRaises {e : Trap} := fun hbody => exec_of_body_error (i := .feGen wd ws)
      ((generateHelper_error_iff wd ws hfe hslot e).2 hbody)
    have repRaises {e : Trap} := fun hbody => exec_of_body_error (i := .feRep wd ws)
      ((reproduce_error_iff wd ws hfe hslot e).2 hbody)
    refine ⟨fun hset => genRaises (.inl ⟨hset, rfl⟩),
      fun hbare => ⟨repRaises (.inl ⟨hbare, rfl⟩), fun hlen => genRaises (.inr ⟨hbare, hlength hlen⟩),
        fun hlen hsym => genRaises (.inr ⟨hbare, hsymbol hlen hsym⟩)⟩, fun h hhelper => ?_⟩
    exact ⟨fun hlen => repRaises (.inr ⟨h, hhelper, .inl (hlength hlen)⟩),
      fun hlen hsym => repRaises (.inr ⟨h, hhelper, .inl (hsymbol hlen hsym)⟩),
      fun hw e hdecode => repRaises
        (.inr ⟨h, hhelper, .inr ⟨hw, reproduceInput_of_decode_error hdecode⟩⟩)⟩

end Sys2Proof.Machine


/-! ## Exceptions: illegal words, and the complete relation (60_exceptions.md R256, R257) -/

namespace Sys2Proof.Machine

/-- Settles O12: a word that decodes to a command matches a row, so this one is rejected. -/
theorem illegalWordRaisesIllegalCommand : Obligations.IllegalWordRaisesIllegalCommand := by
  intro s v rest hport hnorow
  rw [step_cmdWrite s v rest hport]
  obtain ⟨i, hdecode, -⟩ | ⟨e, -, hrun⟩ := runCommand_cases v (s.answer rest .writeDone)
  · obtain ⟨row, hrow, hmatch⟩ := (decoderAgreesWithOpcodeTable.1 v).1 ⟨i, hdecode⟩
    exact absurd hmatch (hnorow row hrow)
  · exact hrun

/-! ### The operand checks and the decoders -/

theorem map_error_iff {α β : Type} (f : α → β) (x : Except Trap α) (e : Trap) :
    x.map f = .error e ↔ x = .error e := by
  cases x <;> simp [Except.map]

theorem checkOperand_error {w : Word} {L q : Nat} {e : Trap} (h : checkOperand w L q = .error e) :
    e = .iiLength ∨ e = .iiSymbol :=
  ((checkOperand_error_iff w L q e).1 h).imp And.right fun ⟨_, _, he⟩ => he

/-- On a code that its constructor admits a decoder raises what the relation lists for DEC and DECM:
a Golay code without a decoder has order 11 or 12. -/
theorem decodeRaises_of_decodeWord_error {c : Code} {w : Word} {e : Trap} (hc : c.ok = true)
    (h : decodeWord c w = .error e) : decodeRaises c e = true := by
  obtain hfamily | ⟨hkind, h24, h23, rfl⟩ := decodeWord_error h
  · simp [decodeRaises, hfamily]
  · have horder : c.n = 11 ∨ c.n = 12 := by
      have hrow := Code.ok_gol_row hc hkind
      omega
    simp [decodeRaises, hkind, horder]

/-- A binary code has a decoder, so NotImplemented is not raised: FE.REP's row does not list it. -/
theorem familyRaises_of_decodeWord_error {c : Code} {w : Word} {e : Trap} (hc : c.ok = true)
    (hq : c.q = 2) (h : decodeWord c w = .error e) : familyRaises c.kind e = true := by
  obtain hfamily | ⟨hkind, h24, h23, -⟩ := decodeWord_error h
  · exact hfamily
  · have hrow := Code.ok_gol_row hc hkind
    omega

theorem reproduceInput_error_iff (c : Code) (h : Helper) (v : Word) (e : Trap) :
    reproduceInput c h v = .error e ↔ decodeWord c (wAdd 2 v h.s) = .error e := by
  unfold reproduceInput
  cases decodeWord c (wAdd 2 v h.s) <;> simp

/-! ### What each command raises -/

theorem encodeCommand_error {wd ws : WordIdx} {cs : SlotIdx} {s : State} {e : Trap}
    (h : encodeCommand wd ws cs s = .error e) :
    e = .iiSlotEmpty ∨ e = .iiLength ∨ e = .iiSymbol := by
  cases hslot : s.slot cs with
  | none =>
    simp only [encodeCommand, (slotOperand_error_iff s cs _).2 ⟨hslot, rfl⟩,
      Except.error.injEq] at h
    exact .inl h.symm
  | some c =>
    rw [encodeCommand_eq wd ws hslot, map_error_iff] at h
    exact .inr (checkOperand_error h)

/-- What DEC and DECM share fails at an operand check or in the decoder of the slot's code. -/
theorem decodeOperand_error {ws : WordIdx} {cs : SlotIdx} {s : State} {e : Trap}
    (h : decodeOperand ws cs s = .error e) :
    (e = .iiSlotEmpty ∨ e = .iiLength ∨ e = .iiSymbol)
      ∨ ∃ c, s.slot cs = some c ∧ decodeWord c (s.word ws) = .error e := by
  cases hslot : s.slot cs with
  | none =>
    simp only [decodeOperand, (slotOperand_error_iff s cs _).2 ⟨hslot, rfl⟩,
      Except.error.injEq] at h
    exact .inl (.inl h.symm)
  | some c =>
    rw [decodeOperand_eq ws hslot] at h
    obtain ⟨-, hcheck⟩ | ⟨-, t, hcheck⟩ := checkOperand_cases (s.word ws) c.n c.q
    · rw [hcheck] at h
      exact .inr ⟨c, rfl, h⟩
    · rw [hcheck] at h
      obtain rfl : t = e := Except.error.inj h
      exact .inl (.inr (checkOperand_error hcheck))

section
variable {s : State} (hs : s.inv = true) {e : Trap}
include hs

/-- The row of DEC and DECM (60_exceptions.md R257). -/
theorem mayRaise_of_decodeOperand_error (wd : WordIdx) {ws : WordIdx} {cs : SlotIdx}
    (h : decodeOperand ws cs s = .error e) :
    mayRaise s (.dec wd ws cs) e = true ∧ mayRaise s (.decm wd ws cs) e = true := by
  obtain ⟨hcodes, -, -⟩ := (State.inv_iff s).1 hs
  obtain (rfl | rfl | rfl) | ⟨c, hslot, hdecode⟩ := decodeOperand_error h
  · exact ⟨rfl, rfl⟩
  · exact ⟨rfl, rfl⟩
  · exact ⟨rfl, rfl⟩
  · have hraises := decodeRaises_of_decodeWord_error (hcodes cs c hslot) hdecode
    simp [mayRaise, hslot, hraises]

/-- The slot of a constructed extractor holds a binary code (10_state.md R28). -/
theorem State.inv_extractor {fe : Extractor} (hfe : s.fe = some fe) :
    ∃ c, s.slot fe.slot = some c ∧ c.ok = true ∧ c.q = 2 := by
  obtain ⟨hcodes, hext, -⟩ := (State.inv_iff s).1 hs
  obtain ⟨c, hslot, ⟨hq, -, -⟩, -⟩ := (Extractor.ok_iff s fe).1 (hext fe hfe)
  exact ⟨c, hslot, hcodes _ c hslot, hq⟩

/-- The row of FE.GEN (60_exceptions.md R257). -/
theorem mayRaise_of_generateHelper_error {wd ws : WordIdx}
    (h : generateHelper wd ws s = .error e) : mayRaise s (.feGen wd ws) e = true := by
  cases hfe : s.fe with
  | none =>
    rw [generateHelper_of_no_extractor wd ws hfe] at h
    obtain rfl := Except.error.inj h
    rfl
  | some fe =>
    obtain ⟨c, hslot, -, -⟩ := State.inv_extractor hs hfe
    obtain ⟨-, rfl⟩ | ⟨-, hcheck⟩ := (generateHelper_error_iff wd ws hfe hslot e).1 h
    · rfl
    · obtain rfl | rfl := checkOperand_error hcheck <;> rfl

/-- The row of FE.REP (60_exceptions.md R257). -/
theorem mayRaise_of_reproduce_error {wd ws : WordIdx} (h : reproduce wd ws s = .error e) :
    mayRaise s (.feRep wd ws) e = true := by
  cases hfe : s.fe with
  | none =>
    rw [reproduce_of_no_extractor wd ws hfe] at h
    obtain rfl := Except.error.inj h
    rfl
  | some fe =>
    obtain ⟨c, hslot, hc, hq⟩ := State.inv_extractor hs hfe
    obtain ⟨-, rfl⟩ | ⟨helper, -, hcheck | ⟨-, hinput⟩⟩ :=
      (reproduce_error_iff wd ws hfe hslot e).1 h
    · rfl
    · obtain rfl | rfl := checkOperand_error hcheck <;> rfl
    · have hraises := familyRaises_of_decodeWord_error hc hq
        ((reproduceInput_error_iff c helper _ e).1 hinput)
      simp [mayRaise, hfe, hslot, hraises]

/-- The complete relation: a body that raises takes an exception of its command's row
(60_exceptions.md R257). -/
theorem mayRaise_of_body_error {i : Instr} (h : commandBody i s = .error e) :
    mayRaise s i e = true := by
  cases i with
  | hamNew cs r q =>
    obtain ⟨-, rfl⟩ | ⟨-, ⟨-, rfl⟩ | ⟨-, ⟨-, rfl⟩ | ⟨-, -, rfl⟩⟩⟩ :=
      (buildHamming_error_iff cs r q s e).1 h <;> rfl
  | bchNew cs q d c =>
    obtain ⟨-, rfl⟩ | ⟨-, ⟨-, rfl⟩ | ⟨-, ⟨-, rfl⟩ | ⟨-, ⟨-, rfl⟩ | ⟨-, m, n, -, -, hcode⟩⟩⟩⟩ :=
      (buildBch_error_iff cs q d c s e).1 h
    · rfl
    · rfl
    · rfl
    · rfl
    · obtain ⟨-, rfl⟩ | ⟨-, ⟨-, rfl⟩ | ⟨-, ⟨-, rfl⟩ | ⟨-, -, rfl⟩⟩⟩ := hcode <;> rfl
  | golNew cs n =>
    obtain ⟨-, rfl⟩ | ⟨-, -, rfl⟩ := (buildGolay_error_iff cs n s e).1 h <;> rfl
  | rmNew cs r m =>
    obtain ⟨-, rfl⟩ | ⟨-, ⟨-, rfl⟩ | ⟨-, -, rfl⟩⟩ :=
      (buildReedMuller_error_iff cs r m s e).1 h <;> rfl
  | enc wd ws cs => obtain rfl | rfl | rfl := encodeCommand_error h <;> rfl
  | dec wd ws cs =>
    exact (mayRaise_of_decodeOperand_error hs wd ((map_error_iff _ _ e).1 h)).1
  | decm wd ws cs =>
    exact (mayRaise_of_decodeOperand_error hs wd ((map_error_iff _ _ e).1 h)).2
  | feNew cs mb pb hd =>
    obtain ⟨-, rfl⟩ | ⟨-, ⟨-, rfl⟩ | ⟨c, -, ⟨-, rfl⟩ | ⟨-, -, -, rfl⟩⟩⟩ :=
      (bindExtractor_error_iff cs mb pb hd s e).1 h <;> rfl
  | feGen wd ws => exact mayRaise_of_generateHelper_error hs h
  | feRep wd ws => exact mayRaise_of_reproduce_error hs h
  | feHdrd wd sel =>
    obtain ⟨-, rfl⟩ | ⟨fe, -, -, rfl⟩ := (readHelper_error_iff wd sel s e).1 h <;> rfl

end

/-- Settles O19: LAST is nonzero only after an error of the body, and the body's errors are those of
the command's row. -/
theorem commandsRaiseOnlyWhatTheRelationLists :
    Obligations.CommandsRaiseOnlyWhatTheRelationLists := by
  intro i s t hs hexec hlast
  cases hbody : commandBody i s with
  | ok u =>
    obtain rfl := Host.Outcome.next.inj ((exec_of_body_ok hbody).symm.trans hexec)
    exact absurd rfl hlast
  | error e =>
    have ht := Host.Outcome.next.inj ((exec_of_body_error hbody).symm.trans hexec)
    exact ⟨e, mayRaise_of_body_error hs hbody, ht.symm⟩

end Sys2Proof.Machine

/-! ## The platform's reset, the spec's example words, enrolment -/

namespace Sys2Proof.Machine

/-! ### The platform's reset (70_reset_and_hazards.md R280 to R282) -/

theorem step_reset {s : State} {rest : List BusRequest} (h : s.port = .reset :: rest) :
    step s = .next { s.resetBlock with port := rest } := by
  simp only [step, h]

/-- The command in progress leaves no trace: the step is that of the reset alone. -/
theorem step_commandCutByReset {s : State} {v : RegVal} {rest : List BusRequest}
    (h : s.port = .commandCutByReset v :: rest) :
    step s = .next { s.resetBlock with port := rest } := by
  simp only [step, State.abandonCommand, h]

/-- Settles O2: either form of reset takes the step that restores the block. -/
theorem platformResetRestoresResetState : Obligations.PlatformResetRestoresResetState := by
  rintro s rest (hreset | ⟨v, hcut⟩)
  · exact step_reset hreset
  · exact step_commandCutByReset hcut

/-! ### The spec's example words (30_encoding.md R80) -/

theorem decode_eq_of_encode_eq {v : RegVal} {i : Instr} (hwf : i.wellFormed = true)
    (hword : encode i = v) : decode v = .ok i :=
  hword ▸ decodeInvertsEncode i hwf

/-- Settles O16: each word is the encoding of the well-formed command the spec names. -/
theorem specExampleWordsDecode : Obligations.SpecExampleWordsDecode := by
  unfold Obligations.SpecExampleWordsDecode
  and_intros <;> exact decode_eq_of_encode_eq rfl rfl

/-! ### FE.GEN (46_fuzzy_extractor.md R229) -/

/-- Bits drawn after the first `m` lie `m` further on in the sequence. -/
theorem drawBits_add (start m n : Nat) :
    drawBits (start + m) n
      = (List.range n).map fun j => (Config.randBit (start + (m + j))).toNat := by
  simp only [drawBits, Nat.add_assoc]

/-- Settles O55: every check of FE.GEN passes, and u is drawn after the n bits of x. -/
theorem feGenEnrols : Obligations.FeGenEnrols := by
  intro s wd ws fe c hfe hbare hslot hw bit x u
  have hu : drawBits (s.draws + c.n) c.k = u := drawBits_add s.draws c.n c.k
  have hgen : generateHelper wd ws s = .ok (enrol wd fe c (s.word ws) s) :=
    (generateHelper_ok_iff wd ws s _).2 ⟨fe, c, hfe, hslot, hbare, hw, rfl⟩
  have hexec := exec_of_body_ok (i := .feGen wd ws) hgen
  rw [enrol, hu] at hexec
  exact hexec

end Sys2Proof.Machine
